-- ==== Sys2Proof/Word.lean ====
section
/-! DEFINITION. The machine words of the engine: a byte, a mask of the four bus lines, a line's name. -/

namespace Sys2Proof

/-- A byte: 8 bits, bit 7 the most significant (R11). -/
abbrev Byte := BitVec 8

/-- One bit per logical line, 1 = asserted (pulled low): bit 0 DATA, bit 1 CLOCK, bit 2 ATN, bit 3 RESET (R81). -/
abbrev Lines := BitVec 4

/-- The four open-drain lines of the bus (R61, C12). -/
inductive Line
  | data
  | clock
  | atn
  | reset
  deriving DecidableEq, Repr

end Sys2Proof
end

