-- ==== Sys2Proof/Syntax.lean ====
section
/-! DEFINITION. The instructions: one constructor per row of spec/opcode_table.json, and the pseudo-instructions of R95. -/

namespace Sys2Proof

/-- The nine host commands (R89) and the nine internal rows of the opcode table. -/
inductive Instr
  /-- `REQUEST_READ n` (R210), opcode 0x01. -/
  | requestRead (n : Byte)
  /-- `COLLECT_READ n` (R211), opcode 0x02. -/
  | collectRead (n : Byte)
  /-- `SUBMIT_WRITE n` with its data block (R213), opcode 0x03. -/
  | submitWrite (n : Byte) (block : List Byte)
  /-- `SUBMIT_ASYNC a, t, n` with its payload (R215), opcode 0x04. -/
  | submitAsync (atn talk n : Byte) (payload : List Byte)
  /-- `QUERY_RESULT` (R217), opcode 0x05. -/
  | queryResult
  /-- `LOGICAL_WAIT line, state` (R219), opcode 0x06. -/
  | logicalWait (line state : Byte)
  /-- `LOGICAL_POLL` (R221), opcode 0x07. -/
  | logicalPoll
  /-- `SET_RELEASE s, r` (R222), opcode 0x08. -/
  | setRelease (set release : Byte)
  /-- `BUS_RESET` (R224), opcode 0x09. -/
  | busReset
  /-- `send_byte(v)` (R116); internal. -/
  | sendByte (v : Byte)
  /-- `receive_byte()` (R119); internal. -/
  | receiveByte
  /-- `write(base, n, atn, talk)` (R140); internal. -/
  | write (base : Nat) (n : Byte) (atn talk : Bool)
  /-- `read(maxLen)` (R155); internal. -/
  | read (maxLen : Byte)
  /-- `reset()` (R164); internal. -/
  | reset
  /-- Dispatch of `WRITE` (R191); internal. -/
  | dispatchWrite
  /-- Dispatch of `ASYNC` (R192); internal. -/
  | dispatchAsync
  /-- Dispatch of `READ` (R193); internal. -/
  | dispatchRead
  /-- Dispatch in `IDLE`, `RESULT` and `READ_DONE` (R194); internal. -/
  | dispatchNone
  deriving DecidableEq, Repr

/-- One line of a host script (R94, R95): a command, or a `QUERY_RESULT` repeated until its state byte is `code`. -/
inductive ScriptLine
  | command (i : Instr)
  | queryUntil (code : Byte)
  deriving DecidableEq, Repr

/-- The length byte of a bracketed byte list (R94). -/
def lengthByte (bs : List Byte) : Byte := BitVec.ofNat 8 bs.length

/-- `ATN_SEND [b...]` (R95). -/
def atnSend (bs : List Byte) : List ScriptLine := [.command (.submitAsync 1 0 (lengthByte bs) bs)]

/-- `ATN_SEND_TALK [b...]` (R95). -/
def atnSendTalk (bs : List Byte) : List ScriptLine := [.command (.submitAsync 1 1 (lengthByte bs) bs)]

/-- `DATA_SEND [b...]` (R95). -/
def dataSend (bs : List Byte) : List ScriptLine := [.command (.submitWrite (lengthByte bs) bs)]

/-- `RECV n` (R95): the state byte 4 is `READ_DONE`. -/
def recv (n : Byte) : List ScriptLine := [.command (.requestRead n), .queryUntil 4, .command (.collectRead n)]

/-- `AWAIT_RESULT` (R95): the state byte 5 is `RESULT`. -/
def awaitResult : List ScriptLine := [.queryUntil 5]

/-- `PULSE_LINES m` (R95). -/
def pulseLines (m : Byte) : List ScriptLine := [.command (.setRelease m 0), .command (.setRelease 0 m)]

end Sys2Proof
end

