-- ==== Sys2Proof/WellFormed.lean ====
section
/-! DEFINITION. Well-formed instructions: the data of a frame has the length its length byte says (R88), and `write` starts at
one of the two payload offsets (R64, R140). -/

namespace Sys2Proof

/-- A host command, which has an encoding (R89); the other rows are reached only through the command buffer (R3). -/
def Instr.isCommand : Instr → Bool
  | .requestRead _ => true
  | .collectRead _ => true
  | .submitWrite _ _ => true
  | .submitAsync _ _ _ _ => true
  | .queryResult => true
  | .logicalWait _ _ => true
  | .logicalPoll => true
  | .setRelease _ _ => true
  | .busReset => true
  | .sendByte _ => false
  | .receiveByte => false
  | .write _ _ _ _ => false
  | .read _ => false
  | .reset => false
  | .dispatchWrite => false
  | .dispatchAsync => false
  | .dispatchRead => false
  | .dispatchNone => false

/-- Formats F1D and FA carry exactly `n` data bytes (R88); `write` has base 0 or 2 (R140); every other form is well formed. -/
def Instr.wellFormed : Instr → Bool
  | .requestRead _ => true
  | .collectRead _ => true
  | .submitWrite n block => block.length == n.toNat
  | .submitAsync _ _ n payload => payload.length == n.toNat
  | .queryResult => true
  | .logicalWait _ _ => true
  | .logicalPoll => true
  | .setRelease _ _ => true
  | .busReset => true
  | .sendByte _ => true
  | .receiveByte => true
  | .write base _ _ _ => base == 0 || base == 2
  | .read _ => true
  | .reset => true
  | .dispatchWrite => true
  | .dispatchAsync => true
  | .dispatchRead => true
  | .dispatchNone => true

end Sys2Proof
end

