-- ==== Sys2Proof/Decode.lean ====
section
/-! DEFINITION. The decoder of command frames and the encoder (R88, R89, R92). -/

namespace Sys2Proof

/-- What the decoder finds at the head of a byte queue. -/
inductive Decoded
  /-- A complete frame, and the bytes after it. -/
  | frame (i : Instr) (rest : List Byte)
  /-- The operand bytes are not all there yet: not a frame the engine can take (R92). -/
  | incomplete
  /-- The opcode byte is reserved: 0x00, 0x0A to 0xFF (R92). -/
  | reserved (op : Byte)
  deriving DecidableEq, Repr

/-- Format F1: one operand byte. -/
def decodeF1 (mk : Byte → Instr) : List Byte → Decoded
  | [] => .incomplete
  | n :: rest => .frame (mk n) rest

/-- The first `n` bytes of a queue and the bytes after them; `none` where there are fewer than `n`. -/
def splitBytes : (n : Nat) → List Byte → Option (List Byte × List Byte)
  | 0, bs => some ([], bs)
  | _ + 1, [] => none
  | n + 1, b :: bs =>
    match splitBytes n bs with
    | some (front, rest) => some (b :: front, rest)
    | none => none

/-- A variable-length tail: the `n` bytes the length byte announces. -/
def decodeTail (mk : List Byte → Instr) (n : Byte) (bs : List Byte) : Decoded :=
  match splitBytes n.toNat bs with
  | some (block, rest) => .frame (mk block) rest
  | none => .incomplete

/-- Format F1D: a length byte and a block of that many bytes. -/
def decodeF1D (mk : Byte → List Byte → Instr) : List Byte → Decoded
  | [] => .incomplete
  | n :: rest => decodeTail (mk n) n rest

/-- Format F2: two operand bytes. -/
def decodeF2 (mk : Byte → Byte → Instr) : List Byte → Decoded
  | a :: b :: rest => .frame (mk a b) rest
  | _ => .incomplete

/-- Format FA: two flags, a length byte and a payload of that many bytes. -/
def decodeFA (mk : Byte → Byte → Byte → List Byte → Instr) : List Byte → Decoded
  | a :: t :: n :: rest => decodeTail (mk a t n) n rest
  | _ => .incomplete

/-- The operands after an opcode byte (R89). -/
def decodeOperands (op : Byte) (rest : List Byte) : Decoded :=
  match op.toNat with
  | 1 => decodeF1 .requestRead rest
  | 2 => decodeF1 .collectRead rest
  | 3 => decodeF1D .submitWrite rest
  | 4 => decodeFA .submitAsync rest
  | 5 => .frame .queryResult rest
  | 6 => decodeF2 .logicalWait rest
  | 7 => .frame .logicalPoll rest
  | 8 => decodeF2 .setRelease rest
  | 9 => .frame .busReset rest
  | _ => .reserved op

/-- The first frame of a byte queue. No engine state is consulted (R93). -/
def decode : List Byte → Decoded
  | [] => .incomplete
  | op :: rest => decodeOperands op rest

/-- The bytes of a host command (R88, R89); an internal row has none. -/
def encode : Instr → Option (List Byte)
  | .requestRead n => some [0x01, n]
  | .collectRead n => some [0x02, n]
  | .submitWrite n block => some (0x03 :: n :: block)
  | .submitAsync a t n payload => some (0x04 :: a :: t :: n :: payload)
  | .queryResult => some [0x05]
  | .logicalWait line state => some [0x06, line, state]
  | .logicalPoll => some [0x07]
  | .setRelease s r => some [0x08, s, r]
  | .busReset => some [0x09]
  | .sendByte _ => none
  | .receiveByte => none
  | .write _ _ _ _ => none
  | .read _ => none
  | .reset => none
  | .dispatchWrite => none
  | .dispatchAsync => none
  | .dispatchRead => none
  | .dispatchNone => none

/-- The `k` bytes of a number, the least significant first. -/
def bytesOfNat : (k : Nat) → (w : Nat) → List Byte
  | 0, _ => []
  | k + 1, w => BitVec.ofNat 8 w :: bytesOfNat k (w / 256)

/-- The longest frame: format FA with 255 payload bytes. -/
def longestFrame : Nat := 259

/-- The first `nbits` bits of a frame, numbered from the least significant bit of its first byte, followed by zero bytes up to
the longest frame. -/
def bytesOfTableWord (nbits w : Nat) : List Byte :=
  bytesOfNat (nbits / 8) w ++ List.replicate (longestFrame - nbits / 8) 0

/-- The instruction the decoder reads from a frame whose bits are `w`, zero above `nbits`. -/
def decodeTableWord (nbits w : Nat) : Option Instr :=
  match decode (bytesOfTableWord nbits w) with
  | .frame i _ => some i
  | .incomplete => none
  | .reserved _ => none

/-- The bytes of that frame alone: what the decoder takes, or the given bytes where it takes none. -/
def frameOfTableWord (nbits w : Nat) : List Byte :=
  match decodeTableWord nbits w with
  | some i => (encode i).getD []
  | none => bytesOfNat (nbits / 8) w

end Sys2Proof
end

