-- ==== Sys2Proof/Config.lean ====
section
/-! DEFINITION. The implementation parameters (R7 to R10) and the free values (93_implementation_defined.md).
`Params` is carried in State and no step writes it; `Config.initial` is its value at power-on. The constants declared
`opaque` have no body: no proof can see what they are. -/

namespace Sys2Proof

/-- `PHYS_MAP` (R8): the bit of the physical port that drives and senses each logical line. -/
structure PhysMap where
  data : Nat
  clock : Nat
  atn : Nat
  reset : Nat
  deriving DecidableEq, Repr

/-- The port bits of the four lines; the map is injective (D44) exactly when they are distinct. -/
def PhysMap.bits (m : PhysMap) : List Nat := [m.data, m.clock, m.atn, m.reset]

/-- The implementation parameters of R7 to R10; every time is in microseconds. -/
structure Params where
  /-- `BUF_CAP` (R7). -/
  bufCap : Nat
  /-- `PHYS_MAP` (R8). -/
  physMap : PhysMap
  /-- `QUERY_CLEARS_RESULT` (R10). -/
  queryClears : Bool
  tBitSetup : Nat
  tBitHold : Nat
  tAck : Nat
  tListenClaim : Nat
  tByteSettle : Nat
  tReadClk : Nat
  tEoiWindow : Nat
  tEoiPulse : Nat
  tRxStart : Nat
  tRxBit : Nat
  tResetHold : Nat
  tProbeSettle : Nat
  tProbeAtn : Nat
  tProbeRelease : Nat
  tFbRetry : Nat
  tFreebus : Nat
  tPoll : Nat
  tWdt : Nat
  tEps : Nat
  deriving DecidableEq, Repr

/-- The `n`-th unspecified byte drawn (U10, U13). -/
opaque Config.freeByte : Nat → Byte
/-- The `n`-th unspecified bit drawn (U11). -/
opaque Config.freeBit : Nat → Bool
/-- The unspecified contents of `BUF` after the reset named `epoch`, by index (U9). -/
opaque Config.freeBuf : (epoch : Nat) → (index : Nat) → Byte
/-- What the bus devices drive at a time the input list `bus` says nothing about (U15). -/
opaque Config.freeLines : (now : Nat) → Lines
/-- How long the interrupt sources lengthen the delay that makes the `n`-th draw (U16). -/
opaque Config.freeDelay : Nat → Nat
/-- The outcome of the block transfer that makes the `n`-th draw (U14). -/
opaque Config.freeOutcome : Nat → Bool

/-- How far `BUF_CAP` lies above its least value 3 (R7: OPEN, `3 <= BUF_CAP <= 255`). -/
opaque Config.bufCapAbove : Fin 253
/-- `BUF_CAP` of the machine at power-on (R7, U19). -/
def Config.bufCap : Nat := Config.bufCapAbove.val + 3
/-- `T_WDT` of the machine at power-on (R9, U21: OPEN). -/
opaque Config.tWdt : Nat

/-- Which of the port bits that are left each line has, DATA first (R8, U20: OPEN). -/
opaque Config.portChoice : Fin 4 → Nat

/-- The `k`-th bit of the port, counted without bit `taken`. -/
def skipBit (taken k : Nat) : Nat := if k < taken then k else k + 1

/-- `PHYS_MAP` of the machine at power-on: an open map from the four lines to distinct bits (R8, D44). Each line takes one of the
bits the lines before it have left, so that every injective map is one of its values and none is singled out. -/
def Config.physMap : PhysMap :=
  let c := Config.portChoice
  { data := c 0
    clock := skipBit (c 0) (c 1)
    atn := skipBit (c 0) (skipBit (c 1) (c 2))
    reset := skipBit (c 0) (skipBit (c 1) (skipBit (c 2) (c 3))) }

/-- The parameters of the machine at power-on: the defaults of R9 and R10, the OPEN ones opaque (R7, R8, R9). -/
def Config.initial : Params where
  bufCap := Config.bufCap
  physMap := Config.physMap
  queryClears := false
  tBitSetup := 70
  tBitHold := 20
  tAck := 2000
  tListenClaim := 1000
  tByteSettle := 50
  tReadClk := 1000000
  tEoiWindow := 400
  tEoiPulse := 70
  tRxStart := 2000
  tRxBit := 2000
  tResetHold := 30000
  tProbeSettle := 50
  tProbeAtn := 1000
  tProbeRelease := 100
  tFbRetry := 2000
  tFreebus := 2000000
  tPoll := 10
  tWdt := Config.tWdt
  tEps := 0

end Sys2Proof
end

