-- ==== Sys2Proof/Machine/State.lean ====
section
/-! DEFINITION. The state of the machine, the reasons a step can stop, and the state after power-on. -/

namespace Sys2Proof.Machine

/-- The model fault kinds of R252, which `FAULT` records. Safe: each stands where the source gives no meaning. -/
inductive FaultKind
  /-- Raised at MAIN line 3 on a reserved opcode (R92). -/
  | invalidCommand
  /-- Raised by `LOGICAL_WAIT` and `SET_RELEASE` on an operand that R91 refuses. -/
  | invalidOperand
  /-- Raised by the setters and by `COLLECT_READ` (R196, R210, R211, R213, R215). -/
  | hostPrecondition
  /-- Raised by a buffer access at an index `>= BUF_CAP` (R66). -/
  | bufferOverrun
  /-- Raised by a read of a working register that is unwritten (R34). -/
  | unwrittenRegister
  deriving DecidableEq, Repr

/-- Why `step` answers no next state. -/
inductive Fault
  /-- By `step` in every state whose `FAULT` is set: a faulted engine takes no step (R253). Safe: the spec says so. -/
  | stopped (k : FaultKind)
  /-- By `step` in a state whose control location is inside an operation: the operation never reaches the main loop (R284).
  Safe: nothing is claimed of such a run (notes/assumptions/13.md). -/
  | hang
  deriving DecidableEq, Repr

/-- Why an instruction has no meaning in the model. -/
inductive Refusal
  /-- By an arm of `exec` whose instruction has no meaning yet; no arm is. Safe. -/
  | notModelled (mnemonic : String)
  deriving DecidableEq, Repr

/-- The request states of R28. -/
inductive ReqState
  | idle
  | async
  | write
  | read
  | readDone
  | result
  deriving DecidableEq, Repr

/-- The operations a control location can be in (R33). -/
inductive OpName
  | main
  | requestRead
  | collectRead
  | submitWrite
  | submitAsync
  | queryResult
  | logicalWait
  | logicalPoll
  | setRelease
  | busReset
  | dispatchWrite
  | dispatchAsync
  | dispatchRead
  | write
  | read
  | reset
  | waitFreeBus
  | probeFree
  | sendByte
  | receiveByte
  | waitUntil
  | waitUntilKick
  | waitForever
  deriving DecidableEq, Repr

/-- A control location (R33): an operation and the numbered line of its pseudocode. -/
structure Loc where
  op : OpName
  line : Nat
  deriving DecidableEq, Repr

/-- The events of the trace (R37). -/
inductive Event
  | status
  | kick
  | freeBusTimeout
  | deviceAbsent
  deriving DecidableEq, Repr

/-- One line write of the engine: when, at which pseudocode line, and the value of `OUT` after it. -/
structure LineWrite where
  time : Nat
  loc : Loc
  out : Lines
  deriving DecidableEq, Repr

/-- An input of the bus environment: the devices drive `level` at every time below `before` that no earlier span covers. -/
structure BusSpan where
  before : Nat
  level : Lines
  deriving DecidableEq, Repr

/-- What the host does at its port (R268). -/
inductive HostAct
  /-- It appends bytes of frames to `HIN`. -/
  | send (bytes : List Byte)
  /-- It removes the first frame of `HOUT`. -/
  | take
  deriving DecidableEq, Repr

/-- An input of the host: what it does, and when. -/
structure HostMove where
  time : Nat
  act : HostAct
  deriving DecidableEq, Repr

/-- The state of the machine (10_state.md). -/
structure State where
  /-- `OUT` (R21). -/
  out : Lines
  /-- `EOI` (R24). -/
  eoi : Bool
  /-- `BUF` (R25): the bytes written since the last reset, by rising index; any other byte is unspecified. -/
  buf : List Host.Cell
  /-- `LEN` (R26). -/
  len : Byte
  /-- `REQ` (R28). -/
  req : ReqState
  /-- `RESULT` (R29). -/
  result : Byte
  /-- `COLLECTED` (R30). -/
  collected : Bool
  /-- `IE` (R31). -/
  ie : Bool
  /-- `IE_SAVED` (R31). -/
  ieSaved : Bool
  /-- `NOW` (R32). -/
  now : Nat
  /-- `WDT_LAST` (R32). -/
  wdtLast : Nat
  /-- `pc` (R33). -/
  pc : Loc
  /-- The call stack (R33), the innermost caller first. -/
  stack : List Loc
  /-- `SR` (R34); `none` is unwritten, as for the five below. -/
  sr : Option Byte
  /-- `BITN` (R34). -/
  bitn : Option Nat
  /-- `IDX` (R34). -/
  idx : Option Nat
  /-- `CNT` (R34). -/
  cnt : Option Nat
  /-- `OK` (R34). -/
  ok : Option Bool
  /-- `T0` (R34). -/
  t0 : Option Nat
  /-- `HIN` (R36), as the queue of its frames' bytes. -/
  hin : List Byte
  /-- `HOUT` (R36). -/
  hout : List (List Byte)
  /-- The event trace (R37), oldest first. -/
  trace : List Event
  /-- `FAULT` (R38). -/
  fault : Option FaultKind
  /-- The parameters (R7 to R10); no step writes them. -/
  cfg : Params
  /-- Input of the bus environment, which fixes `DEV` by time (R22); no step writes it. -/
  bus : List BusSpan
  /-- Input of the interrupt sources: the extra time of each coming delay (R256). -/
  irq : List Nat
  /-- Input of the transport: the outcome of each coming block transfer (R266). -/
  xfer : List Bool
  /-- Input of the host: its coming moves (R268). -/
  host : List HostMove
  /-- The model's own: how many free values have been drawn. -/
  draws : Nat
  /-- The model's own: which unspecified contents the unwritten bytes of `BUF` have. -/
  bufEpoch : Nat
  /-- The model's own: the line writes so far, oldest first. -/
  lineLog : List LineWrite
  /-- The model's own: how many watchdog resets have happened. -/
  resets : Nat
  deriving DecidableEq, Repr

/-- The machine after power-on (R280, R281). DESIGN CHOICE (notes/assumptions/2.md, 3.md, 6.md): `RESULT`, `IE_SAVED` and the
bytes of `BUF` are free values; `NOW` is 0. -/
def State.reset : State where
  out := 0
  eoi := false
  buf := []
  len := 0
  req := .idle
  result := Config.freeByte 1
  collected := false
  ie := true
  ieSaved := Config.freeBit 2
  now := 0
  wdtLast := 0
  pc := ⟨.main, 1⟩
  stack := []
  sr := none
  bitn := none
  idx := none
  cnt := none
  ok := none
  t0 := none
  hin := []
  hout := []
  trace := []
  fault := none
  cfg := Config.initial
  bus := []
  irq := []
  xfer := []
  host := []
  draws := 3
  bufEpoch := 0
  lineLog := []
  resets := 0

end Sys2Proof.Machine
end

