-- ==== Sys2Proof/Machine/Operands.lean ====
section
/-! DEFINITION. Operand forms: line masks and selectors, Booleans, codes, the poll byte; the bus level; the line mapping table. -/

namespace Sys2Proof.Machine

/-- The bit of a line in a logical mask (R81). -/
def lineMask : Line → Lines
  | .data => 0b0001
  | .clock => 0b0010
  | .atn => 0b0100
  | .reset => 0b1000

/-- Bits 7:4 of a mask byte are 0 (R81). -/
def maskHighClear (m : Byte) : Bool := m.extractLsb' 4 4 == 0

/-- Bits 3:0 of a mask byte (R81). -/
def maskLines (m : Byte) : Lines := m.extractLsb' 0 4

/-- The line a selector byte of `LOGICAL_WAIT` names: exactly one of bits 3:0, bits 7:4 zero (R82, R91). -/
def selectedLine (m : Byte) : Option Line :=
  if m = 0x01 then some .data
  else if m = 0x02 then some .clock
  else if m = 0x04 then some .atn
  else if m = 0x08 then some .reset
  else none

/-- The operand check of `SET_RELEASE` (R91, R222 line 1). -/
def setReleaseLegal (s r : Byte) : Bool := maskHighClear s && maskHighClear r && (s &&& r) == 0

/-- A Boolean operand byte: nonzero is true (R85). -/
def byteIsTrue (b : Byte) : Bool := b != 0

/-- The request-state code (R83). -/
def reqCode : ReqState → Byte
  | .idle => 0
  | .async => 1
  | .write => 2
  | .read => 3
  | .readDone => 4
  | .result => 5

/-- The number a fault kind has in `FAULT` (R252). -/
def faultCode : FaultKind → Nat
  | .invalidCommand => 1
  | .invalidOperand => 2
  | .hostPrecondition => 3
  | .bufferOverrun => 4
  | .unwrittenRegister => 5

/-- The level the devices drive at a time: the first span that has not ended, else a free value (R22, U15). -/
def levelAt : List BusSpan → Nat → Lines
  | [], t => Config.freeLines t
  | sp :: rest, t => if t < sp.before then sp.level else levelAt rest t

/-- `DEV` (R22): what the devices drive now. -/
def State.dev (s : State) : Lines := levelAt s.bus s.now

/-- `BUS = OUT | DEV` (R23), the source's `poll_all` (R264). -/
def State.busLevel (s : State) : Lines := s.out ||| s.dev

/-- `Asserted(L)`: the line is low on the bus, whoever pulls it (R13, R61). -/
def asserted (l : Line) (s : State) : Bool := (s.busLevel &&& lineMask l) != 0

/-- `Released(L)` is `not Asserted(L)` (R13). -/
def released (l : Line) (s : State) : Bool := !asserted l s

/-- The `LOGICAL_POLL` response byte: bits 2:0 of `BUS`, bits 7:3 zero (R84). -/
def pollByte (s : State) : Byte := (s.busLevel.extractLsb' 0 3).setWidth 8

/-- `PHYS_MAP(L)`: the bit of the physical port that drives and senses a line (R8). -/
def physBit (m : PhysMap) : Line → Nat
  | .data => m.data
  | .clock => m.clock
  | .atn => m.atn
  | .reset => m.reset

/-- `PHYS_MAP(L)` as a mask of the physical port. -/
def physMask (m : PhysMap) (l : Line) : Nat := 1 <<< physBit m l

/-- `MAPTAB[i]` (R35): the physical masks of the lines in a logical mask. -/
def mapTab (m : PhysMap) (i : Lines) : Nat :=
  (if i.getLsbD 0 then physMask m .data else 0) ||| (if i.getLsbD 1 then physMask m .clock else 0) |||
  (if i.getLsbD 2 then physMask m .atn else 0) ||| (if i.getLsbD 3 then physMask m .reset else 0)

/-- The bits of the physical port the engine drives: `MAPTAB[OUT]` (R35, R264). -/
def State.port (s : State) : Nat := mapTab s.cfg.physMap s.out

/-- The bits of the physical port at which the engine senses a line that is pulled low, by itself or by a device: `MAPTAB[BUS]`,
with 1 for low as in `BUS` (R8, R23, R35). -/
def State.portSensed (s : State) : Nat := mapTab s.cfg.physMap s.busLevel

/-- What the engine reads of a line at the physical port: `sample` of R264. On a machine with distinct port bits it is `Asserted(L)`. -/
def senseLine (l : Line) (s : State) : Bool := s.portSensed.testBit (physBit s.cfg.physMap l)

end Sys2Proof.Machine
end

