-- ==== Sys2Proof/Machine/Ops.lean ====
section
/-! DEFINITION. The shared operations: the engine's operations as state transformers, the pc and the call stack, faults, the
engine reset and the watchdog, the command buffer, line writes, the timing primitives, the hooks, the transport, the host port. -/

namespace Sys2Proof.Machine

/-- Why an operation is abandoned before it returns (R250). -/
inductive Stop
  /-- A watchdog reset has happened (R258). -/
  | watchdog
  /-- A model fault has been raised (R253). -/
  | faulted
  /-- A loop that never ends (R284). -/
  | hung
  deriving DecidableEq, Repr

/-- An engine operation: it returns a value and a state, or it is abandoned and leaves a state. -/
abbrev Op (α : Type) : Type := EStateM Stop State α

/-- The state an operation leaves, whether it returns or is abandoned. -/
def finalState {α : Type} (m : Op α) (s : State) : State :=
  match m s with
  | .ok _ t => t
  | .error _ t => t

/-- The meaning of an instruction whose rule is the operation `m`: it always answers a next state. -/
def answer {α : Type} (m : Op α) (s : State) : Host.Outcome State Fault Refusal := .next (finalState m s)

/-! ### Control location and call stack (R33) -/

/-- The pc moves to a numbered line of the operation it is in. -/
def line (k : Nat) : Op Unit := fun s => .ok () { s with pc := { s.pc with line := k } }

/-- Calling an operation pushes the caller's location and starts at line 1; a return pops it. -/
def call {α : Type} (o : OpName) (m : Op α) : Op α := fun s =>
  match m { s with pc := ⟨o, 1⟩, stack := s.pc :: s.stack } with
  | .ok a t => .ok a { t with pc := s.pc, stack := s.stack }
  | .error e t => .error e t

/-! ### Faults (R253), the engine reset (R280) and the watchdog reset (R258 to R261) -/

/-- `raise Fault(k)`: sets `FAULT` and stops the engine; nothing else changes (R253). -/
def raise {α : Type} (k : FaultKind) : Op α := fun s => .error .faulted { s with fault := some k }

/-- A loop that no bound ends (R284). -/
def hang {α : Type} : Op α := fun s => .error .hung s

/-- The reset sequence of R280, the same at power-on and at a watchdog reset. The three unspecified values are free values. -/
def resetEngine (s : State) : State :=
  { s with
    out := 0
    lineLog := s.lineLog ++ [⟨s.now, s.pc, 0⟩]
    eoi := false
    buf := []
    bufEpoch := s.draws
    len := 0
    req := .idle
    result := Config.freeByte (s.draws + 1)
    collected := false
    ie := true
    ieSaved := Config.freeBit (s.draws + 2)
    sr := none
    bitn := none
    idx := none
    cnt := none
    ok := none
    t0 := none
    hin := []
    hout := []
    pc := ⟨.main, 1⟩
    stack := []
    wdtLast := s.now
    draws := s.draws + 3 }

/-- One move of the host at its port (R36, R268). -/
def hostAct : HostAct → State → State
  | .send bytes, s => { s with hin := s.hin ++ bytes }
  | .take, s => { s with hout := s.hout.tail }

/-- The host's moves whose time has come, in order. -/
def deliverMoves : List HostMove → State → State
  | [], s => { s with host := [] }
  | m :: ms, s => if m.time ≤ s.now then deliverMoves ms (hostAct m.act s) else { s with host := m :: ms }

/-- The host port is brought up to date: what the host has done until now. -/
def deliver (s : State) : State := deliverMoves s.host s

/-- A watchdog reset (R258, R260): nothing is saved, the reset sequence runs, and what the host has sent until now is lost
(R36, R291). DESIGN CHOICE (notes/assumptions/20.md): of a frame only part of whose bytes has arrived, that part is lost, and the
bytes that arrive later are read as the start of a new frame; the spec does not say what becomes of the rest. -/
def watchdogReset (s : State) : State :=
  let t := resetEngine (deliver s)
  { t with resets := t.resets + 1 }

/-- `NOW - WDT_LAST > T_WDT` (R258). -/
def wdtExpired (s : State) : Bool := decide (s.wdtLast + s.cfg.tWdt < s.now)

/-! ### Working registers (R34): an unwritten one cannot be read -/

/-- The value of a working register; unwritten raises `UnwrittenRegister`. -/
def readReg {α : Type} (get : State → Option α) : Op α := fun s =>
  match get s with
  | some a => .ok a s
  | none => raise .unwrittenRegister s

def setSr (v : Byte) : Op Unit := fun s => .ok () { s with sr := some v }
def setBitn (n : Nat) : Op Unit := fun s => .ok () { s with bitn := some n }
def setIdx (n : Nat) : Op Unit := fun s => .ok () { s with idx := some n }
def setCnt (n : Nat) : Op Unit := fun s => .ok () { s with cnt := some n }
def setOk (b : Bool) : Op Unit := fun s => .ok () { s with ok := some b }
def setT0 (t : Nat) : Op Unit := fun s => .ok () { s with t0 := some t }

/-! ### The command buffer (R60, R64 to R67) -/

/-- The byte listed at an address. -/
def cellAt : List Host.Cell → Nat → Option Byte
  | [], _ => none
  | (a, b) :: rest, i => if a = i then some b else cellAt rest i

/-- The cells with one address written, in rising order. -/
def cellSet : List Host.Cell → Nat → Byte → List Host.Cell
  | [], i, v => [(i, v)]
  | (a, b) :: rest, i, v =>
    if i < a then (i, v) :: (a, b) :: rest
    else if i = a then (i, v) :: rest
    else (a, b) :: cellSet rest i v

/-- The canonical form: addresses strictly rising. An unlisted byte is a free value, so no entry can be known to equal it. -/
def Memory.wf (m : List Host.Cell) : Bool := decide (m.Pairwise fun x y => x.1 < y.1)

/-- `BUF[i]`: the byte written there since the last reset, else an unspecified one (R25, U9). -/
def peek (s : State) (i : Nat) : Byte := (cellAt s.buf i).getD (Config.freeBuf s.bufEpoch i)

/-- The buffer with the bytes `bs` from index `i` on. -/
def pokeBytes : List Host.Cell → Nat → List Byte → List Host.Cell
  | m, _, [] => m
  | m, i, b :: bs => pokeBytes (cellSet m i b) (i + 1) bs

/-- The bytes `BUF[i], …, BUF[i+n-1]`. -/
def peekBytes (s : State) (i n : Nat) : List Byte := (List.range n).map fun k => peek s (i + k)

/-- `MemRead(i, n)` (R12, R66). -/
def memRead (i n : Nat) : Op (List Byte) := fun s =>
  if i + n ≤ s.cfg.bufCap then .ok (peekBytes s i n) s else raise .bufferOverrun s

/-- `BUF[i]` as an operand. -/
def memReadByte (i : Nat) : Op Byte := fun s =>
  if i < s.cfg.bufCap then .ok (peek s i) s else raise .bufferOverrun s

/-- `MemWrite(i, n, bs)` with `n` the length of `bs` (R12, R66). -/
def memWrite (i : Nat) (bs : List Byte) : Op Unit := fun s =>
  if i + bs.length ≤ s.cfg.bufCap then .ok () { s with buf := pokeBytes s.buf i bs } else raise .bufferOverrun s

/-! ### Free values -/

/-- The next `n` unspecified bytes. -/
def freeBytes (n : Nat) : Op (List Byte) := fun s =>
  .ok ((List.range n).map fun k => Config.freeByte (s.draws + k)) { s with draws := s.draws + n }

/-- `RESULT <- any byte` (R193, R218). -/
def drawResult : Op Unit := fun s => .ok () { s with result := Config.freeByte s.draws, draws := s.draws + 1 }

/-! ### Line writes (R13, R63): each changes every line of its mask at one instant -/

/-- The one write of the output latch. -/
def putOut (v : Lines) : Op Unit := fun s =>
  .ok () { s with out := v, lineLog := s.lineLog ++ [⟨s.now, s.pc, v⟩] }

/-- `Assert(m)`. -/
def assertLines (m : Lines) : Op Unit := fun s => putOut (s.out ||| m) s

/-- `Release(m)`. -/
def releaseLines (m : Lines) : Op Unit := fun s => putOut (s.out &&& ~~~m) s

/-- `SetRelease(a, r)`. -/
def setReleaseLines (a r : Lines) : Op Unit := fun s => putOut ((s.out ||| a) &&& ~~~r) s

/-! ### Timing primitives (R110 to R115) -/

/-- How long the interrupt sources want the delay at hand to be lengthened (R256, U16). -/
def irqChoice (s : State) : Nat :=
  match s.irq with
  | j :: _ => j
  | [] => Config.freeDelay s.draws

/-- The state after they have chosen. -/
def irqTaken (s : State) : State :=
  match s.irq with
  | _ :: js => { s with irq := js }
  | [] => { s with draws := s.draws + 1 }

/-- One choice of the interrupt sources. -/
def takeIrq : Op Nat := fun s => .ok (irqChoice s) (irqTaken s)

/-- Time passes. A watchdog that expires on the way resets the engine at the first instant it has expired (R258). -/
def passTime (d : Nat) : Op Unit := fun s =>
  if s.wdtLast + s.cfg.tWdt < s.now + d then
    .error .watchdog (watchdogReset { s with now := max s.now (s.wdtLast + s.cfg.tWdt + 1) })
  else .ok () { s with now := s.now + d }

/-- The length `Delay(d)` has when the interrupt sources ask for `j` more (R110). -/
def delayLength (s : State) (d j : Nat) : Nat := if s.ie then d + j else d + min j s.cfg.tEps

/-- A delay of `d` that the interrupt sources want `j` longer. -/
def delayBy (d j : Nat) : Op Unit := fun s => passTime (delayLength s d j) s

/-- `Delay(d)` (R110). -/
def delay (d : Nat) : Op Unit := do
  delayBy d (← takeIrq)

/-- Appends an event to the trace (R37). -/
def log (e : Event) : Op Unit := fun s => .ok () { s with trace := s.trace ++ [e] }

/-- `KickWatchdog` as a change of the state (R115). -/
def kicked (s : State) : State := { s with wdtLast := s.now, trace := s.trace ++ [.kick] }

/-- `KickWatchdog` (R115). -/
def kickWatchdog : Op Unit := fun s => .ok () (kicked s)

/-- `StatusHook()` (R115, R267). -/
def statusHook : Op Unit := log .status

/-- The number of samples of a bounded wait: `max(1, ceil(T / T_POLL))` (R111). -/
def sampleCount (T tPoll : Nat) : Nat := max 1 ((T + tPoll - 1) / tPoll)

/-- A kick where the wait is one that kicks (R112). -/
def kickIf (kick : Bool) : Op Unit := if kick then kickWatchdog else pure ()

/-- Samples a condition `n` times, `T_POLL` apart (R111 lines 2 to 5); with `kick`, a kick before each sample (R112). -/
def pollLoop (kick : Bool) (c : State → Bool) : Nat → Op Bool
  | 0 => do
    line 5
    return false
  | n + 1 => do
    line 3
    kickIf kick
    if c (← get) then return true
    else
      line 4
      delay (← get).cfg.tPoll
      pollLoop kick c n

/-- `WaitUntil(c, T)` (R111). -/
def waitUntil (c : State → Bool) (T : Nat) : Op Bool :=
  call .waitUntil do pollLoop false c (sampleCount T (← get).cfg.tPoll)

/-- `WaitUntilKick(c, T)` (R112). -/
def waitUntilKick (c : State → Bool) (T : Nat) : Op Bool :=
  call .waitUntilKick do pollLoop true c (sampleCount T (← get).cfg.tPoll)

/-- The loop of `WaitForever` (R113). `fuel` bounds the polls the watchdog allows. -/
def foreverLoop (c : State → Bool) : (fuel : Nat) → Op Unit
  | 0 => hang
  | n + 1 => do
    line 2
    if c (← get) then return ()
    else
      line 3
      delay (← get).cfg.tPoll
      foreverLoop c n

/-- More polls than fit before the watchdog expires when each takes at least a microsecond. -/
def foreverFuel (s : State) : Nat := s.wdtLast + s.cfg.tWdt + 1 - s.now + 2

/-- `WaitForever(c)` (R113): it ends when `c` holds at a sample, or by a watchdog reset. -/
def waitForever (c : State → Bool) : Op Unit :=
  call .waitForever do foreverLoop c (foreverFuel (← get))

/-! ### The transport (R266) -/

/-- Whether the block transfer at hand succeeds (U14). -/
def xferChoice (s : State) : Bool :=
  match s.xfer with
  | b :: _ => b
  | [] => Config.freeOutcome s.draws

/-- The state after the transport has decided. -/
def xferTaken (s : State) : State :=
  match s.xfer with
  | _ :: bs => { s with xfer := bs }
  | [] => { s with draws := s.draws + 1 }

/-- One decision of the transport. -/
def takeXfer : Op Bool := fun s => .ok (xferChoice s) (xferTaken s)

/-- `ReadBlock(n)`: the data bytes of the current frame, or a failure. -/
def readBlock (block : List Byte) : Op (Option (List Byte)) := do
  if ← takeXfer then return some block else return none

/-- `WriteBlock(bs)`: whether the response block is delivered. -/
def writeBlock (_ : List Byte) : Op Bool := takeXfer

/-- Appends a response frame to `HOUT` (R36, R90). -/
def respond (f : List Byte) : Op Unit := fun s => .ok () { s with hout := s.hout ++ [f] }

end Sys2Proof.Machine
end

