-- ==== Sys2Proof/Machine/Flags.lean ====
section
/-! DEFINITION. The flags and the request registers: `EOI`, `COLLECTED`, `IE`, `REQ`, `LEN`, `RESULT`, and the setter precondition. -/

namespace Sys2Proof.Machine

/-- `EOI <- b` (R24). -/
def setEoi (b : Bool) : Op Unit := fun s => .ok () { s with eoi := b }

/-- `COLLECTED <- b` (R30). -/
def setCollected (b : Bool) : Op Unit := fun s => .ok () { s with collected := b }

/-- `REQ <- r` (R28). -/
def setReq (r : ReqState) : Op Unit := fun s => .ok () { s with req := r }

/-- `LEN <- n` (R26). -/
def setLen (n : Byte) : Op Unit := fun s => .ok () { s with len := n }

/-- `RESULT <- c` (R29), the low 8 bits of a count. -/
def setResult (c : Nat) : Op Unit := fun s => .ok () { s with result := BitVec.ofNat 8 c }

/-- `EnterAtomic` (R114). -/
def enterAtomic : Op Unit := fun s => .ok () { s with ieSaved := s.ie, ie := false }

/-- `ExitAtomic` (R114). -/
def exitAtomic : Op Unit := fun s => .ok () { s with ie := s.ieSaved }

/-- The state a setter needs: `IDLE`, or `RESULT` already collected (R196). -/
def setterReady (s : State) : Bool :=
  match s.req with
  | .idle => true
  | .result => s.collected
  | .async => false
  | .write => false
  | .read => false
  | .readDone => false

/-- A host precondition: where it fails the command raises `HostPrecondition` (R252). -/
def requireHost (p : State → Bool) : Op Unit := fun s =>
  if p s then .ok () s else raise .hostPrecondition s

/-- An operand check: where it fails the command raises `InvalidOperand` (R91). -/
def requireOperand (p : Bool) : Op Unit := fun s =>
  if p then .ok () s else raise .invalidOperand s

/-- The states in which dispatch has nothing to do (R194, R40). -/
def reqSettled : ReqState → Bool
  | .idle => true
  | .async => false
  | .write => false
  | .read => false
  | .readDone => true
  | .result => true

end Sys2Proof.Machine
end

