-- ==== Sys2Proof/Machine/BitLevel.lean ====
section
/-! DEFINITION. The serializer and the deserializer (40_bit_level.md). -/

namespace Sys2Proof.Machine

/-- DATA is asserted for a bit value 0 and left released for a 1 (R86, R116 line 5). -/
def driveBit (bit : Bool) : Op Unit := if bit then pure () else assertLines (lineMask .data)

/-- One bit of `send_byte`: lines 4 to 9 of R116. -/
def sendBit : Op Unit := do
  line 4
  delay (← get).cfg.tBitSetup
  line 5
  driveBit ((← readReg State.sr).getLsbD 0)
  line 6
  releaseLines (lineMask .clock)
  line 7
  delay (← get).cfg.tBitHold
  line 8
  setReleaseLines (lineMask .clock) (lineMask .data)
  line 9
  setSr ((← readReg State.sr) >>> 1)

/-- The bits from bit `b` on, `n` of them: the loop of R116 line 3. -/
def sendBits : (n b : Nat) → Op Unit
  | 0, b => setBitn b
  | n + 1, b => do
    line 3
    setBitn b
    sendBit
    sendBits n (b + 1)

/-- `send_byte(v)` (R116): the acknowledgement. -/
def sendByte (v : Byte) : Op Bool := call .sendByte do
  setSr v
  line 2
  enterAtomic
  sendBits 8 0
  line 10
  exitAtomic
  line 11
  setOk (← waitUntil (asserted .data) (← get).cfg.tAck)
  line 12
  readReg State.ok

/-- The shift register with one received bit at its top: released DATA is a 1 (R86, R119 line 8). -/
def shiftIn (sr : Byte) (bit : Bool) : Byte := (sr >>> 1) ||| (if bit then 0x80 else 0x00)

/-- The bits from bit `b` on, `n` of them: the loop of R119 lines 5 to 10. It ends early where a wait fails. -/
def receiveBits : (n b : Nat) → Op Unit
  | 0, b => setBitn b
  | n + 1, b => do
    line 5
    setBitn b
    line 6
    setOk (← waitUntil (released .clock) (← get).cfg.tRxBit)
    line 7
    if ← readReg State.ok then
      line 8
      setSr (shiftIn (← readReg State.sr) (released .data (← get)))
      line 9
      setOk (← waitUntil (asserted .clock) (← get).cfg.tRxBit)
      line 10
      if ← readReg State.ok then receiveBits n (b + 1) else return ()
    else return ()

/-- `receive_byte()` (R119): the byte, or `none` where `ok` is false: the byte of a failed receive is not specified, and no
caller has it (notes/assumptions/12.md). -/
def receiveByte : Op (Option Byte) := call .receiveByte do
  setOk (← waitUntil (asserted .clock) (← get).cfg.tRxStart)
  line 2
  if ← readReg State.ok then
    line 3
    setSr 0
    line 4
    enterAtomic
    receiveBits 8 0
    line 11
    exitAtomic
    line 12
    if ← readReg State.ok then return some (← readReg State.sr) else return none
  else return none

/-- `send_byte` (R116); its result stands in `OK`. -/
def execSendByte (v : Byte) (s : State) : Host.Outcome State Fault Refusal := answer (sendByte v) s

/-- `receive_byte` (R119); its results stand in `SR` and `OK`. -/
def execReceiveByte (s : State) : Host.Outcome State Fault Refusal := answer receiveByte s

end Sys2Proof.Machine
end

