-- ==== Sys2Proof/Machine/Transactions.lean ====
section
/-! DEFINITION. The byte-stream transactions: write, read, reset with the free-bus probe (41_transactions.md). -/

namespace Sys2Proof.Machine

/-- The end of a transaction with count `c`: `CNT` holds the returned count (R34, notes/assumptions/12.md). -/
def returnCount (c : Nat) : Op Nat := do
  setCnt c
  return c

/-- The failure cleanup of a write (R151), then a return of 0 (R152). -/
def writeFails : Op Nat := do
  releaseLines (lineMask .clock ||| lineMask .atn)
  returnCount 0

/-- A write that finds no listener (R140 lines 5 and 8). -/
def deviceAbsent : Op Nat := do
  releaseLines (lineMask .clock ||| lineMask .atn)
  log .deviceAbsent
  returnCount 0

/-- The talk hand-off, or the release of ATN: lines 17 to 21 of R140 (R149, R150). -/
def handOff (talk : Bool) : Op Unit :=
  if talk then do
    line 18
    setReleaseLines (lineMask .data) (lineMask .clock ||| lineMask .atn)
    line 19
    waitForever (asserted .clock)
  else do
    line 21
    releaseLines (lineMask .atn)

/-- The end of a write whose bytes have all been acknowledged: lines 17 to 22 of R140. -/
def finishWrite (n : Nat) (talk : Bool) : Op Nat := do
  line 17
  handOff talk
  line 22
  returnCount n

/-- The EOI handshake before the last byte of a write that is not under ATN (R146, R147): lines 11 to 13 of R140. -/
def eoiHandshake (n : Nat) (atn : Bool) : Op Unit := do
  line 11
  if (← readReg State.idx) + 1 = n ∧ atn = false then
    line 12
    waitForever (asserted .data)
    line 13
    waitForever (released .data)
  else pure ()

/-- The bytes from index `i` on, `k` of them, then the end of the write: lines 6 to 22 of R140. -/
def writeBytes (base n : Nat) (atn talk : Bool) : (k i : Nat) → Op Nat
  | 0, i => do
    setIdx i
    finishWrite n talk
  | k + 1, i => do
    line 6
    setIdx i
    line 7
    delay (← get).cfg.tByteSettle
    line 8
    if released .data (← get) then deviceAbsent
    else
      line 9
      releaseLines (lineMask .clock)
      line 10
      waitForever (released .data)
      eoiHandshake n atn
      line 14
      assertLines (lineMask .clock)
      line 15
      if ← sendByte (← memReadByte (base + (← readReg State.idx))) then
        line 16
        statusHook
        writeBytes base n atn talk k (i + 1)
      else writeFails

/-- `write(base, n, atn, talk)` (R140). -/
def writeOp (base n : Nat) (atn talk : Bool) : Op Nat := call .write do
  setEoi false
  line 2
  releaseLines (lineMask .data)
  line 3
  assertLines (lineMask .clock ||| (if atn then lineMask .atn else 0))
  line 4
  setOk (← waitUntil (asserted .data) (← get).cfg.tListenClaim)
  line 5
  if ← readReg State.ok then writeBytes base n atn talk n 0 else deviceAbsent

/-- `return CNT` (R155). -/
def returnCnt : Op Nat := readReg State.cnt

/-- The EOI detector's acknowledgement: lines 9 and 10 of R155. -/
def acknowledgeEoi : Op Unit := do
  line 9
  setEoi true
  line 10
  assertLines (lineMask .data)
  delay (← get).cfg.tEoiPulse
  releaseLines (lineMask .data)

/-- EOI is detected where the talker has not taken CLOCK within the window: line 8 of R155 (R158). -/
def detectEoi (clockTaken : Bool) : Op Unit := if clockTaken then pure () else acknowledgeEoi

/-- A received byte is stored and acknowledged: lines 13 to 15 of R155. DESIGN CHOICE (notes/assumptions/21.md): `IDX` is
written with the byte's index, which is `CNT` before line 13 counts the byte; R34 calls `IDX` the byte index of `read` too, though
R155 does not write it. -/
def storeByte (b : Byte) : Op Unit := do
  line 13
  setIdx (← readReg State.cnt)
  memWrite (← readReg State.idx) [b]
  setCnt ((← readReg State.cnt) + 1)
  line 14
  assertLines (lineMask .data)
  line 15
  statusHook

/-- The loop of R155. Each round but the last stores a byte, so `BUF_CAP + 1` rounds are more than the buffer holds. -/
def readLoop (maxLen : Nat) : (fuel : Nat) → Op Nat
  | 0 => hang
  | f + 1 => do
    line 3
    setOk (← waitUntilKick (released .clock) (← get).cfg.tReadClk)
    line 4
    if (← get).eoi then returnCnt
    else
      line 5
      if ← readReg State.ok then
        line 6
        releaseLines (lineMask .data)
        line 7
        setOk (← waitUntil (asserted .clock) (← get).cfg.tEoiWindow)
        line 8
        detectEoi (← readReg State.ok)
        line 11
        match ← receiveByte with
        | none => line 12; returnCnt
        | some b =>
          storeByte b
          line 16
          if (← readReg State.cnt) = maxLen ∨ (← get).eoi = true then returnCnt else readLoop maxLen f
      else returnCnt

/-- `read(maxLen)` (R155). -/
def readOp (maxLen : Nat) : Op Nat := call .read do
  setCnt 0
  readLoop maxLen ((← get).cfg.bufCap + 1)

/-- `ProbeFree()` (R164, R167). -/
def probeFree : Op Bool := call .probeFree do
  releaseLines (lineMask .data ||| lineMask .clock ||| lineMask .atn ||| lineMask .reset)
  line 2
  delay (← get).cfg.tProbeSettle
  line 3
  if asserted .data (← get) then return false
  else
    line 4
    assertLines (lineMask .atn)
    line 5
    delay (← get).cfg.tProbeAtn
    line 6
    if released .data (← get) then
      releaseLines (lineMask .atn)
      return false
    else
      line 7
      releaseLines (lineMask .atn)
      line 8
      delay (← get).cfg.tProbeRelease
      line 9
      return released .data (← get)

/-- The loop of `WaitFreeBus` (R164, R166). Each attempt but the last takes at least `T_FB_RETRY`. -/
def freeBusLoop : (fuel : Nat) → Op Unit
  | 0 => hang
  | f + 1 => do
    line 3
    kickWatchdog
    line 4
    if ← probeFree then return ()
    else
      line 5
      if (← get).now - (← readReg State.t0) ≥ (← get).cfg.tFreebus then log .freeBusTimeout
      else
        line 6
        delay (← get).cfg.tFbRetry
        freeBusLoop f

/-- `WaitFreeBus()` (R164). -/
def waitFreeBus : Op Unit := call .waitFreeBus do
  setT0 (← get).now
  freeBusLoop ((← get).cfg.tFreebus + 2)

/-- The RESET pulse: lines 1 to 4 of `reset()` (R164, R165). -/
def resetPulse : Op Unit := do
  releaseLines (lineMask .data ||| lineMask .clock ||| lineMask .atn)
  line 2
  assertLines (lineMask .reset)
  line 3
  delay (← get).cfg.tResetHold
  line 4
  releaseLines (lineMask .reset)

/-- `reset()` (R164): the bus-reset state machine. -/
def busResetOp : Op Unit := call .reset do
  resetPulse
  line 5
  waitFreeBus
  line 6

/-- `write` (R140); its result stands in `CNT`. -/
def execWrite (base : Nat) (n : Byte) (atn talk : Bool) (s : State) : Host.Outcome State Fault Refusal :=
  answer (writeOp base n.toNat atn talk) s

/-- `read` (R155); its result stands in `CNT`. -/
def execRead (maxLen : Byte) (s : State) : Host.Outcome State Fault Refusal := answer (readOp maxLen.toNat) s

/-- `reset` (R164). -/
def execReset (s : State) : Host.Outcome State Fault Refusal := answer busResetOp s

end Sys2Proof.Machine
end

