-- ==== Sys2Proof/Machine/HostCommands.lean ====
section
/-! DEFINITION. The host commands (43_host_commands.md). -/

namespace Sys2Proof.Machine

/-- `REQUEST_READ n` (R210). -/
def requestReadOp (n : Byte) : Op Unit := call .requestRead do
  requireHost setterReady
  line 2
  requireHost fun s => decide (n ≠ 0 ∧ n.toNat ≤ s.cfg.bufCap)
  line 3
  setLen n
  line 4
  setReq .read

/-- `COLLECT_READ n` (R211, R212). -/
def collectReadOp (n : Byte) : Op Unit := call .collectRead do
  requireHost fun s => decide (s.req = .readDone)
  line 2
  let c := min n.toNat (← get).len.toNat
  line 3
  let block ← memRead 0 c
  let tok ← writeBlock block
  line 4
  setReq .idle
  if tok then
    line 5
    respond (BitVec.ofNat 8 c :: block)
  else
    line 6
    respond [0x00]

/-- `SUBMIT_WRITE n` (R213, R214). -/
def submitWriteOp (n : Byte) (block : List Byte) : Op Unit := call .submitWrite do
  requireHost setterReady
  line 2
  requireHost fun s => decide (n.toNat ≤ s.cfg.bufCap)
  line 3
  match ← readBlock block with
  | none =>
    line 4
    memWrite 0 (← freeBytes n.toNat)
    respond [0x00]
  | some bs =>
    line 5
    memWrite 0 bs
    line 6
    setLen n
    line 7
    setReq .write
    line 8
    respond [n]

/-- `SUBMIT_ASYNC a, t, n, d` (R215, R216). -/
def submitAsyncOp (a t n : Byte) (payload : List Byte) : Op Unit := call .submitAsync do
  requireHost setterReady
  line 2
  requireHost fun s => decide (n.toNat + 2 ≤ s.cfg.bufCap)
  line 3
  memWrite 0 [a]
  line 4
  memWrite 1 [t]
  line 5
  memWrite 2 payload
  line 6
  setLen n
  line 7
  setReq .async

/-- `QUERY_RESULT` (R217, R218, R199). -/
def queryResultOp : Op Unit := call .queryResult do
  let s ← get
  respond [reqCode s.req, s.result]
  line 2
  if s.req = .result then
    line 3
    setCollected true
    line 4
    if s.cfg.queryClears then setReq .idle else pure ()
  else pure ()

/-- `LOGICAL_WAIT line, state` (R219). -/
def logicalWaitOp (sel state : Byte) : Op Unit := call .logicalWait do
  match selectedLine sel with
  | none => raise .invalidOperand
  | some l =>
    if byteIsTrue state then
      line 2
      waitForever (asserted l)
    else
      line 3
      waitForever (released l)

/-- `LOGICAL_POLL` (R221). -/
def logicalPollOp : Op Unit := call .logicalPoll do
  respond [pollByte (← get)]

/-- `SET_RELEASE s, r` (R222, R223). -/
def setReleaseOp (a r : Byte) : Op Unit := call .setRelease do
  requireOperand (setReleaseLegal a r)
  line 2
  setReleaseLines (maskLines a) (maskLines r)

/-- `BUS_RESET` (R224). -/
def busResetCommandOp : Op Unit := call .busReset busResetOp

def execRequestRead (n : Byte) (s : State) : Host.Outcome State Fault Refusal := answer (requestReadOp n) s
def execCollectRead (n : Byte) (s : State) : Host.Outcome State Fault Refusal := answer (collectReadOp n) s
def execSubmitWrite (n : Byte) (block : List Byte) (s : State) : Host.Outcome State Fault Refusal :=
  answer (submitWriteOp n block) s
def execSubmitAsync (a t n : Byte) (payload : List Byte) (s : State) : Host.Outcome State Fault Refusal :=
  answer (submitAsyncOp a t n payload) s
def execQueryResult (s : State) : Host.Outcome State Fault Refusal := answer queryResultOp s
def execLogicalWait (sel state : Byte) (s : State) : Host.Outcome State Fault Refusal := answer (logicalWaitOp sel state) s
def execLogicalPoll (s : State) : Host.Outcome State Fault Refusal := answer logicalPollOp s
def execSetRelease (a r : Byte) (s : State) : Host.Outcome State Fault Refusal := answer (setReleaseOp a r) s
def execBusReset (s : State) : Host.Outcome State Fault Refusal := answer busResetCommandOp s

end Sys2Proof.Machine
end

