-- ==== Sys2Proof/Machine/Requests.lean ====
section
/-! DEFINITION. The dispatch routine (42_dispatch.md), one operation per row of the opcode table. -/

namespace Sys2Proof.Machine

/-- What a finished write leaves for the host: lines 2 to 4 of R191 and R192. -/
def storeResult (c : Nat) : Op Unit := do
  line 2
  setResult c
  line 3
  setCollected false
  line 4
  setReq .result

/-- Dispatch in the request state `r`; the rule of another state's row does nothing (R190, R194). -/
def whenReq (r : ReqState) (m : Op Unit) : Op Unit := fun s => if s.req = r then m s else .ok () s

/-- Dispatch of `WRITE` (R191). -/
def dispatchWriteOp : Op Unit := whenReq .write do
  call .dispatchWrite do
    storeResult (← writeOp 0 (← get).len.toNat false false)

/-- Dispatch of `ASYNC` (R192). -/
def dispatchAsyncOp : Op Unit := whenReq .async do
  call .dispatchAsync do
    let a ← memReadByte 0
    let t ← memReadByte 1
    storeResult (← writeOp 2 (← get).len.toNat (byteIsTrue a) (byteIsTrue t))

/-- Dispatch of `READ` (R193). -/
def dispatchReadOp : Op Unit := whenReq .read do
  call .dispatchRead do
    let c ← readOp (← get).len.toNat
    line 2
    setLen (BitVec.ofNat 8 c)
    line 3
    drawResult
    line 4
    setReq .readDone

/-- Dispatch in `IDLE`, `RESULT`, `READ_DONE`: no action (R194). -/
def dispatchNoneOp : Op Unit := pure ()

/-- The row of the opcode table that dispatch runs in a request state. -/
def dispatchInstr : ReqState → Instr
  | .idle => .dispatchNone
  | .async => .dispatchAsync
  | .write => .dispatchWrite
  | .read => .dispatchRead
  | .readDone => .dispatchNone
  | .result => .dispatchNone

def execDispatchWrite (s : State) : Host.Outcome State Fault Refusal := answer dispatchWriteOp s
def execDispatchAsync (s : State) : Host.Outcome State Fault Refusal := answer dispatchAsyncOp s
def execDispatchRead (s : State) : Host.Outcome State Fault Refusal := answer dispatchReadOp s
def execDispatchNone (s : State) : Host.Outcome State Fault Refusal := answer dispatchNoneOp s

end Sys2Proof.Machine
end

