-- ==== Sys2Proof/Machine/Dispatch.lean ====
section
/-! DEFINITION. One arm per instruction: a direct call of its meaning. -/

namespace Sys2Proof.Machine

/-- The meaning of an instruction. -/
def exec (i : Instr) (s : State) : Host.Outcome State Fault Refusal :=
  match i with
  | .requestRead n => Sys2Proof.Machine.execRequestRead n s
  | .collectRead n => Sys2Proof.Machine.execCollectRead n s
  | .submitWrite n block => Sys2Proof.Machine.execSubmitWrite n block s
  | .submitAsync a t n payload => Sys2Proof.Machine.execSubmitAsync a t n payload s
  | .queryResult => Sys2Proof.Machine.execQueryResult s
  | .logicalWait sel state => Sys2Proof.Machine.execLogicalWait sel state s
  | .logicalPoll => Sys2Proof.Machine.execLogicalPoll s
  | .setRelease a r => Sys2Proof.Machine.execSetRelease a r s
  | .busReset => Sys2Proof.Machine.execBusReset s
  | .sendByte v => Sys2Proof.Machine.execSendByte v s
  | .receiveByte => Sys2Proof.Machine.execReceiveByte s
  | .write base n atn talk => Sys2Proof.Machine.execWrite base n atn talk s
  | .read maxLen => Sys2Proof.Machine.execRead maxLen s
  | .reset => Sys2Proof.Machine.execReset s
  | .dispatchWrite => Sys2Proof.Machine.execDispatchWrite s
  | .dispatchAsync => Sys2Proof.Machine.execDispatchAsync s
  | .dispatchRead => Sys2Proof.Machine.execDispatchRead s
  | .dispatchNone => Sys2Proof.Machine.execDispatchNone s

end Sys2Proof.Machine
end

