-- ==== Sys2Proof/Machine/MainLoop.lean ====
section
/-! DEFINITION. The main loop of R197. A pass is two steps: lines 1 to 4 take a frame and execute its command (or wait one poll
interval), line 5 dispatches. -/

namespace Sys2Proof.Machine

/-- The control location of a line of the main loop. -/
def mainAt (k : Nat) : Loc := ⟨.main, k⟩

/-- The main loop goes on at line `k` where the operation it called at line `j` has returned. An engine that has faulted, has
been reset, or is still inside the operation is left as it is. -/
def resume (j k : Nat) (t : State) : State :=
  if t.fault = none ∧ t.pc = mainAt j then { t with pc := mainAt k } else t

/-- `resume` on an outcome. -/
def resumeOutcome (j k : Nat) : Host.Outcome State Fault Refusal → Host.Outcome State Fault Refusal
  | .next t => .next (resume j k t)
  | .fault f => .fault f
  | .refused r => .refused r

/-- An idle pass: `Delay(T_POLL)`, then line 1 again (R197 line 2). -/
def idlePass (s : State) : State := resume 2 1 (finalState (delay s.cfg.tPoll) { s with pc := mainAt 2 })

/-- Lines 2 to 4 of R197 on the frames that have arrived. A reserved opcode raises `InvalidCommand` and its bytes stay in `HIN`
(R92, notes/assumptions/14.md). -/
def takeFrame (s : State) : Host.Outcome State Fault Refusal :=
  match decode s.hin with
  | .incomplete => .next (idlePass s)
  | .reserved _ => .next { s with fault := some .invalidCommand, pc := mainAt 3 }
  | .frame i rest => resumeOutcome 4 5 (exec i { s with hin := rest, pc := mainAt 4 })

/-- Lines 1 to 4 of R197. -/
def commandPass (s : State) : Host.Outcome State Fault Refusal := takeFrame (kicked (deliver s))

/-- Lines 5 and 6 of R197. -/
def dispatchPass (s : State) : Host.Outcome State Fault Refusal := resumeOutcome 5 1 (exec (dispatchInstr s.req) s)

/-- The engine's next run from a line of the main loop. Line 4 is never a resting place: a command is inside it. -/
def mainLine (k : Nat) (s : State) : Host.Outcome State Fault Refusal :=
  match k with
  | 1 => commandPass s
  | 2 => takeFrame (deliver s)
  | 3 => takeFrame (deliver s)
  | 5 => dispatchPass s
  | 6 => .next { s with pc := mainAt 1 }
  | _ => .fault .hang

/-- The engine's next run: from the main loop, or none where its control location is inside an operation (R284). -/
def engineStep (s : State) : Host.Outcome State Fault Refusal :=
  if s.pc.op = .main then mainLine s.pc.line s else .fault .hang

/-- A faulted engine takes no step (R253); then the watchdog (R255, R258); then the engine. -/
def stepOnce (s : State) : Host.Outcome State Fault Refusal :=
  match s.fault with
  | some k => .fault (.stopped k)
  | none => if wdtExpired s then .next (watchdogReset s) else engineStep s

/-- The state with a frame at the head of `HIN` and the engine about to take it (notes/assumptions/15.md). -/
def withFrame (s : State) (bytes : List Byte) : State :=
  { s with hin := bytes ++ s.hin, pc := mainAt 1, stack := [], fault := none, wdtLast := s.now }

end Sys2Proof.Machine
end

