-- ==== Sys2Proof/Machine/Step.lean ====
section
/-! DEFINITION. One step of the machine, and the state whose next step runs a given frame. -/

namespace Sys2Proof.Machine

/-- One step: a watchdog reset, a command with its fetch, a dispatch, or an idle pass; a faulted engine answers its fault. -/
def step (s : State) : Host.Outcome State Fault Refusal := stepOnce s

/-- The state `s` with the frame whose bits are `w` at the head of `HIN`, about to be taken. -/
def State.withFetchWord (s : State) (nbits w : Nat) : State := withFrame s (frameOfTableWord nbits w)

end Sys2Proof.Machine
end

