-- ==== Sys2Proof/Safety.lean ====
section
/-! DEFINITION. What claims are stated with: legal parameters, an operation that returned, the end of a run, the invariant. -/

namespace Sys2Proof.Machine

/-- The constraints on the parameters: R7 on `BUF_CAP`, R8 and D44 on `PHYS_MAP`; a poll interval and a retry delay of 0 would
let loops run without time passing (notes/assumptions/13.md). -/
def legalParams (c : Params) : Prop :=
  3 ≤ c.bufCap ∧ c.bufCap ≤ 255 ∧ 1 ≤ c.tPoll ∧ 1 ≤ c.tFbRetry ∧
  c.physMap.bits.Nodup

/-- The engine has no watchdog reset, no fault and no endless loop between `s` and `t`, and is back at the location it had in
`s`: the operation it ran from `s` has returned. -/
def returned (s t : State) : Prop :=
  t.resets = s.resets ∧ t.fault = s.fault ∧ t.pc = s.pc ∧ t.stack = s.stack

/-- The interrupt sources lengthen none of the next `k` delays (R256). -/
def quietFor (k : Nat) (s : State) : Prop := ∃ later, s.irq = List.replicate k 0 ++ later

/-- The last instant at which the watchdog has not expired (R258). -/
def deadline (s : State) : Nat := s.wdtLast + s.cfg.tWdt

/-- The devices pull line `l` at time `u` (R22). -/
def pulled (s : State) (l : Line) (u : Nat) : Prop := levelAt s.bus u &&& lineMask l ≠ 0

/-- No device pulls line `l` at time `u`. -/
def floats (s : State) (l : Line) (u : Nat) : Prop := levelAt s.bus u &&& lineMask l = 0

/-- How long the eight bits of `send_byte` take without interrupts (R117). -/
def bitsTime (c : Params) : Nat := 8 * (c.tBitSetup + c.tBitHold)

/-- How long the eight bits of a talker that changes CLOCK at every sample take (R119, R120). -/
def talkTime (c : Params) : Nat := 16 * c.tPoll

/-- A talker that from time `u` on, where it holds CLOCK, sends the byte `v` as R86 says, changing CLOCK at every sample of the
engine: released for bit `i` one poll after it was asserted, asserted again one poll later. -/
def talksByte (s : State) (u : Nat) (v : Byte) : Prop :=
  pulled s .clock u ∧ ∀ i, i < 8 →
    floats s .clock (u + (2 * i + 1) * s.cfg.tPoll) ∧
    (if v.getLsbD i then floats s .data (u + (2 * i + 1) * s.cfg.tPoll) else pulled s .data (u + (2 * i + 1) * s.cfg.tPoll)) ∧
    pulled s .clock (u + (2 * i + 2) * s.cfg.tPoll)

/-- How long the engine watches CLOCK before it takes its release for EOI (R155 line 7). -/
def eoiWait (c : Params) : Nat := sampleCount c.tEoiWindow c.tPoll * c.tPoll

/-- A talker that is ready at time `u` and sends the bytes `bs`: for each it releases CLOCK, takes CLOCK one poll later, sends
the bits, and holds CLOCK for one more poll. With `eoi` its last byte carries EOI: it leaves CLOCK released at every sample of
the window and takes it when the engine's pulse on DATA ends (R87, R158). -/
def talks (s : State) (eoi : Bool) : (u : Nat) → List Byte → Prop
  | _, [] => True
  | u, v :: bs =>
    let last := eoi && bs.isEmpty
    let start := if last then u + eoiWait s.cfg + s.cfg.tEoiPulse else u + s.cfg.tPoll
    floats s .clock u ∧
    (last = true → ∀ i, i < sampleCount s.cfg.tEoiWindow s.cfg.tPoll → floats s .clock (u + i * s.cfg.tPoll)) ∧
    talksByte s start v ∧ talks s eoi (start + talkTime s.cfg + s.cfg.tPoll) bs

/-- When a byte of a write ends, sent from time `u` on to a listener that answers each wait at the engine's second sample, and
acknowledges at the first: settle, flow control, the EOI handshake where the byte carries EOI, and the bits (R140). -/
def byteEnd (c : Params) (u : Nat) (eoi : Bool) : Nat :=
  u + c.tByteSettle + c.tPoll + (if eoi then 2 * c.tPoll else 0) + bitsTime c

/-- Such a listener, from time `u` on, for `k` bytes; `eoi`: the last of them carries EOI. -/
def listens (s : State) (eoi : Bool) : (u k : Nat) → Prop
  | u, 0 => pulled s .data u
  | u, k + 1 =>
    let v := u + s.cfg.tByteSettle
    let last := eoi && k == 0
    pulled s .data u ∧ pulled s .data v ∧ floats s .data (v + s.cfg.tPoll) ∧
    (last = true → pulled s .data (v + 2 * s.cfg.tPoll) ∧ floats s .data (v + 3 * s.cfg.tPoll)) ∧
    listens s eoi (byteEnd s.cfg u last) k

/-- When the last of `k` bytes to such a listener ends. -/
def listenEnd (c : Params) (eoi : Bool) : (u k : Nat) → Nat
  | u, 0 => u
  | u, k + 1 => listenEnd c eoi (byteEnd c u (eoi && k == 0)) k

/-- Every byte of the buffer reads as before. -/
def sameBuffer (s t : State) : Prop := ∀ a, peek t a = peek s a

/-- The request registers are unchanged: `LEN`, `REQ`, `RESULT`, `COLLECTED`. -/
def sameRequest (s t : State) : Prop :=
  t.len = s.len ∧ t.req = s.req ∧ t.result = s.result ∧ t.collected = s.collected

/-- The host port is unchanged: `HIN`, `HOUT`, and the transport's and the host's inputs. -/
def samePort (s t : State) : Prop := t.hin = s.hin ∧ t.hout = s.hout ∧ t.xfer = s.xfer ∧ t.host = s.host

/-- The parameters and the environment's input are unchanged. -/
def sameWorld (s t : State) : Prop := t.cfg = s.cfg ∧ t.bus = s.bus

/-- A line of `OUT` is unchanged. -/
def sameLine (s t : State) (l : Line) : Prop := t.out &&& lineMask l = s.out &&& lineMask l

/-- The fault state a command leaves whose check at line `k` of operation `o` fails: nothing but `FAULT` and the control location
differs from before the command (R253). -/
def faultedAt (s : State) (o : OpName) (k : Nat) (f : FaultKind) : State :=
  { s with fault := some f, pc := ⟨o, k⟩, stack := s.pc :: s.stack }

/-- The line writes between `s` and `t` at line `k` of operation `o`. -/
def writesAt (s t : State) (o : OpName) (k : Nat) : List LineWrite :=
  (t.lineLog.drop s.lineLog.length).filter fun w => w.loc == ⟨o, k⟩

/-- DATA as the engine drives it in each window in which it has CLOCK released for a bit of `send_byte` (R116 line 6), in order. -/
def wireBits (s t : State) : List Bool := (writesAt s t .sendByte 6).map fun w => w.out.getLsbD 0

/-- The drive of DATA that puts a byte on the bus: bit 0 first, DATA asserted for a 0 (R86). -/
def byteOnWire (v : Byte) : List Bool := (List.range 8).map fun b => !v.getLsbD b

/-- What a whole write of the `n` bytes from index `base` on, whose last byte ends at time `u`, shows on the bus: the claim with
CLOCK, and ATN where it is asked for; the bytes in order; ATN held in every window where it is asked for or was held before; and
the talk hand-off as one line write where it is asked for (R140 lines 3, 15, 18). -/
def sends (s t : State) (base n : Nat) (atn talk : Bool) (u : Nat) : Prop :=
  (writesAt s t .write 3).map (fun w => w.out) =
    [(s.out &&& ~~~lineMask .data) ||| lineMask .clock ||| (if atn then lineMask .atn else 0)] ∧
  wireBits s t = (List.range n).flatMap (fun i => byteOnWire (peek s (base + i))) ∧
  (∀ w ∈ writesAt s t .sendByte 6, w.out.getLsbD 2 = (atn || s.out.getLsbD 2)) ∧
  (writesAt s t .write 18).map (fun w => (w.time, w.out)) =
    (if talk then [(u, (s.out &&& lineMask .reset) ||| lineMask .data)] else [])

/-- The values the reset sequence gives (R280 lines 1 to 12, but for the unspecified `BUF`, `RESULT` and `IE_SAVED`). -/
def resetValues (t : State) : Prop :=
  t.out = 0 ∧ t.eoi = false ∧ t.len = 0 ∧ t.req = .idle ∧ t.collected = false ∧ t.ie = true ∧ t.sr = none ∧ t.bitn = none ∧
  t.idx = none ∧ t.cnt = none ∧ t.ok = none ∧ t.t0 = none ∧ t.hin = [] ∧ t.hout = [] ∧ t.pc = mainAt 1 ∧ t.stack = [] ∧
  t.wdtLast = t.now

/-- What happened between `s` and `t` is one watchdog reset: the reset values, and what the sequence does not change (R258, R260,
R280). The operation may have appended to the trace before it was abandoned. -/
def resetBetween (s t : State) : Prop :=
  resetValues t ∧ t.resets = s.resets + 1 ∧ t.fault = s.fault ∧ sameWorld s t ∧ s.now ≤ t.now ∧ ∃ more, t.trace = s.trace ++ more

/-- The end of a run (R284): no fault, at line 1 or 2 of the main loop, no complete frame left and none to come. -/
def runOver (s : State) : Prop :=
  s.fault = none ∧ (s.pc = mainAt 1 ∨ s.pc = mainAt 2) ∧ (decode s.hin = .incomplete) ∧
  (∀ m ∈ s.host, m.act = .take)

/-- The buffer holds what it may: canonical form, indices below `BUF_CAP` (R25). -/
def bufferSound (s : State) : Prop := Memory.wf s.buf = true ∧ ∀ c ∈ s.buf, c.1 < s.cfg.bufCap

/-- What a request state promises of `LEN` (R26, R210, R213, R215). -/
def lengthFits (s : State) : Prop :=
  match s.req with
  | .async => s.len.toNat + 2 ≤ s.cfg.bufCap
  | .read => 1 ≤ s.len.toNat ∧ s.len.toNat ≤ s.cfg.bufCap
  | .idle => s.len.toNat ≤ s.cfg.bufCap
  | .write => s.len.toNat ≤ s.cfg.bufCap
  | .readDone => s.len.toNat ≤ s.cfg.bufCap
  | .result => s.len.toNat ≤ s.cfg.bufCap

/-- Where the engine rests between steps: line 1 of the main loop with no request armed (R40), or line 5 before the dispatch. -/
def atRest (s : State) : Prop :=
  s.stack = [] ∧ s.ie = true ∧ ((s.pc = mainAt 1 ∧ reqSettled s.req = true) ∨ s.pc = mainAt 5)

/-- A fault that a host can cause; the other two kinds are defensive (R253). -/
def hostFault : FaultKind → Bool
  | .invalidCommand => true
  | .invalidOperand => true
  | .hostPrecondition => true
  | .bufferOverrun => false
  | .unwrittenRegister => false

/-- The invariant of the machine: R40, with the interrupt enable, the call stack, the watchdog's time and the fault record. -/
def machineInvariant (s : State) : Prop :=
  legalParams s.cfg ∧ bufferSound s ∧ lengthFits s ∧ s.wdtLast ≤ s.now ∧
  (s.fault = none → atRest s) ∧ (∀ k, s.fault = some k → hostFault k = true)

end Sys2Proof.Machine
end

