-- ==== Sys2Proof/Certificates/Slice0/Obligations.lean ====
section
/-! DEFINITION. The statements for the provers. -/

open Sys2Proof Sys2Proof.Machine

/-! ### Encoding -/

/-- R88, R89: a well-formed host command's bytes decode to it, whatever follows them. -/
def Obligations.DecodeOfEncode : Prop :=
  ∀ (i : Instr) (bs rest : List Byte), i.wellFormed = true → encode i = some bs → decode (bs ++ rest) = .frame i rest

/-- R88, R89: what the decoder takes from a queue is exactly the bytes of the well-formed host command it answers. -/
def Obligations.DecodeTakesExactlyOneFrame : Prop :=
  ∀ (q rest : List Byte) (i : Instr), decode q = .frame i rest →
    i.wellFormed = true ∧ i.isCommand = true ∧ ∃ bs, encode i = some bs ∧ q = bs ++ rest

/-- R89, R92: the reserved opcodes are 0x00 and 0x0A to 0xFF, and nothing else is refused. -/
def Obligations.ReservedOpcodesAreRefused : Prop :=
  ∀ (op r : Byte) (rest : List Byte), decode (op :: rest) = .reserved r ↔ r = op ∧ (op = 0x00 ∨ 0x0A ≤ op.toNat)

/-- R89, R94, worked examples of 95_test_vectors.md: a few frames decode to the command they stand for. -/
def Obligations.SpecFramesDecode : Prop :=
  decode [0x01, 0x03] = .frame (.requestRead 3) [] ∧
  decode [0x02, 0x08, 0x05] = .frame (.collectRead 8) [0x05] ∧
  decode [0x03, 0x03, 0x41, 0x42, 0x43] = .frame (.submitWrite 3 [0x41, 0x42, 0x43]) [] ∧
  decode [0x04, 0x01, 0x00, 0x02, 0x3F, 0x31] = .frame (.submitAsync 1 0 2 [0x3F, 0x31]) [] ∧
  decode [0x05, 0x07] = .frame .queryResult [0x07] ∧
  decode [0x06, 0x02, 0x01] = .frame (.logicalWait 2 1) [] ∧
  decode [0x08, 0x04, 0x01] = .frame (.setRelease 4 1) [] ∧
  decode [0x09] = .frame .busReset []

/-! ### Fetch, dispatch, faults -/

/-- R197: at line 1 of the main loop, when the bytes that have arrived start with a frame, the step is the execution of its
command, with a kick before it and the frame taken from `HIN`; the engine then goes on to line 5. -/
def Obligations.StepRunsTheDecodedCommand : Prop :=
  ∀ (s : State) (i : Instr) (rest : List Byte),
    s.fault = none → wdtExpired s = false → s.pc = mainAt 1 → decode (deliver s).hin = .frame i rest →
    step s = resumeOutcome 4 5 (exec i { kicked (deliver s) with hin := rest, pc := mainAt 4 })

/-- R197 lines 5 and 6: at line 5 the step is the dispatch of the request state's row. -/
def Obligations.StepRunsTheDispatch : Prop :=
  ∀ s : State, s.fault = none → wdtExpired s = false → s.pc = mainAt 5 →
    step s = resumeOutcome 5 1 (exec (dispatchInstr s.req) s)

/-- R92, R197 line 3: a reserved opcode raises `InvalidCommand` and nothing else changes but the kick of line 1; no byte is taken
(that the reserved byte stays in `HIN` is the model's reading, notes/assumptions/14.md). -/
def Obligations.ReservedOpcodeFaults : Prop :=
  ∀ (s : State) (op : Byte), s.fault = none → wdtExpired s = false → s.pc = mainAt 1 →
    decode (deliver s).hin = .reserved op →
    step s = .next { kicked (deliver s) with fault := some .invalidCommand, pc := mainAt 3 }

/-- R92, R197 line 2: while no complete frame is there the engine waits one poll interval at the main loop and takes nothing. -/
def Obligations.IncompleteFrameWaits : Prop :=
  ∀ s : State, s.fault = none → wdtExpired s = false → s.pc = mainAt 1 → decode (deliver s).hin = .incomplete →
    quietFor 1 s → s.cfg.tPoll ≤ s.cfg.tWdt →
    ∃ t, step s = .next t ∧ t.now = s.now + s.cfg.tPoll ∧ t.pc = mainAt 1 ∧ t.hin = (deliver s).hin ∧
      t.wdtLast = s.now ∧ t.trace = s.trace ++ [.kick] ∧ t.out = s.out ∧ t.eoi = s.eoi ∧ sameRequest s t ∧ sameBuffer s t ∧
      t.fault = none ∧ t.resets = s.resets

/-- R38, R253, R255: an engine whose `FAULT` is set takes no step, not even a watchdog reset. -/
def Obligations.FaultedEngineTakesNoStep : Prop :=
  ∀ (s : State) (k : FaultKind), s.fault = some k → step s = .fault (.stopped k)

/-- R258, R260, R280: when `NOW - WDT_LAST > T_WDT` in an engine that is not faulted, the step is the reset sequence at that
instant. And wherever a watchdog reset comes, at the start of a step, inside any instruction, or while the main loop idles, what
is left are the reset values. -/
def Obligations.WatchdogResetState : Prop :=
  (∀ s : State, s.fault = none → s.now - s.wdtLast > s.cfg.tWdt →
    ∃ t, step s = .next t ∧ resetBetween s t ∧ t.now = s.now ∧ t.trace = s.trace) ∧
  (∀ (i : Instr) (s t : State), exec i s = .next t → t.resets ≠ s.resets → resetBetween s t) ∧
  (∀ s t : State, step s = .next t → t.resets ≠ s.resets → resetBetween s t)

/-- R280, R281: the values the spec gives the state at power-on. -/
def Obligations.PowerOnState : Prop :=
  State.reset.out = 0 ∧ State.reset.eoi = false ∧ State.reset.len = 0 ∧ State.reset.req = .idle ∧
  State.reset.collected = false ∧ State.reset.ie = true ∧ State.reset.wdtLast = State.reset.now ∧
  State.reset.pc = mainAt 1 ∧ State.reset.stack = [] ∧ State.reset.sr = none ∧ State.reset.bitn = none ∧
  State.reset.idx = none ∧ State.reset.cnt = none ∧ State.reset.ok = none ∧ State.reset.t0 = none ∧
  State.reset.hin = [] ∧ State.reset.hout = [] ∧ State.reset.trace = [] ∧ State.reset.fault = none

/-! ### Host commands -/

/-- R210 (and the setter precondition of R196): `REQUEST_READ`: its frame, and what it does in each of its three cases. -/
def Obligations.RequestReadMeaning : Prop :=
  ∀ (s : State) (n : Byte), encode (.requestRead n) = some [0x01, n] ∧
    if ¬ (s.req = .idle ∨ (s.req = .result ∧ s.collected = true)) then
      exec (.requestRead n) s = .next (faultedAt s .requestRead 1 .hostPrecondition)
    else if n = 0 ∨ s.cfg.bufCap < n.toNat then exec (.requestRead n) s = .next (faultedAt s .requestRead 2 .hostPrecondition)
    else exec (.requestRead n) s = .next { s with len := n, req := .read }

/-- R211, R212: `COLLECT_READ`: its frame; in `READ_DONE` it answers the first `min(n, LEN)` bytes, or `[0x00]` when the transfer fails, and
returns to `IDLE` either way; in another state it faults. The transport's decision is `xferChoice`. -/
def Obligations.CollectReadMeaning : Prop :=
  ∀ (s : State) (n : Byte), s.len.toNat ≤ s.cfg.bufCap → encode (.collectRead n) = some [0x02, n] ∧
    if s.req ≠ .readDone then exec (.collectRead n) s = .next (faultedAt s .collectRead 1 .hostPrecondition)
    else exec (.collectRead n) s = .next { xferTaken s with
      req := .idle
      hout := s.hout ++ [if xferChoice s = true
        then BitVec.ofNat 8 (min n.toNat s.len.toNat) :: peekBytes s 0 (min n.toNat s.len.toNat) else [0x00]] }

/-- R213: `SUBMIT_WRITE`: its frame; where the transfer succeeds it stores its block from index 0 on, arms `WRITE` and answers its length; an
unresolved request or a length above `BUF_CAP` faults. -/
def Obligations.SubmitWriteMeaning : Prop :=
  ∀ (s : State) (n : Byte) (block : List Byte), (Instr.submitWrite n block).wellFormed = true →
    encode (.submitWrite n block) = some (0x03 :: n :: block) ∧
    if ¬ (s.req = .idle ∨ (s.req = .result ∧ s.collected = true)) then
      exec (.submitWrite n block) s = .next (faultedAt s .submitWrite 1 .hostPrecondition)
    else if s.cfg.bufCap < n.toNat then exec (.submitWrite n block) s = .next (faultedAt s .submitWrite 2 .hostPrecondition)
    else xferChoice s = true → ∃ t, exec (.submitWrite n block) s = .next t ∧
      t = { xferTaken s with buf := t.buf, len := n, req := .write, hout := s.hout ++ [[n]] } ∧
      (∀ k, (h : k < block.length) → peek t k = block[k]) ∧ (∀ a, n.toNat ≤ a → peek t a = peek s a)

/-- R214: when the transfer fails the answer is `[0x00]`, `REQ` and `LEN` keep their values, no byte outside the first `n` of
`BUF` changes, and the dispatch that follows does nothing. -/
def Obligations.SubmitWriteTransportFailure : Prop :=
  ∀ (s : State) (n : Byte) (block : List Byte),
    (s.req = .idle ∨ (s.req = .result ∧ s.collected = true)) → n.toNat ≤ s.cfg.bufCap → xferChoice s = false →
    ∃ t, exec (.submitWrite n block) s = .next t ∧
      t = { s with xfer := t.xfer, draws := t.draws, buf := t.buf, hout := s.hout ++ [[0x00]] } ∧
      (∀ a, n.toNat ≤ a → peek t a = peek s a) ∧ exec (dispatchInstr t.req) t = .next t

/-- R215, R216: `SUBMIT_ASYNC`: its frame; it stores its prefix at 0 and 1 and its payload from 2 on, and arms `ASYNC`; an unresolved request or
a payload above `BUF_CAP - 2` bytes faults with no state changed. -/
def Obligations.SubmitAsyncMeaning : Prop :=
  ∀ (s : State) (a t n : Byte) (payload : List Byte), 3 ≤ s.cfg.bufCap →
    (Instr.submitAsync a t n payload).wellFormed = true →
    encode (.submitAsync a t n payload) = some (0x04 :: a :: t :: n :: payload) ∧
    if ¬ (s.req = .idle ∨ (s.req = .result ∧ s.collected = true)) then
      exec (.submitAsync a t n payload) s = .next (faultedAt s .submitAsync 1 .hostPrecondition)
    else if s.cfg.bufCap - 2 < n.toNat then
      exec (.submitAsync a t n payload) s = .next (faultedAt s .submitAsync 2 .hostPrecondition)
    else ∃ u, exec (.submitAsync a t n payload) s = .next u ∧
      u = { s with buf := u.buf, len := n, req := .async } ∧ peek u 0 = a ∧ peek u 1 = t ∧
      (∀ k, (h : k < payload.length) → peek u (2 + k) = payload[k]) ∧ (∀ b, n.toNat + 2 ≤ b → peek u b = peek s b)

/-- R217 (and R199, R83): `QUERY_RESULT`: its frame; it answers the state code and `RESULT` in every state; in `RESULT` it marks the outcome as
collected and returns to `IDLE` only under `QUERY_CLEARS_RESULT`. -/
def Obligations.QueryResultMeaning : Prop :=
  encode .queryResult = some [0x05] ∧ ∀ s : State, exec .queryResult s = .next (
    let u := { s with hout := s.hout ++ [[reqCode s.req, s.result]] }
    if s.req = .result then
      { u with collected := true, req := if s.cfg.queryClears = true then .idle else .result }
    else u)

/-- R83: the request-state codes, in the spec's numbering; no other code is produced; `QUERY_RESULT` answers the code first. -/
def Obligations.RequestStateCodes : Prop :=
  (∀ r, (reqCode r).toNat ≤ 5) ∧
  (∀ s : State, ∃ t b, exec .queryResult s = .next t ∧ t.hout = s.hout ++ [[reqCode s.req, b]]) ∧
  reqCode .idle = 0 ∧ reqCode .async = 1 ∧ reqCode .write = 2 ∧ reqCode .read = 3 ∧ reqCode .readDone = 4 ∧ reqCode .result = 5

/-- R219, R81, R82: a `LOGICAL_WAIT` whose condition holds at its first sample changes nothing. -/
def Obligations.LogicalWaitEndsAtOnce : Prop :=
  ∀ (s : State) (l : Line) (sel state : Byte),
    (sel, l) ∈ ([(0x01, .data), (0x02, .clock), (0x04, .atn), (0x08, .reset)] : List (Byte × Line)) →
    (if state ≠ 0 then asserted l s = true else released l s = true) →
    exec (.logicalWait sel state) s = .next s

/-- R219: whenever a `LOGICAL_WAIT` with a legal selector returns, its condition holds then, and nothing but time (and what the
interrupt sources chose) has changed. -/
def Obligations.LogicalWaitReturnsOnItsCondition : Prop :=
  ∀ (s t : State) (l : Line) (sel state : Byte),
    (sel, l) ∈ ([(0x01, .data), (0x02, .clock), (0x04, .atn), (0x08, .reset)] : List (Byte × Line)) →
    exec (.logicalWait sel state) s = .next t → returned s t →
    (if state ≠ 0 then asserted l t = true else released l t = true) ∧ s.now ≤ t.now ∧
    t = { s with now := t.now, irq := t.irq, draws := t.draws }

/-- R219 line 1, R91: a selector that does not name exactly one line faults. -/
def Obligations.LogicalWaitSelectorFault : Prop :=
  ∀ (s : State) (sel state : Byte), ¬ (sel = 0x01 ∨ sel = 0x02 ∨ sel = 0x04 ∨ sel = 0x08) →
    exec (.logicalWait sel state) s = .next (faultedAt s .logicalWait 1 .invalidOperand)

/-- R220, R258: a `LOGICAL_WAIT` whose condition does not come true before the watchdog's deadline ends with a watchdog reset:
`REQ` is `IDLE` and `HIN` is empty. The poll interval is at least a microsecond. -/
def Obligations.LogicalWaitOutlastsWatchdog : Prop :=
  ∀ (s : State) (l : Line) (sel state : Byte),
    (sel, l) ∈ ([(0x01, .data), (0x02, .clock), (0x04, .atn), (0x08, .reset)] : List (Byte × Line)) → 1 ≤ s.cfg.tPoll →
    (∀ u, s.now ≤ u → u ≤ deadline s →
      (if state ≠ 0 then asserted l { s with now := u } = false else released l { s with now := u } = false)) →
    s.now ≤ deadline s →
    ∃ t, exec (.logicalWait sel state) s = .next t ∧ t.resets = s.resets + 1 ∧ t.req = .idle ∧ t.hin = [] ∧ t.out = 0 ∧
      t.fault = s.fault ∧ t.trace = s.trace

/-- R221, R84: `LOGICAL_POLL`: its frame; it answers one byte: DATA, CLOCK and ATN as the bus shows them, every other bit 0. -/
def Obligations.LogicalPollMeaning : Prop :=
  encode .logicalPoll = some [0x07] ∧ ∀ s : State, ∃ p : Byte, exec .logicalPoll s = .next { s with hout := s.hout ++ [[p]] } ∧
    p.getLsbD 0 = (s.out.getLsbD 0 || s.dev.getLsbD 0) ∧ p.getLsbD 1 = (s.out.getLsbD 1 || s.dev.getLsbD 1) ∧
    p.getLsbD 2 = (s.out.getLsbD 2 || s.dev.getLsbD 2) ∧ ∀ k, 3 ≤ k → p.getLsbD k = false

/-- R222 (and R223, R63): `SET_RELEASE`: its frame; with legal masks asserts the lines of one and releases those of the other in one line write; bits
7:4 set in a mask, or a line in both masks, fault. -/
def Obligations.SetReleaseMeaning : Prop :=
  ∀ (s : State) (a r : Byte), encode (.setRelease a r) = some [0x08, a, r] ∧
    if 16 ≤ a.toNat ∨ 16 ≤ r.toNat ∨ a &&& r ≠ 0 then
      exec (.setRelease a r) s = .next (faultedAt s .setRelease 1 .invalidOperand)
    else
      let v : Lines := (s.out ||| a.setWidth 4) &&& ~~~(r.setWidth 4)
      exec (.setRelease a r) s = .next { s with out := v, lineLog := s.lineLog ++ [⟨s.now, ⟨.setRelease, 2⟩, v⟩] }

/-- R224: `BUS_RESET`: its frame; whether it returns or the watchdog ends it, it leaves exactly the state `reset` leaves. -/
def Obligations.BusResetIsReset : Prop :=
  encode .busReset = some [0x09] ∧ ∀ s t : State, exec .busReset s = .next t → returned s t ∨ t.resets ≠ s.resets →
    exec .reset s = .next t

/-! ### The serializer and the deserializer -/

/-- R116, R117: `send_byte` to a listener that holds DATA when the bits end returns `true` right then: CLOCK asserted, DATA
released, the shift register empty, the bits timed by their parameters. -/
def Obligations.SendByteAcknowledged : Prop :=
  ∀ (s : State) (v : Byte), quietFor 16 s → s.now + bitsTime s.cfg ≤ deadline s →
    pulled s .data (s.now + bitsTime s.cfg) →
    ∃ t, exec (.sendByte v) s = .next t ∧ returned s t ∧ t.ok = some true ∧ t.sr = some 0 ∧
      t.now = s.now + bitsTime s.cfg ∧ t.out = (s.out ||| lineMask .clock) &&& ~~~lineMask .data ∧ t.ie = s.ie

/-- R116: a listener that does not pull DATA at any instant of the acknowledgement window gives a NAK: the result is `false`. -/
def Obligations.SendByteNak : Prop :=
  ∀ (s : State) (v : Byte), quietFor (16 + sampleCount s.cfg.tAck s.cfg.tPoll) s →
    s.now + bitsTime s.cfg + sampleCount s.cfg.tAck s.cfg.tPoll * s.cfg.tPoll ≤ deadline s →
    (∀ u, s.now + bitsTime s.cfg ≤ u → u ≤ s.now + bitsTime s.cfg + sampleCount s.cfg.tAck s.cfg.tPoll * s.cfg.tPoll →
      floats s .data u) →
    ∃ t, exec (.sendByte v) s = .next t ∧ returned s t ∧ t.ok = some false ∧
      t.out = (s.out ||| lineMask .clock) &&& ~~~lineMask .data ∧
      t.now = s.now + bitsTime s.cfg + sampleCount s.cfg.tAck s.cfg.tPoll * s.cfg.tPoll

/-- R116, R86, R110, R114, R117: whatever the interrupts and the devices do, a `send_byte` entered with DATA released that
returns has had CLOCK released in exactly eight windows (line 6 to line 8), with DATA as R86 puts the byte on the bus; the atomic
section keeps each window and each bit within `T_EPS` for each of its delays. -/
def Obligations.SendByteWireEncoding : Prop :=
  ∀ (s t : State) (v : Byte), s.out.getLsbD 0 = false → exec (.sendByte v) s = .next t → returned s t →
    let starts := writesAt s t .sendByte 6
    let ends := writesAt s t .sendByte 8
    starts.map (fun w => w.out.getLsbD 1) = List.replicate 8 false ∧ wireBits s t = byteOnWire v ∧
    ends.map (fun w => w.out &&& (lineMask .data ||| lineMask .clock)) = List.replicate 8 (lineMask .clock) ∧
    (∀ w ∈ starts.zip ends,
      w.1.time + s.cfg.tBitHold ≤ w.2.time ∧ w.2.time ≤ w.1.time + s.cfg.tBitHold + s.cfg.tEps) ∧
    (∀ w ∈ starts.zip starts.tail, w.1.time + (s.cfg.tBitSetup + s.cfg.tBitHold) ≤ w.2.time ∧
      w.2.time ≤ w.1.time + (s.cfg.tBitSetup + s.cfg.tBitHold) + 2 * s.cfg.tEps)

/-- R116 (state written): what a `send_byte` that no watchdog reset ends leaves unchanged. -/
def Obligations.SendByteFrame : Prop :=
  ∀ (s t : State) (v : Byte), exec (.sendByte v) s = .next t → t.resets = s.resets →
    sameLine s t .atn ∧ sameLine s t .reset ∧ t.eoi = s.eoi ∧ sameBuffer s t ∧ sameRequest s t ∧ samePort s t ∧
    sameWorld s t ∧ t.wdtLast = s.wdtLast ∧ t.idx = s.idx ∧ t.cnt = s.cnt ∧ t.t0 = s.t0 ∧ t.trace = s.trace ∧ s.now ≤ t.now

/-- R119, R86: `receive_byte`, with the engine holding neither DATA nor CLOCK, from a talker that sends `v` returns `v` and
`true`; windows of at least two samples; no line is written. -/
def Obligations.ReceiveByteFromTalker : Prop :=
  ∀ (s : State) (v : Byte), s.out &&& (lineMask .data ||| lineMask .clock) = 0 → quietFor 16 s →
    2 ≤ sampleCount s.cfg.tRxBit s.cfg.tPoll → talksByte s s.now v → s.now + talkTime s.cfg ≤ deadline s →
    ∃ t, exec .receiveByte s = .next t ∧ returned s t ∧ t.sr = some v ∧ t.ok = some true ∧
      t.now = s.now + talkTime s.cfg ∧ t.out = s.out ∧ t.lineLog = s.lineLog ∧ t.ie = s.ie

/-- R119 (state written): what a `receive_byte` that no watchdog reset ends leaves unchanged. -/
def Obligations.ReceiveByteFrame : Prop :=
  ∀ s t : State, exec .receiveByte s = .next t → t.resets = s.resets →
    t.out = s.out ∧ t.lineLog = s.lineLog ∧ t.eoi = s.eoi ∧ sameBuffer s t ∧ sameRequest s t ∧ samePort s t ∧
    sameWorld s t ∧ t.wdtLast = s.wdtLast ∧ t.idx = s.idx ∧ t.cnt = s.cnt ∧ t.t0 = s.t0 ∧ t.trace = s.trace ∧ s.now ≤ t.now

/-! ### Write -/

/-- R140 to R149, R152, R153, R154: a write to a listener that answers every wait (and, for a talk hand-off, to a device that
holds CLOCK at its end) sends its `n` bytes: the bytes of `BUF` from `base` on and no others, ATN held for the whole transfer
where it is asked for, the hand-off as one line write; count `n` (in `CNT`: notes/assumptions/12.md), one
`Status` each, `EOI` clear, the lines of the exit table. -/
def Obligations.WriteToListener : Prop :=
  ∀ (s : State) (base : Nat) (n : Byte) (atn talk : Bool),
    base + n.toNat ≤ s.cfg.bufCap → listens s (!atn) s.now n.toNat → quietFor (20 * n.toNat) s →
    listenEnd s.cfg (!atn) s.now n.toNat ≤ deadline s →
    (talk = true → pulled s .clock (listenEnd s.cfg (!atn) s.now n.toNat)) →
    ∃ t, exec (.write base n atn talk) s = .next t ∧ returned s t ∧ t.cnt = some n.toNat ∧ t.eoi = false ∧
      t.trace = s.trace ++ List.replicate n.toNat .status ∧ t.now = listenEnd s.cfg (!atn) s.now n.toNat ∧
      t.out = (s.out &&& lineMask .reset) ||| (if talk then lineMask .data else lineMask .clock) ∧
      sends s t base n.toNat atn talk (listenEnd s.cfg (!atn) s.now n.toNat)

/-- R142, R151, R152: where no device pulls DATA in the claim window the write returns 0 with CLOCK and ATN released, logs
`DeviceAbsent` and sends nothing. The count stands in `CNT` (notes/assumptions/12.md). -/
def Obligations.WriteWithoutListener : Prop :=
  ∀ (s : State) (base : Nat) (n : Byte) (atn talk : Bool),
    (∀ u, s.now ≤ u → u ≤ s.now + sampleCount s.cfg.tListenClaim s.cfg.tPoll * s.cfg.tPoll → floats s .data u) →
    quietFor (sampleCount s.cfg.tListenClaim s.cfg.tPoll) s →
    s.now + sampleCount s.cfg.tListenClaim s.cfg.tPoll * s.cfg.tPoll ≤ deadline s →
    ∃ t, exec (.write base n atn talk) s = .next t ∧ returned s t ∧ t.cnt = some 0 ∧ t.eoi = false ∧
      t.out = s.out &&& lineMask .reset ∧ t.trace = s.trace ++ [.deviceAbsent] ∧ writesAt s t .sendByte 6 = []

/-- R154 (derived there): every write that returns leaves the lines of one row of the exit table, whatever the devices do. -/
def Obligations.WriteExitLines : Prop :=
  ∀ (s t : State) (base : Nat) (n : Byte) (atn talk : Bool), exec (.write base n atn talk) s = .next t → returned s t →
    (t.cnt = some n.toNat ∧ t.out = (s.out &&& lineMask .reset) ||| (if talk then lineMask .data else lineMask .clock)) ∨
    (t.cnt = some 0 ∧ t.out = s.out &&& lineMask .reset)

/-- R141: whatever becomes of it, a write that no watchdog reset ends leaves `EOI` clear; so does one that a reset ends. -/
def Obligations.WriteClearsEoi : Prop :=
  ∀ (s t : State) (base : Nat) (n : Byte) (atn talk : Bool), exec (.write base n atn talk) s = .next t → t.eoi = false

/-- R140 (state written), R34 (`CNT` holds the returned count): what a write that no watchdog reset ends leaves unchanged. -/
def Obligations.WriteFrame : Prop :=
  ∀ (s t : State) (base : Nat) (n : Byte) (atn talk : Bool), exec (.write base n atn talk) s = .next t →
    t.resets = s.resets →
    sameLine s t .reset ∧ sameBuffer s t ∧ sameRequest s t ∧ samePort s t ∧ sameWorld s t ∧ t.wdtLast = s.wdtLast ∧
    t.t0 = s.t0 ∧ s.now ≤ t.now

/-! ### Read -/

/-- R155 to R161, R87: a read from a talker that sends as many bytes as are asked for, or fewer with EOI on the last one, stores
them from index 0 on and counts them; each is acknowledged by asserting DATA, with one `Status`; the EOI byte is received like the
others, and `EOI` becomes 1 with one pulse of `T_EOI_PULSE` on DATA at the end of the window; the other lines are as they were. -/
def Obligations.ReadFromTalker : Prop :=
  ∀ (s : State) (n : Byte) (bs : List Byte) (eoi : Bool), 1 ≤ bs.length → bs.length ≤ n.toNat →
    (eoi = false → bs.length = n.toNat) → bs.length ≤ s.cfg.bufCap → s.eoi = false → s.out &&& lineMask .clock = 0 →
    talks s eoi s.now bs → quietFor (18 * bs.length + sampleCount s.cfg.tEoiWindow s.cfg.tPoll + 1) s →
    18 * s.cfg.tPoll ≤ s.cfg.tWdt → (eoi = true → eoiWait s.cfg + s.cfg.tEoiPulse + talkTime s.cfg ≤ s.cfg.tWdt) →
    2 ≤ sampleCount s.cfg.tRxBit s.cfg.tPoll → 2 ≤ sampleCount s.cfg.tEoiWindow s.cfg.tPoll →
    2 ≤ sampleCount s.cfg.tReadClk s.cfg.tPoll →
    ∃ t, exec (.read n) s = .next t ∧ returned s t ∧ t.cnt = some bs.length ∧ t.eoi = eoi ∧
      (∀ k, (h : k < bs.length) → peek t k = bs[k]) ∧ (∀ a, bs.length ≤ a → peek t a = peek s a) ∧
      t.out = s.out ||| lineMask .data ∧
      (writesAt s t .read 14).map (fun w => w.out) = List.replicate bs.length (s.out ||| lineMask .data) ∧
      (t.trace.drop s.trace.length).filter (fun e => e == .status) = List.replicate bs.length .status ∧
      let u := s.now + 18 * s.cfg.tPoll * (bs.length - 1) + eoiWait s.cfg
      (writesAt s t .read 10).map (fun w => (w.time, w.out)) =
        if eoi then [(u, s.out ||| lineMask .data), (u + s.cfg.tEoiPulse, s.out &&& ~~~lineMask .data)] else []

/-- R156, R162 (derived there): a read that returns when `EOI` was already latched has read nothing and written no line. -/
def Obligations.ReadWithEoiLatched : Prop :=
  ∀ (s t : State) (n : Byte), s.eoi = true → exec (.read n) s = .next t → returned s t →
    t.cnt = some 0 ∧ t.out = s.out ∧ t.lineLog = s.lineLog ∧ t.eoi = true ∧ sameBuffer s t

/-- R161, R163 (derived there): a read that returns has counted at most `maxLen` bytes (for `maxLen` at least 1), has stored
nothing beyond its count, and has not touched CLOCK, ATN or RESET; `EOI` is not cleared. `IDX` is the index of the last byte stored
(R34), and unchanged where there is none, which is the model's choice (notes/assumptions/21.md). -/
def Obligations.ReadStoresWhatItCounts : Prop :=
  ∀ (s t : State) (n : Byte), n ≠ 0 → exec (.read n) s = .next t → returned s t →
    ∃ c, t.cnt = some c ∧ c ≤ n.toNat ∧ (∀ a, c ≤ a → peek t a = peek s a) ∧
      sameLine s t .clock ∧ sameLine s t .atn ∧ sameLine s t .reset ∧ (s.eoi = true → t.eoi = true) ∧
      t.idx = if c = 0 then s.idx else some (c - 1)

/-- R158, R159, W4: a read whose talker releases CLOCK and never takes it sets `EOI` and returns 0. -/
def Obligations.ReadEoiWithoutByte : Prop :=
  ∀ (s : State) (n : Byte),
    s.eoi = false → s.out &&& lineMask .clock = 0 →
    (∀ u, s.now ≤ u → u ≤ s.now + sampleCount s.cfg.tEoiWindow s.cfg.tPoll * s.cfg.tPoll + s.cfg.tEoiPulse +
      sampleCount s.cfg.tRxStart s.cfg.tPoll * s.cfg.tPoll → floats s .clock u) →
    quietFor (sampleCount s.cfg.tEoiWindow s.cfg.tPoll + 1 + sampleCount s.cfg.tRxStart s.cfg.tPoll) s →
    sampleCount s.cfg.tEoiWindow s.cfg.tPoll * s.cfg.tPoll + s.cfg.tEoiPulse +
      sampleCount s.cfg.tRxStart s.cfg.tPoll * s.cfg.tPoll ≤ s.cfg.tWdt →
    ∃ t, exec (.read n) s = .next t ∧ returned s t ∧ t.cnt = some 0 ∧ t.eoi = true ∧ sameBuffer s t ∧
      t.out = s.out &&& ~~~lineMask .data ∧ t.trace = s.trace ++ [.kick]

/-- R155 (state written): what a read that no watchdog reset ends leaves unchanged. `IDX` changes only to the index of a
byte stored last (or, where the buffer is overrun, not stored), which is the model's choice (notes/assumptions/21.md). -/
def Obligations.ReadFrame : Prop :=
  ∀ (s t : State) (n : Byte), exec (.read n) s = .next t → t.resets = s.resets →
    sameLine s t .clock ∧ sameLine s t .atn ∧ sameLine s t .reset ∧ sameRequest s t ∧ samePort s t ∧ sameWorld s t ∧
    (t.idx = s.idx ∨ ∃ c, t.idx = some c ∧ (t.cnt = some c ∨ t.cnt = some (c + 1))) ∧ t.t0 = s.t0 ∧ s.now ≤ t.now

/-! ### Reset of the bus -/

/-- R164 to R167: `reset` and `BUS_RESET` on a bus with a drive that answers the first probe return with every line released
after the hold and one probe; the RESET line is asserted for the whole hold. -/
def Obligations.ResetFindsDrive : Prop :=
  ∀ (s : State) (i : Instr), i = .reset ∨ i = .busReset →
    quietFor 4 s → s.now + s.cfg.tResetHold ≤ deadline s →
    s.cfg.tProbeSettle + s.cfg.tProbeAtn + s.cfg.tProbeRelease ≤ s.cfg.tWdt →
    floats s .data (s.now + s.cfg.tResetHold + s.cfg.tProbeSettle) →
    pulled s .data (s.now + s.cfg.tResetHold + s.cfg.tProbeSettle + s.cfg.tProbeAtn) →
    floats s .data (s.now + s.cfg.tResetHold + s.cfg.tProbeSettle + s.cfg.tProbeAtn + s.cfg.tProbeRelease) →
    ∃ t, exec i s = .next t ∧ returned s t ∧ t.out = 0 ∧
      t.now = s.now + s.cfg.tResetHold + s.cfg.tProbeSettle + s.cfg.tProbeAtn + s.cfg.tProbeRelease ∧
      t.trace = s.trace ++ [.kick] ∧ t.t0 = some (s.now + s.cfg.tResetHold) ∧ t.wdtLast = s.now + s.cfg.tResetHold ∧
      (writesAt s t .reset 2).map (fun w => (w.time, w.out)) = [(s.now, (s.out &&& lineMask .reset) ||| lineMask .reset)] ∧
      (writesAt s t .reset 4).map (fun w => (w.time, w.out)) = [(s.now + s.cfg.tResetHold, 0)]

/-- R167, R168, R169 (derived there): every `reset` that returns leaves the four lines released and has taken at least the hold
and one settle delay, whatever the devices do; its trace grows by kicks and at most one `FreeBusTimeout`, the last. -/
def Obligations.ResetAlwaysReleasesTheBus : Prop :=
  ∀ s t : State, exec .reset s = .next t → returned s t →
    t.out = 0 ∧ s.now + s.cfg.tResetHold + s.cfg.tProbeSettle ≤ t.now ∧
    ∃ k, 1 ≤ k ∧ (t.trace = s.trace ++ List.replicate k .kick ∨
      t.trace = s.trace ++ List.replicate k .kick ++ [.freeBusTimeout])

/-- R170: `reset` changes no protocol state. -/
def Obligations.ResetKeepsProtocolState : Prop :=
  ∀ s t : State, exec .reset s = .next t → t.resets = s.resets →
    t.eoi = s.eoi ∧ sameBuffer s t ∧ sameRequest s t

/-- R164, R224 (state written): the rest of what `reset` and `BUS_RESET` leave unchanged when no watchdog reset ends them. -/
def Obligations.ResetFrame : Prop :=
  ∀ (s t : State) (i : Instr), i = .reset ∨ i = .busReset → exec i s = .next t → t.resets = s.resets →
    t.eoi = s.eoi ∧ sameBuffer s t ∧ sameRequest s t ∧ samePort s t ∧ sameWorld s t ∧ t.ie = s.ie ∧ t.ieSaved = s.ieSaved ∧
    t.sr = s.sr ∧ t.bitn = s.bitn ∧ t.idx = s.idx ∧ t.cnt = s.cnt ∧ t.ok = s.ok ∧ s.now ≤ t.now

/-! ### Dispatch -/

/-- R191, R64: the dispatch of a `WRITE` request to a listener that answers every wait sends `BUF[0]` to `BUF[LEN-1]`,
asserting no ATN and with no hand-off, and stores the length as `RESULT`. On any bus, where it returns, `RESULT` is the count the write
returned (0 where it failed, with the lines released), uncollected, in `RESULT`; `LEN` and `BUF` are kept. The count stands in `CNT`
(notes/assumptions/12.md). -/
def Obligations.DispatchWriteStoresTheCount : Prop :=
  (∀ s : State, s.req = .write → s.len.toNat ≤ s.cfg.bufCap →
    listens s true s.now s.len.toNat → quietFor (20 * s.len.toNat) s →
    listenEnd s.cfg true s.now s.len.toNat ≤ deadline s →
    ∃ t, exec .dispatchWrite s = .next t ∧ returned s t ∧ t.result = s.len ∧ t.req = .result ∧ t.collected = false ∧
      t.eoi = false ∧ t.len = s.len ∧ sameBuffer s t ∧ t.out = (s.out &&& lineMask .reset) ||| lineMask .clock ∧
      sends s t 0 s.len.toNat false false (listenEnd s.cfg true s.now s.len.toNat)) ∧
  (∀ s t : State, s.req = .write → exec .dispatchWrite s = .next t → returned s t →
    t.req = .result ∧ t.collected = false ∧ t.len = s.len ∧ sameBuffer s t ∧
    ((t.cnt = some s.len.toNat ∧ t.result = s.len ∧ t.out = (s.out &&& lineMask .reset) ||| lineMask .clock) ∨
     (t.cnt = some 0 ∧ t.result = 0 ∧ t.out = s.out &&& lineMask .reset)))

/-- R192, R27, R64: the dispatch of an `ASYNC` request to a listener that answers every wait sends the `LEN` payload bytes from
index 2 on, asserting ATN exactly when `BUF[0]` is nonzero and with the talk hand-off exactly when `BUF[1]` is, and stores the
length.
On any bus, where it returns, `RESULT` is the count the write returned, as for `WRITE`, and it stands in `CNT`
(notes/assumptions/12.md). -/
def Obligations.DispatchAsyncStoresTheCount : Prop :=
  (∀ s : State, s.req = .async → 2 + s.len.toNat ≤ s.cfg.bufCap →
    listens s (peek s 0 == 0) s.now s.len.toNat → quietFor (20 * s.len.toNat) s →
    listenEnd s.cfg (peek s 0 == 0) s.now s.len.toNat ≤ deadline s →
    (peek s 1 ≠ 0 → pulled s .clock (listenEnd s.cfg (peek s 0 == 0) s.now s.len.toNat)) →
    ∃ t, exec .dispatchAsync s = .next t ∧ returned s t ∧ t.result = s.len ∧ t.req = .result ∧ t.collected = false ∧
      t.eoi = false ∧ t.len = s.len ∧ sameBuffer s t ∧
      t.out = (s.out &&& lineMask .reset) ||| (if peek s 1 ≠ 0 then lineMask .data else lineMask .clock) ∧
      sends s t 2 s.len.toNat (peek s 0 != 0) (peek s 1 != 0) (listenEnd s.cfg (peek s 0 == 0) s.now s.len.toNat)) ∧
  (∀ s t : State, s.req = .async → exec .dispatchAsync s = .next t → returned s t →
    t.req = .result ∧ t.collected = false ∧ t.len = s.len ∧ sameBuffer s t ∧
    ((t.cnt = some s.len.toNat ∧ t.result = s.len ∧
      t.out = (s.out &&& lineMask .reset) ||| (if peek s 1 ≠ 0 then lineMask .data else lineMask .clock)) ∨
     (t.cnt = some 0 ∧ t.result = 0 ∧ t.out = s.out &&& lineMask .reset)))

/-- R193: the dispatch of a `READ` request from a talker that sends the bytes asked for, or fewer with EOI on the last, puts their
number into `LEN` and goes to `READ_DONE`. On any bus, where it returns (a short, failed or timed-out read too), `LEN` is the count
the read returned, at most the length asked for. Nothing is said of `RESULT`. -/
def Obligations.DispatchReadStoresTheLength : Prop :=
  (∀ (s : State) (bs : List Byte) (eoi : Bool), s.req = .read → 1 ≤ bs.length → bs.length ≤ s.len.toNat →
    (eoi = false → bs.length = s.len.toNat) → bs.length ≤ s.cfg.bufCap → s.eoi = false → s.out &&& lineMask .clock = 0 →
    talks s eoi s.now bs → quietFor (18 * bs.length + sampleCount s.cfg.tEoiWindow s.cfg.tPoll + 1) s →
    18 * s.cfg.tPoll ≤ s.cfg.tWdt → (eoi = true → eoiWait s.cfg + s.cfg.tEoiPulse + talkTime s.cfg ≤ s.cfg.tWdt) →
    2 ≤ sampleCount s.cfg.tRxBit s.cfg.tPoll → 2 ≤ sampleCount s.cfg.tEoiWindow s.cfg.tPoll →
    2 ≤ sampleCount s.cfg.tReadClk s.cfg.tPoll →
    ∃ t, exec .dispatchRead s = .next t ∧ returned s t ∧ t.len = BitVec.ofNat 8 bs.length ∧ t.req = .readDone ∧
      t.collected = s.collected ∧ t.eoi = eoi ∧ (∀ k, (h : k < bs.length) → peek t k = bs[k])) ∧
  (∀ s t : State, s.req = .read → s.len ≠ 0 → exec .dispatchRead s = .next t → returned s t →
    t.req = .readDone ∧ t.collected = s.collected ∧
    ∃ c, t.cnt = some c ∧ c ≤ s.len.toNat ∧ t.len = BitVec.ofNat 8 c ∧ ∀ a, c ≤ a → peek t a = peek s a)

/-- R191, R192, R193 (with R140 and R155): what a dispatch that no watchdog reset ends leaves unchanged. In that of
`READ`, `IDX` changes only to the index of a byte, which is the model's choice (notes/assumptions/21.md). -/
def Obligations.DispatchFrame : Prop :=
  ∀ (s t : State) (i : Instr), i = .dispatchWrite ∨ i = .dispatchAsync ∨ i = .dispatchRead → exec i s = .next t →
    t.resets = s.resets →
    sameLine s t .reset ∧ samePort s t ∧ sameWorld s t ∧ t.t0 = s.t0 ∧ s.now ≤ t.now ∧
    (i ≠ .dispatchRead → sameBuffer s t ∧ t.len = s.len ∧ t.wdtLast = s.wdtLast) ∧
    (i = .dispatchRead → t.collected = s.collected ∧ sameLine s t .clock ∧ sameLine s t .atn ∧
      (t.idx = s.idx ∨ ∃ c, t.idx = some c ∧ (t.cnt = some c ∨ t.cnt = some (c + 1))))

/-- R194: in `IDLE`, `RESULT` and `READ_DONE` dispatch changes nothing. -/
def Obligations.DispatchWithoutRequest : Prop :=
  ∀ s : State, s.req = .idle ∨ s.req = .result ∨ s.req = .readDone →
    dispatchInstr s.req = .dispatchNone ∧ exec .dispatchNone s = .next s

/-- R190: the request state moves only as the table says, when no watchdog reset happens: a setter from a ready state, a dispatch,
a collection, and a query under `QUERY_CLEARS_RESULT`. -/
def Obligations.RequestStateTransitions : Prop :=
  ∀ (i : Instr) (s t : State), exec i s = .next t → t.resets = s.resets →
    t.req = s.req ∨
    ((s.req = .idle ∨ (s.req = .result ∧ s.collected = true)) ∧
      ((∃ n, i = .requestRead n ∧ t.req = .read) ∨ (∃ n b, i = .submitWrite n b ∧ t.req = .write) ∨
      (∃ a k n p, i = .submitAsync a k n p ∧ t.req = .async))) ∨
    (i = .dispatchAsync ∧ s.req = .async ∧ t.req = .result) ∨ (i = .dispatchWrite ∧ s.req = .write ∧ t.req = .result) ∨
    (i = .dispatchRead ∧ s.req = .read ∧ t.req = .readDone) ∨
    ((∃ n, i = .collectRead n) ∧ s.req = .readDone ∧ t.req = .idle) ∨
    (i = .queryResult ∧ s.req = .result ∧ s.cfg.queryClears = true ∧ t.req = .idle)

/-! ### The whole machine -/

/-- R31, R114, R257: every instruction that returns leaves the interrupt enable as it was. -/
def Obligations.InterruptEnableRestored : Prop :=
  ∀ (i : Instr) (s t : State), exec i s = .next t → returned s t → t.ie = s.ie

/-- R259: without a watchdog reset only the reads and the bus resets move the time of the last kick. -/
def Obligations.OnlyReadsAndResetsKick : Prop :=
  ∀ (i : Instr) (s t : State), exec i s = .next t → t.resets = s.resets → t.wdtLast ≠ s.wdtLast →
    (∃ n, i = .read n) ∨ i = .dispatchRead ∨ i = .reset ∨ i = .busReset

/-- R20, R22, R32: no step changes the parameters or the environment's input, and time does not go back. -/
def Obligations.StepKeepsWorldAndTime : Prop :=
  ∀ s t : State, step s = .next t → sameWorld s t ∧ s.now ≤ t.now

/-- R254, R170: `EOI` becomes 1 only in a read; every other instruction leaves it or clears it. -/
def Obligations.OnlyReadsSetEoi : Prop :=
  ∀ (i : Instr) (s t : State), exec i s = .next t → s.eoi = false → t.eoi = true →
    (∃ n, i = .read n) ∨ i = .dispatchRead

/-- R292, R223: without a watchdog reset the RESET line is changed only by `SET_RELEASE` and the bus resets. -/
def Obligations.ResetLineChangers : Prop :=
  ∀ (i : Instr) (s t : State), exec i s = .next t → t.resets = s.resets → ¬ sameLine s t .reset →
    (∃ a r, i = .setRelease a r) ∨ i = .reset ∨ i = .busReset

/-- R40, R7, R26, R253: every step keeps the machine's invariant: legal parameters, a sound buffer, a fitting length, no request
armed at line 1 of the main loop, interrupts enabled and no operation open between steps, and no defensive fault. -/
def Obligations.StepKeepsTheInvariant : Prop :=
  ∀ s t : State, machineInvariant s → step s = .next t → machineInvariant t

/-- R280, R281: the state after power-on meets the invariant. -/
def Obligations.PowerOnMeetsTheInvariant : Prop := machineInvariant State.reset

/-- R258, R284: from a state that meets the invariant an engine that is not faulted always takes a step, and that step leaves it
at rest in the main loop or faulted by the host's doing: no operation is left hanging. -/
def Obligations.EngineNeverHangs : Prop :=
  ∀ s : State, machineInvariant s → s.fault = none →
    ∃ t, step s = .next t ∧ machineInvariant t ∧ (t.fault = none → atRest t)

/-- R61, R13: a line is asserted exactly when the engine or a device pulls it, and released otherwise. And (R8, R35, R264) where the
four lines have distinct bits of the physical port, at a line's bit the port drives what the engine asserts and senses the line; that
the sensed port is written with 1 for low is the model's choice (notes/assumptions/8.md). -/
def Obligations.OpenDrainLines : Prop :=
  (∀ s : State, (∀ l, released l s = !asserted l s) ∧ asserted .data s = (s.out.getLsbD 0 || s.dev.getLsbD 0) ∧
    asserted .clock s = (s.out.getLsbD 1 || s.dev.getLsbD 1) ∧ asserted .atn s = (s.out.getLsbD 2 || s.dev.getLsbD 2) ∧
    asserted .reset s = (s.out.getLsbD 3 || s.dev.getLsbD 3)) ∧
  (∀ (s : State) (l : Line), s.cfg.physMap.bits.Nodup →
    s.port.testBit (physBit s.cfg.physMap l) = (s.out &&& lineMask l != 0) ∧ senseLine l s = asserted l s)
end

