-- ==== Sys2Proof/Laws/State.lean ====
section
/-! SUPPORT. One lemma per field of State per named state update: `kicked`, `hostAct`, `deliver`, `resetEngine`, `watchdogReset`. -/

namespace Sys2Proof.Machine

@[simp] theorem kicked_out (s : State) : (kicked s).out = s.out := rfl
@[simp] theorem kicked_eoi (s : State) : (kicked s).eoi = s.eoi := rfl
@[simp] theorem kicked_buf (s : State) : (kicked s).buf = s.buf := rfl
@[simp] theorem kicked_len (s : State) : (kicked s).len = s.len := rfl
@[simp] theorem kicked_req (s : State) : (kicked s).req = s.req := rfl
@[simp] theorem kicked_result (s : State) : (kicked s).result = s.result := rfl
@[simp] theorem kicked_collected (s : State) : (kicked s).collected = s.collected := rfl
@[simp] theorem kicked_ie (s : State) : (kicked s).ie = s.ie := rfl
@[simp] theorem kicked_ieSaved (s : State) : (kicked s).ieSaved = s.ieSaved := rfl
@[simp] theorem kicked_now (s : State) : (kicked s).now = s.now := rfl
@[simp] theorem kicked_wdtLast (s : State) : (kicked s).wdtLast = s.now := rfl
@[simp] theorem kicked_pc (s : State) : (kicked s).pc = s.pc := rfl
@[simp] theorem kicked_stack (s : State) : (kicked s).stack = s.stack := rfl
@[simp] theorem kicked_sr (s : State) : (kicked s).sr = s.sr := rfl
@[simp] theorem kicked_bitn (s : State) : (kicked s).bitn = s.bitn := rfl
@[simp] theorem kicked_idx (s : State) : (kicked s).idx = s.idx := rfl
@[simp] theorem kicked_cnt (s : State) : (kicked s).cnt = s.cnt := rfl
@[simp] theorem kicked_ok (s : State) : (kicked s).ok = s.ok := rfl
@[simp] theorem kicked_t0 (s : State) : (kicked s).t0 = s.t0 := rfl
@[simp] theorem kicked_hin (s : State) : (kicked s).hin = s.hin := rfl
@[simp] theorem kicked_hout (s : State) : (kicked s).hout = s.hout := rfl
@[simp] theorem kicked_trace (s : State) : (kicked s).trace = s.trace ++ [.kick] := rfl
@[simp] theorem kicked_fault (s : State) : (kicked s).fault = s.fault := rfl
@[simp] theorem kicked_cfg (s : State) : (kicked s).cfg = s.cfg := rfl
@[simp] theorem kicked_bus (s : State) : (kicked s).bus = s.bus := rfl
@[simp] theorem kicked_irq (s : State) : (kicked s).irq = s.irq := rfl
@[simp] theorem kicked_xfer (s : State) : (kicked s).xfer = s.xfer := rfl
@[simp] theorem kicked_host (s : State) : (kicked s).host = s.host := rfl
@[simp] theorem kicked_draws (s : State) : (kicked s).draws = s.draws := rfl
@[simp] theorem kicked_bufEpoch (s : State) : (kicked s).bufEpoch = s.bufEpoch := rfl
@[simp] theorem kicked_lineLog (s : State) : (kicked s).lineLog = s.lineLog := rfl
@[simp] theorem kicked_resets (s : State) : (kicked s).resets = s.resets := rfl

@[simp] theorem resetEngine_out (s : State) : (resetEngine s).out = 0 := rfl
@[simp] theorem resetEngine_eoi (s : State) : (resetEngine s).eoi = false := rfl
@[simp] theorem resetEngine_buf (s : State) : (resetEngine s).buf = [] := rfl
@[simp] theorem resetEngine_len (s : State) : (resetEngine s).len = 0 := rfl
@[simp] theorem resetEngine_req (s : State) : (resetEngine s).req = .idle := rfl
@[simp] theorem resetEngine_result (s : State) : (resetEngine s).result = Config.freeByte (s.draws + 1) := rfl
@[simp] theorem resetEngine_collected (s : State) : (resetEngine s).collected = false := rfl
@[simp] theorem resetEngine_ie (s : State) : (resetEngine s).ie = true := rfl
@[simp] theorem resetEngine_ieSaved (s : State) : (resetEngine s).ieSaved = Config.freeBit (s.draws + 2) := rfl
@[simp] theorem resetEngine_now (s : State) : (resetEngine s).now = s.now := rfl
@[simp] theorem resetEngine_wdtLast (s : State) : (resetEngine s).wdtLast = s.now := rfl
@[simp] theorem resetEngine_pc (s : State) : (resetEngine s).pc = ⟨.main, 1⟩ := rfl
@[simp] theorem resetEngine_stack (s : State) : (resetEngine s).stack = [] := rfl
@[simp] theorem resetEngine_sr (s : State) : (resetEngine s).sr = none := rfl
@[simp] theorem resetEngine_bitn (s : State) : (resetEngine s).bitn = none := rfl
@[simp] theorem resetEngine_idx (s : State) : (resetEngine s).idx = none := rfl
@[simp] theorem resetEngine_cnt (s : State) : (resetEngine s).cnt = none := rfl
@[simp] theorem resetEngine_ok (s : State) : (resetEngine s).ok = none := rfl
@[simp] theorem resetEngine_t0 (s : State) : (resetEngine s).t0 = none := rfl
@[simp] theorem resetEngine_hin (s : State) : (resetEngine s).hin = [] := rfl
@[simp] theorem resetEngine_hout (s : State) : (resetEngine s).hout = [] := rfl
@[simp] theorem resetEngine_trace (s : State) : (resetEngine s).trace = s.trace := rfl
@[simp] theorem resetEngine_fault (s : State) : (resetEngine s).fault = s.fault := rfl
@[simp] theorem resetEngine_cfg (s : State) : (resetEngine s).cfg = s.cfg := rfl
@[simp] theorem resetEngine_bus (s : State) : (resetEngine s).bus = s.bus := rfl
@[simp] theorem resetEngine_irq (s : State) : (resetEngine s).irq = s.irq := rfl
@[simp] theorem resetEngine_xfer (s : State) : (resetEngine s).xfer = s.xfer := rfl
@[simp] theorem resetEngine_host (s : State) : (resetEngine s).host = s.host := rfl
@[simp] theorem resetEngine_draws (s : State) : (resetEngine s).draws = s.draws + 3 := rfl
@[simp] theorem resetEngine_bufEpoch (s : State) : (resetEngine s).bufEpoch = s.draws := rfl
@[simp] theorem resetEngine_lineLog (s : State) : (resetEngine s).lineLog = s.lineLog ++ [⟨s.now, s.pc, 0⟩] := rfl
@[simp] theorem resetEngine_resets (s : State) : (resetEngine s).resets = s.resets := rfl

@[simp] theorem hostAct_out (a : HostAct) (s : State) : (hostAct a s).out = s.out := by cases a <;> rfl
@[simp] theorem hostAct_eoi (a : HostAct) (s : State) : (hostAct a s).eoi = s.eoi := by cases a <;> rfl
@[simp] theorem hostAct_buf (a : HostAct) (s : State) : (hostAct a s).buf = s.buf := by cases a <;> rfl
@[simp] theorem hostAct_len (a : HostAct) (s : State) : (hostAct a s).len = s.len := by cases a <;> rfl
@[simp] theorem hostAct_req (a : HostAct) (s : State) : (hostAct a s).req = s.req := by cases a <;> rfl
@[simp] theorem hostAct_result (a : HostAct) (s : State) : (hostAct a s).result = s.result := by cases a <;> rfl
@[simp] theorem hostAct_collected (a : HostAct) (s : State) : (hostAct a s).collected = s.collected := by cases a <;> rfl
@[simp] theorem hostAct_ie (a : HostAct) (s : State) : (hostAct a s).ie = s.ie := by cases a <;> rfl
@[simp] theorem hostAct_ieSaved (a : HostAct) (s : State) : (hostAct a s).ieSaved = s.ieSaved := by cases a <;> rfl
@[simp] theorem hostAct_now (a : HostAct) (s : State) : (hostAct a s).now = s.now := by cases a <;> rfl
@[simp] theorem hostAct_wdtLast (a : HostAct) (s : State) : (hostAct a s).wdtLast = s.wdtLast := by cases a <;> rfl
@[simp] theorem hostAct_pc (a : HostAct) (s : State) : (hostAct a s).pc = s.pc := by cases a <;> rfl
@[simp] theorem hostAct_stack (a : HostAct) (s : State) : (hostAct a s).stack = s.stack := by cases a <;> rfl
@[simp] theorem hostAct_sr (a : HostAct) (s : State) : (hostAct a s).sr = s.sr := by cases a <;> rfl
@[simp] theorem hostAct_bitn (a : HostAct) (s : State) : (hostAct a s).bitn = s.bitn := by cases a <;> rfl
@[simp] theorem hostAct_idx (a : HostAct) (s : State) : (hostAct a s).idx = s.idx := by cases a <;> rfl
@[simp] theorem hostAct_cnt (a : HostAct) (s : State) : (hostAct a s).cnt = s.cnt := by cases a <;> rfl
@[simp] theorem hostAct_ok (a : HostAct) (s : State) : (hostAct a s).ok = s.ok := by cases a <;> rfl
@[simp] theorem hostAct_t0 (a : HostAct) (s : State) : (hostAct a s).t0 = s.t0 := by cases a <;> rfl
@[simp] theorem hostAct_trace (a : HostAct) (s : State) : (hostAct a s).trace = s.trace := by cases a <;> rfl
@[simp] theorem hostAct_fault (a : HostAct) (s : State) : (hostAct a s).fault = s.fault := by cases a <;> rfl
@[simp] theorem hostAct_cfg (a : HostAct) (s : State) : (hostAct a s).cfg = s.cfg := by cases a <;> rfl
@[simp] theorem hostAct_bus (a : HostAct) (s : State) : (hostAct a s).bus = s.bus := by cases a <;> rfl
@[simp] theorem hostAct_irq (a : HostAct) (s : State) : (hostAct a s).irq = s.irq := by cases a <;> rfl
@[simp] theorem hostAct_xfer (a : HostAct) (s : State) : (hostAct a s).xfer = s.xfer := by cases a <;> rfl
@[simp] theorem hostAct_draws (a : HostAct) (s : State) : (hostAct a s).draws = s.draws := by cases a <;> rfl
@[simp] theorem hostAct_bufEpoch (a : HostAct) (s : State) : (hostAct a s).bufEpoch = s.bufEpoch := by cases a <;> rfl
@[simp] theorem hostAct_lineLog (a : HostAct) (s : State) : (hostAct a s).lineLog = s.lineLog := by cases a <;> rfl
@[simp] theorem hostAct_resets (a : HostAct) (s : State) : (hostAct a s).resets = s.resets := by cases a <;> rfl
@[simp] theorem hostAct_host (a : HostAct) (s : State) : (hostAct a s).host = s.host := by cases a <;> rfl

@[simp] theorem deliverMoves_out (ms : List HostMove) (s : State) : (deliverMoves ms s).out = s.out := by
  induction ms generalizing s with
  | nil => rfl
  | cons m ms ih => simp only [deliverMoves]; split <;> simp [ih]
@[simp] theorem deliver_out (s : State) : (deliver s).out = s.out := deliverMoves_out s.host s
@[simp] theorem deliverMoves_eoi (ms : List HostMove) (s : State) : (deliverMoves ms s).eoi = s.eoi := by
  induction ms generalizing s with
  | nil => rfl
  | cons m ms ih => simp only [deliverMoves]; split <;> simp [ih]
@[simp] theorem deliver_eoi (s : State) : (deliver s).eoi = s.eoi := deliverMoves_eoi s.host s
@[simp] theorem deliverMoves_buf (ms : List HostMove) (s : State) : (deliverMoves ms s).buf = s.buf := by
  induction ms generalizing s with
  | nil => rfl
  | cons m ms ih => simp only [deliverMoves]; split <;> simp [ih]
@[simp] theorem deliver_buf (s : State) : (deliver s).buf = s.buf := deliverMoves_buf s.host s
@[simp] theorem deliverMoves_len (ms : List HostMove) (s : State) : (deliverMoves ms s).len = s.len := by
  induction ms generalizing s with
  | nil => rfl
  | cons m ms ih => simp only [deliverMoves]; split <;> simp [ih]
@[simp] theorem deliver_len (s : State) : (deliver s).len = s.len := deliverMoves_len s.host s
@[simp] theorem deliverMoves_req (ms : List HostMove) (s : State) : (deliverMoves ms s).req = s.req := by
  induction ms generalizing s with
  | nil => rfl
  | cons m ms ih => simp only [deliverMoves]; split <;> simp [ih]
@[simp] theorem deliver_req (s : State) : (deliver s).req = s.req := deliverMoves_req s.host s
@[simp] theorem deliverMoves_result (ms : List HostMove) (s : State) : (deliverMoves ms s).result = s.result := by
  induction ms generalizing s with
  | nil => rfl
  | cons m ms ih => simp only [deliverMoves]; split <;> simp [ih]
@[simp] theorem deliver_result (s : State) : (deliver s).result = s.result := deliverMoves_result s.host s
@[simp] theorem deliverMoves_collected (ms : List HostMove) (s : State) : (deliverMoves ms s).collected = s.collected := by
  induction ms generalizing s with
  | nil => rfl
  | cons m ms ih => simp only [deliverMoves]; split <;> simp [ih]
@[simp] theorem deliver_collected (s : State) : (deliver s).collected = s.collected := deliverMoves_collected s.host s
@[simp] theorem deliverMoves_ie (ms : List HostMove) (s : State) : (deliverMoves ms s).ie = s.ie := by
  induction ms generalizing s with
  | nil => rfl
  | cons m ms ih => simp only [deliverMoves]; split <;> simp [ih]
@[simp] theorem deliver_ie (s : State) : (deliver s).ie = s.ie := deliverMoves_ie s.host s
@[simp] theorem deliverMoves_ieSaved (ms : List HostMove) (s : State) : (deliverMoves ms s).ieSaved = s.ieSaved := by
  induction ms generalizing s with
  | nil => rfl
  | cons m ms ih => simp only [deliverMoves]; split <;> simp [ih]
@[simp] theorem deliver_ieSaved (s : State) : (deliver s).ieSaved = s.ieSaved := deliverMoves_ieSaved s.host s
@[simp] theorem deliverMoves_now (ms : List HostMove) (s : State) : (deliverMoves ms s).now = s.now := by
  induction ms generalizing s with
  | nil => rfl
  | cons m ms ih => simp only [deliverMoves]; split <;> simp [ih]
@[simp] theorem deliver_now (s : State) : (deliver s).now = s.now := deliverMoves_now s.host s
@[simp] theorem deliverMoves_wdtLast (ms : List HostMove) (s : State) : (deliverMoves ms s).wdtLast = s.wdtLast := by
  induction ms generalizing s with
  | nil => rfl
  | cons m ms ih => simp only [deliverMoves]; split <;> simp [ih]
@[simp] theorem deliver_wdtLast (s : State) : (deliver s).wdtLast = s.wdtLast := deliverMoves_wdtLast s.host s
@[simp] theorem deliverMoves_pc (ms : List HostMove) (s : State) : (deliverMoves ms s).pc = s.pc := by
  induction ms generalizing s with
  | nil => rfl
  | cons m ms ih => simp only [deliverMoves]; split <;> simp [ih]
@[simp] theorem deliver_pc (s : State) : (deliver s).pc = s.pc := deliverMoves_pc s.host s
@[simp] theorem deliverMoves_stack (ms : List HostMove) (s : State) : (deliverMoves ms s).stack = s.stack := by
  induction ms generalizing s with
  | nil => rfl
  | cons m ms ih => simp only [deliverMoves]; split <;> simp [ih]
@[simp] theorem deliver_stack (s : State) : (deliver s).stack = s.stack := deliverMoves_stack s.host s
@[simp] theorem deliverMoves_sr (ms : List HostMove) (s : State) : (deliverMoves ms s).sr = s.sr := by
  induction ms generalizing s with
  | nil => rfl
  | cons m ms ih => simp only [deliverMoves]; split <;> simp [ih]
@[simp] theorem deliver_sr (s : State) : (deliver s).sr = s.sr := deliverMoves_sr s.host s
@[simp] theorem deliverMoves_bitn (ms : List HostMove) (s : State) : (deliverMoves ms s).bitn = s.bitn := by
  induction ms generalizing s with
  | nil => rfl
  | cons m ms ih => simp only [deliverMoves]; split <;> simp [ih]
@[simp] theorem deliver_bitn (s : State) : (deliver s).bitn = s.bitn := deliverMoves_bitn s.host s
@[simp] theorem deliverMoves_idx (ms : List HostMove) (s : State) : (deliverMoves ms s).idx = s.idx := by
  induction ms generalizing s with
  | nil => rfl
  | cons m ms ih => simp only [deliverMoves]; split <;> simp [ih]
@[simp] theorem deliver_idx (s : State) : (deliver s).idx = s.idx := deliverMoves_idx s.host s
@[simp] theorem deliverMoves_cnt (ms : List HostMove) (s : State) : (deliverMoves ms s).cnt = s.cnt := by
  induction ms generalizing s with
  | nil => rfl
  | cons m ms ih => simp only [deliverMoves]; split <;> simp [ih]
@[simp] theorem deliver_cnt (s : State) : (deliver s).cnt = s.cnt := deliverMoves_cnt s.host s
@[simp] theorem deliverMoves_ok (ms : List HostMove) (s : State) : (deliverMoves ms s).ok = s.ok := by
  induction ms generalizing s with
  | nil => rfl
  | cons m ms ih => simp only [deliverMoves]; split <;> simp [ih]
@[simp] theorem deliver_ok (s : State) : (deliver s).ok = s.ok := deliverMoves_ok s.host s
@[simp] theorem deliverMoves_t0 (ms : List HostMove) (s : State) : (deliverMoves ms s).t0 = s.t0 := by
  induction ms generalizing s with
  | nil => rfl
  | cons m ms ih => simp only [deliverMoves]; split <;> simp [ih]
@[simp] theorem deliver_t0 (s : State) : (deliver s).t0 = s.t0 := deliverMoves_t0 s.host s
@[simp] theorem deliverMoves_trace (ms : List HostMove) (s : State) : (deliverMoves ms s).trace = s.trace := by
  induction ms generalizing s with
  | nil => rfl
  | cons m ms ih => simp only [deliverMoves]; split <;> simp [ih]
@[simp] theorem deliver_trace (s : State) : (deliver s).trace = s.trace := deliverMoves_trace s.host s
@[simp] theorem deliverMoves_fault (ms : List HostMove) (s : State) : (deliverMoves ms s).fault = s.fault := by
  induction ms generalizing s with
  | nil => rfl
  | cons m ms ih => simp only [deliverMoves]; split <;> simp [ih]
@[simp] theorem deliver_fault (s : State) : (deliver s).fault = s.fault := deliverMoves_fault s.host s
@[simp] theorem deliverMoves_cfg (ms : List HostMove) (s : State) : (deliverMoves ms s).cfg = s.cfg := by
  induction ms generalizing s with
  | nil => rfl
  | cons m ms ih => simp only [deliverMoves]; split <;> simp [ih]
@[simp] theorem deliver_cfg (s : State) : (deliver s).cfg = s.cfg := deliverMoves_cfg s.host s
@[simp] theorem deliverMoves_bus (ms : List HostMove) (s : State) : (deliverMoves ms s).bus = s.bus := by
  induction ms generalizing s with
  | nil => rfl
  | cons m ms ih => simp only [deliverMoves]; split <;> simp [ih]
@[simp] theorem deliver_bus (s : State) : (deliver s).bus = s.bus := deliverMoves_bus s.host s
@[simp] theorem deliverMoves_irq (ms : List HostMove) (s : State) : (deliverMoves ms s).irq = s.irq := by
  induction ms generalizing s with
  | nil => rfl
  | cons m ms ih => simp only [deliverMoves]; split <;> simp [ih]
@[simp] theorem deliver_irq (s : State) : (deliver s).irq = s.irq := deliverMoves_irq s.host s
@[simp] theorem deliverMoves_xfer (ms : List HostMove) (s : State) : (deliverMoves ms s).xfer = s.xfer := by
  induction ms generalizing s with
  | nil => rfl
  | cons m ms ih => simp only [deliverMoves]; split <;> simp [ih]
@[simp] theorem deliver_xfer (s : State) : (deliver s).xfer = s.xfer := deliverMoves_xfer s.host s
@[simp] theorem deliverMoves_draws (ms : List HostMove) (s : State) : (deliverMoves ms s).draws = s.draws := by
  induction ms generalizing s with
  | nil => rfl
  | cons m ms ih => simp only [deliverMoves]; split <;> simp [ih]
@[simp] theorem deliver_draws (s : State) : (deliver s).draws = s.draws := deliverMoves_draws s.host s
@[simp] theorem deliverMoves_bufEpoch (ms : List HostMove) (s : State) : (deliverMoves ms s).bufEpoch = s.bufEpoch := by
  induction ms generalizing s with
  | nil => rfl
  | cons m ms ih => simp only [deliverMoves]; split <;> simp [ih]
@[simp] theorem deliver_bufEpoch (s : State) : (deliver s).bufEpoch = s.bufEpoch := deliverMoves_bufEpoch s.host s
@[simp] theorem deliverMoves_lineLog (ms : List HostMove) (s : State) : (deliverMoves ms s).lineLog = s.lineLog := by
  induction ms generalizing s with
  | nil => rfl
  | cons m ms ih => simp only [deliverMoves]; split <;> simp [ih]
@[simp] theorem deliver_lineLog (s : State) : (deliver s).lineLog = s.lineLog := deliverMoves_lineLog s.host s
@[simp] theorem deliverMoves_resets (ms : List HostMove) (s : State) : (deliverMoves ms s).resets = s.resets := by
  induction ms generalizing s with
  | nil => rfl
  | cons m ms ih => simp only [deliverMoves]; split <;> simp [ih]
@[simp] theorem deliver_resets (s : State) : (deliver s).resets = s.resets := deliverMoves_resets s.host s

@[simp] theorem watchdogReset_out (s : State) : (watchdogReset s).out = 0 := by simp [watchdogReset]
@[simp] theorem watchdogReset_eoi (s : State) : (watchdogReset s).eoi = false := by simp [watchdogReset]
@[simp] theorem watchdogReset_buf (s : State) : (watchdogReset s).buf = [] := by simp [watchdogReset]
@[simp] theorem watchdogReset_len (s : State) : (watchdogReset s).len = 0 := by simp [watchdogReset]
@[simp] theorem watchdogReset_req (s : State) : (watchdogReset s).req = .idle := by simp [watchdogReset]
@[simp] theorem watchdogReset_result (s : State) : (watchdogReset s).result = Config.freeByte (s.draws + 1) := by simp [watchdogReset]
@[simp] theorem watchdogReset_collected (s : State) : (watchdogReset s).collected = false := by simp [watchdogReset]
@[simp] theorem watchdogReset_ie (s : State) : (watchdogReset s).ie = true := by simp [watchdogReset]
@[simp] theorem watchdogReset_ieSaved (s : State) : (watchdogReset s).ieSaved = Config.freeBit (s.draws + 2) := by simp [watchdogReset]
@[simp] theorem watchdogReset_now (s : State) : (watchdogReset s).now = s.now := by simp [watchdogReset]
@[simp] theorem watchdogReset_wdtLast (s : State) : (watchdogReset s).wdtLast = s.now := by simp [watchdogReset]
@[simp] theorem watchdogReset_pc (s : State) : (watchdogReset s).pc = ⟨.main, 1⟩ := by simp [watchdogReset]
@[simp] theorem watchdogReset_stack (s : State) : (watchdogReset s).stack = [] := by simp [watchdogReset]
@[simp] theorem watchdogReset_sr (s : State) : (watchdogReset s).sr = none := by simp [watchdogReset]
@[simp] theorem watchdogReset_bitn (s : State) : (watchdogReset s).bitn = none := by simp [watchdogReset]
@[simp] theorem watchdogReset_idx (s : State) : (watchdogReset s).idx = none := by simp [watchdogReset]
@[simp] theorem watchdogReset_cnt (s : State) : (watchdogReset s).cnt = none := by simp [watchdogReset]
@[simp] theorem watchdogReset_ok (s : State) : (watchdogReset s).ok = none := by simp [watchdogReset]
@[simp] theorem watchdogReset_t0 (s : State) : (watchdogReset s).t0 = none := by simp [watchdogReset]
@[simp] theorem watchdogReset_hin (s : State) : (watchdogReset s).hin = [] := by simp [watchdogReset]
@[simp] theorem watchdogReset_hout (s : State) : (watchdogReset s).hout = [] := by simp [watchdogReset]
@[simp] theorem watchdogReset_trace (s : State) : (watchdogReset s).trace = s.trace := by simp [watchdogReset]
@[simp] theorem watchdogReset_fault (s : State) : (watchdogReset s).fault = s.fault := by simp [watchdogReset]
@[simp] theorem watchdogReset_cfg (s : State) : (watchdogReset s).cfg = s.cfg := by simp [watchdogReset]
@[simp] theorem watchdogReset_bus (s : State) : (watchdogReset s).bus = s.bus := by simp [watchdogReset]
@[simp] theorem watchdogReset_irq (s : State) : (watchdogReset s).irq = s.irq := by simp [watchdogReset]
@[simp] theorem watchdogReset_xfer (s : State) : (watchdogReset s).xfer = s.xfer := by simp [watchdogReset]
@[simp] theorem watchdogReset_host (s : State) : (watchdogReset s).host = (deliver s).host := rfl
@[simp] theorem watchdogReset_draws (s : State) : (watchdogReset s).draws = s.draws + 3 := by simp [watchdogReset]
@[simp] theorem watchdogReset_bufEpoch (s : State) : (watchdogReset s).bufEpoch = s.draws := by simp [watchdogReset]
@[simp] theorem watchdogReset_lineLog (s : State) : (watchdogReset s).lineLog = s.lineLog ++ [⟨s.now, s.pc, 0⟩] := by simp [watchdogReset]
@[simp] theorem watchdogReset_resets (s : State) : (watchdogReset s).resets = s.resets + 1 := by simp [watchdogReset]

/-- The reset sequence run on any power-on state (nothing drawn, no time passed, no trace, no fault, no input) gives
`State.reset` but for the log of its own line write: the reset state is R280's. -/
theorem resetEngine_powerOn (s : State) (hd : s.draws = 0) (hn : s.now = 0) (ht : s.trace = []) (hf : s.fault = none)
    (hc : s.cfg = Config.initial) (hb : s.bus = []) (hi : s.irq = []) (hx : s.xfer = []) (hh : s.host = [])
    (hr : s.resets = 0) : { resetEngine s with lineLog := [] } = State.reset := by
  simp [resetEngine, State.reset, hd, hn, ht, hf, hc, hb, hi, hx, hh, hr]

end Sys2Proof.Machine
end

