-- ==== Sys2Proof/Laws/Ops.lean ====
section
/-! SUPPORT. What each shared operation does when it runs: equations for the plain ones, case lemmas for those with a choice;
and the rule for sequencing. -/

namespace Sys2Proof.Machine

variable {α β : Type}

/-! ### Sequencing -/

/-- Running two operations in sequence. -/
theorem run_bind (m : Op α) (f : α → Op β) (s : State) :
    (m >>= f) s = match m s with | .ok a t => f a t | .error e t => .error e t := by
  cases h : m s <;> simp [bind, EStateM.bind, h]

@[simp] theorem run_bind_ok {m : Op α} {s t : State} {a : α} (h : m s = .ok a t) (f : α → Op β) :
    (m >>= f) s = f a t := by rw [run_bind, h]

@[simp] theorem run_bind_error {m : Op α} {s t : State} {e : Stop} (h : m s = .error e t) (f : α → Op β) :
    (m >>= f) s = .error e t := by rw [run_bind, h]

@[simp] theorem run_pure (a : α) (s : State) : (pure a : Op α) s = .ok a s := rfl

@[simp] theorem run_get (s : State) : (get : Op State) s = .ok s s := rfl

theorem run_map (f : α → β) (m : Op α) (s : State) :
    (f <$> m) s = match m s with | .ok a t => .ok (f a) t | .error e t => .error e t := by
  cases h : m s <;> simp [Functor.map, EStateM.map, h]

/-- The branches of a conditional operation. -/
theorem run_ite (p : Prop) [Decidable p] (m k : Op α) (s : State) :
    (if p then m else k) s = if p then m s else k s := by split <;> rfl

/-- `finalState` of an operation that returns. -/
theorem finalState_ok {m : Op α} {s t : State} {a : α} (h : m s = .ok a t) : finalState m s = t := by
  simp [finalState, h]

/-- `finalState` of an operation that is abandoned. -/
theorem finalState_error {m : Op α} {s t : State} {e : Stop} (h : m s = .error e t) : finalState m s = t := by
  simp [finalState, h]

/-- A meaning always answers a next state. -/
@[simp] theorem answer_eq_next (m : Op α) (s t : State) : answer m s = .next t ↔ finalState m s = t := by
  simp [answer]

/-! ### Location, faults, registers -/

@[simp] theorem run_line (k : Nat) (s : State) : line k s = .ok () { s with pc := { s.pc with line := k } } := rfl

@[simp] theorem run_raise (k : FaultKind) (s : State) :
    (raise k : Op α) s = .error .faulted { s with fault := some k } := rfl

@[simp] theorem run_hang (s : State) : (hang : Op α) s = .error .hung s := rfl

@[simp] theorem run_setSr (v : Byte) (s : State) : setSr v s = .ok () { s with sr := some v } := rfl
@[simp] theorem run_setBitn (n : Nat) (s : State) : setBitn n s = .ok () { s with bitn := some n } := rfl
@[simp] theorem run_setIdx (n : Nat) (s : State) : setIdx n s = .ok () { s with idx := some n } := rfl
@[simp] theorem run_setCnt (n : Nat) (s : State) : setCnt n s = .ok () { s with cnt := some n } := rfl
@[simp] theorem run_setOk (b : Bool) (s : State) : setOk b s = .ok () { s with ok := some b } := rfl
@[simp] theorem run_setT0 (t : Nat) (s : State) : setT0 t s = .ok () { s with t0 := some t } := rfl
@[simp] theorem run_putOut (v : Lines) (s : State) :
    putOut v s = .ok () { s with out := v, lineLog := s.lineLog ++ [⟨s.now, s.pc, v⟩] } := rfl
@[simp] theorem run_assertLines (m : Lines) (s : State) :
    assertLines m s = .ok () { s with out := s.out ||| m, lineLog := s.lineLog ++ [⟨s.now, s.pc, s.out ||| m⟩] } := rfl
@[simp] theorem run_releaseLines (m : Lines) (s : State) :
    releaseLines m s = .ok () { s with out := s.out &&& ~~~m, lineLog := s.lineLog ++ [⟨s.now, s.pc, s.out &&& ~~~m⟩] } := rfl
@[simp] theorem run_setReleaseLines (a r : Lines) (s : State) :
    setReleaseLines a r s = .ok () { s with
      out := (s.out ||| a) &&& ~~~r, lineLog := s.lineLog ++ [⟨s.now, s.pc, (s.out ||| a) &&& ~~~r⟩] } := rfl
@[simp] theorem run_log (e : Event) (s : State) : log e s = .ok () { s with trace := s.trace ++ [e] } := rfl
@[simp] theorem run_statusHook (s : State) : statusHook s = .ok () { s with trace := s.trace ++ [.status] } := rfl
@[simp] theorem run_kickWatchdog (s : State) : kickWatchdog s = .ok () (kicked s) := rfl
@[simp] theorem run_respond (f : List Byte) (s : State) : respond f s = .ok () { s with hout := s.hout ++ [f] } := rfl
@[simp] theorem run_drawResult (s : State) :
    drawResult s = .ok () { s with result := Config.freeByte s.draws, draws := s.draws + 1 } := rfl

/-- A written register is read. -/
theorem run_readReg {get : State → Option α} {s : State} {a : α} (h : get s = some a) : readReg get s = .ok a s := by
  simp [readReg, h]

/-- A call that returns leaves the caller's location and stack (R33). -/
theorem run_call (o : OpName) (m : Op α) (s : State) :
    call o m s = match m { s with pc := ⟨o, 1⟩, stack := s.pc :: s.stack } with
      | .ok a t => .ok a { t with pc := s.pc, stack := s.stack }
      | .error e t => .error e t := rfl

/-- A call that returns comes back to where it was called from. -/
theorem call_returns {o : OpName} {m : Op α} {s t : State} {a : α} (h : call o m s = .ok a t) :
    t.pc = s.pc ∧ t.stack = s.stack := by
  rw [run_call] at h
  split at h
  · cases h; exact ⟨rfl, rfl⟩
  · cases h

/-! ### Time -/

/-- Time passes without a watchdog reset exactly when it does not outlast `T_WDT` since the last kick (R258). -/
theorem run_passTime (d : Nat) (s : State) (h : s.now + d ≤ s.wdtLast + s.cfg.tWdt) :
    passTime d s = .ok () { s with now := s.now + d } := by
  simp [passTime, Nat.not_lt.mpr h]

/-- Where it does, the watchdog resets the engine at the first instant it has expired. -/
theorem run_passTime_expires (d : Nat) (s : State) (h : s.wdtLast + s.cfg.tWdt < s.now + d) :
    passTime d s = .error .watchdog (watchdogReset { s with now := max s.now (s.wdtLast + s.cfg.tWdt + 1) }) := by
  simp [passTime, h]

@[simp] theorem run_takeIrq (s : State) : takeIrq s = .ok (irqChoice s) (irqTaken s) := rfl

/-- `Delay(d)` is one choice of the interrupt sources and then time passing (R110). -/
theorem run_delay (d : Nat) (s : State) :
    delay d s = passTime (delayLength (irqTaken s) d (irqChoice s)) (irqTaken s) := by
  rw [delay, run_bind, run_takeIrq]; rfl

/-- A delay lasts at least its length (R110). -/
theorem delayLength_ge (s : State) (d j : Nat) : d ≤ delayLength s d j := by
  unfold delayLength; split <;> omega

/-- In an atomic section a delay lasts at most `T_EPS` more than its length (R110). -/
theorem delayLength_atomic {s : State} (h : s.ie = false) (d j : Nat) : delayLength s d j ≤ d + s.cfg.tEps := by
  simp [delayLength, h]

/-- A bounded wait takes at least one sample (R111). -/
theorem one_le_sampleCount (T p : Nat) : 1 ≤ sampleCount T p := Nat.le_max_left _ _

/-! ### Memory -/

/-- A write and then a read of the same address gives the byte written. -/
@[simp] theorem cellAt_cellSet_same (m : List Host.Cell) (i : Nat) (v : Byte) : cellAt (cellSet m i v) i = some v := by
  induction m with
  | nil => simp [cellSet, cellAt]
  | cons c rest ih =>
    obtain ⟨a, b⟩ := c
    simp only [cellSet]
    split
    · simp [cellAt]
    · split
      · simp [cellAt]
      · rename_i h; simp [cellAt, Ne.symm h, ih]

/-- A write leaves every other address alone. -/
theorem cellAt_cellSet_other (m : List Host.Cell) {i j : Nat} (v : Byte) (h : j ≠ i) :
    cellAt (cellSet m i v) j = cellAt m j := by
  induction m with
  | nil => simp [cellSet, cellAt, Ne.symm h]
  | cons c rest ih =>
    obtain ⟨a, b⟩ := c
    simp only [cellSet]
    split
    · simp [cellAt, Ne.symm h]
    · split
      · rename_i h'; subst h'; simp [cellAt, Ne.symm h]
      · simp [cellAt, ih]

/-- The addresses of a written memory: those it had, and the one written. -/
theorem mem_cellSet {m : List Host.Cell} {i : Nat} {v : Byte} {c : Host.Cell} (h : c ∈ cellSet m i v) :
    c.1 = i ∨ c ∈ m := by
  induction m with
  | nil => simp [cellSet] at h; simp [h]
  | cons d rest ih =>
    obtain ⟨a, b⟩ := d
    simp only [cellSet] at h
    split at h
    · rcases List.mem_cons.mp h with h | h
      · simp [h]
      · exact .inr h
    · split at h
      · rcases List.mem_cons.mp h with h | h
        · simp [h]
        · simp [h]
      · rcases List.mem_cons.mp h with h | h
        · simp [h]
        · rcases ih h with h | h <;> simp [h]

/-- A write keeps the canonical form. -/
theorem wf_cellSet {m : List Host.Cell} (h : Memory.wf m = true) (i : Nat) (v : Byte) : Memory.wf (cellSet m i v) = true := by
  simp only [Memory.wf, decide_eq_true_eq] at h ⊢
  induction m with
  | nil => simp [cellSet]
  | cons c rest ih =>
    obtain ⟨a, b⟩ := c
    have hr := (List.pairwise_cons.mp h).1
    have ht := (List.pairwise_cons.mp h).2
    simp only [cellSet]
    split
    · refine List.pairwise_cons.mpr ⟨fun y hy => ?_, h⟩
      rcases List.mem_cons.mp hy with rfl | hy
      · assumption
      · exact Nat.lt_trans ‹_› (hr y hy)
    · split
      · rename_i h'; subst h'; exact List.pairwise_cons.mpr ⟨hr, ht⟩
      · refine List.pairwise_cons.mpr ⟨fun y hy => ?_, ih ht⟩
        rcases mem_cellSet hy with hy | hy
        · simp only [hy]; omega
        · exact hr y hy

/-- Writing a run of bytes keeps the canonical form. -/
theorem wf_pokeBytes {m : List Host.Cell} (h : Memory.wf m = true) (i : Nat) (bs : List Byte) :
    Memory.wf (pokeBytes m i bs) = true := by
  induction bs generalizing m i with
  | nil => exact h
  | cons b bs ih => exact ih (wf_cellSet h i b) (i + 1)

/-- The addresses of a memory after a run of bytes is written. -/
theorem mem_pokeBytes {m : List Host.Cell} {i : Nat} {bs : List Byte} {c : Host.Cell} (h : c ∈ pokeBytes m i bs) :
    c.1 < i + bs.length ∨ c ∈ m := by
  induction bs generalizing m i with
  | nil => exact .inr h
  | cons b bs ih =>
    rcases ih h with h | h
    · left; simp only [List.length_cons]; omega
    · rcases mem_cellSet h with h | h
      · left; simp only [List.length_cons]; omega
      · exact .inr h

/-- A run of written bytes leaves every address outside it alone. -/
theorem cellAt_pokeBytes_outside (m : List Host.Cell) (i : Nat) (bs : List Byte) {j : Nat} (h : j < i ∨ i + bs.length ≤ j) :
    cellAt (pokeBytes m i bs) j = cellAt m j := by
  induction bs generalizing m i with
  | nil => rfl
  | cons b bs ih =>
    simp only [List.length_cons] at h
    rw [pokeBytes, ih _ (i + 1) (by omega), cellAt_cellSet_other _ _ (by omega)]

/-- A run of written bytes reads back. -/
theorem cellAt_pokeBytes_inside (m : List Host.Cell) (i : Nat) (bs : List Byte) {k : Nat} (h : k < bs.length) :
    cellAt (pokeBytes m i bs) (i + k) = some bs[k] := by
  induction bs generalizing m i k with
  | nil => simp at h
  | cons b bs ih =>
    cases k with
    | zero => rw [pokeBytes, cellAt_pokeBytes_outside _ _ _ (by omega)]; simp
    | succ k =>
      have := ih (cellSet m i b) (i + 1) (k := k) (by simpa using h)
      simpa [pokeBytes, Nat.add_assoc, Nat.add_comm 1 k] using this

/-- The reset state's memory is in canonical form. -/
theorem wf_reset : Memory.wf State.reset.buf = true := rfl

/-- `MemWrite` where the bytes fit (R12). -/
theorem run_memWrite (i : Nat) (bs : List Byte) (s : State) (h : i + bs.length ≤ s.cfg.bufCap) :
    memWrite i bs s = .ok () { s with buf := pokeBytes s.buf i bs } := by simp [memWrite, h]

/-- `MemRead` where the bytes exist (R12). -/
theorem run_memRead (i n : Nat) (s : State) (h : i + n ≤ s.cfg.bufCap) : memRead i n s = .ok (peekBytes s i n) s := by
  simp [memRead, h]

/-- One byte read where it exists. -/
theorem run_memReadByte (i : Nat) (s : State) (h : i < s.cfg.bufCap) : memReadByte i s = .ok (peek s i) s := by
  simp [memReadByte, h]

/-! ### The transport -/

@[simp] theorem run_takeXfer (s : State) : takeXfer s = .ok (xferChoice s) (xferTaken s) := rfl

/-! ### Checks -/

theorem run_requireHost {p : State → Bool} {s : State} (h : p s = true) : requireHost p s = .ok () s := by
  simp [requireHost, h]

theorem run_requireOperand {p : Bool} (h : p = true) (s : State) : requireOperand p s = .ok () s := by
  simp [requireOperand, h]

end Sys2Proof.Machine
end

