-- ==== Sys2Proof/Laws/Frames.lean ====
section
/-! SUPPORT. What each operation leaves unchanged. `Within R m` says that `m` moves along the relation `R`, up to a watchdog
reset or a raised fault; `Frame may` is the relation that changes only the parts of the state named in `may`. -/

namespace Sys2Proof.Machine

variable {α β : Type}

/-- How a run from `s` ends along `R`: where it returns or never ends, at its end; where a fault is raised, at the state it is
raised in; where the watchdog resets the engine, at the state that is reset. -/
def Lands (R : State → State → Prop) (s : State) : EStateM.Result Stop State α → Prop
  | .ok _ t => R s t
  | .error .hung t => R s t
  | .error .faulted t => ∃ u k, R s u ∧ t = { u with fault := some k }
  | .error .watchdog t => ∃ u, R s u ∧ t = watchdogReset u

/-- Every run of `m` ends along `R`. -/
def Within (R : State → State → Prop) (m : Op α) : Prop := ∀ s, Lands R s (m s)

theorem lands_mono {R R' : State → State → Prop} {s s' : State} (h : ∀ {t}, R s t → R' s' t)
    {x : EStateM.Result Stop State α} (hx : Lands R s x) : Lands R' s' x := by
  cases x with
  | ok a t => exact h hx
  | error e t =>
    cases e with
    | hung => exact h hx
    | faulted => obtain ⟨v, k, r, e⟩ := hx; exact ⟨v, k, h r, e⟩
    | watchdog => obtain ⟨v, r, e⟩ := hx; exact ⟨v, h r, e⟩

/-- An operation after which control always goes on. -/
theorem within_of_ok {R : State → State → Prop} {m : Op α} (h : ∀ s, ∃ a t, m s = .ok a t ∧ R s t) : Within R m := by
  intro s
  obtain ⟨a, t, e, r⟩ := h s
  rw [e]; exact r

theorem within_bind {R : State → State → Prop} (tr : ∀ {a b c}, R a b → R b c → R a c) {m : Op α} {f : α → Op β}
    (hm : Within R m) (hf : ∀ a, Within R (f a)) : Within R (m >>= f) := by
  intro s
  have h1 := hm s
  cases hs : m s with
  | ok a t =>
    rw [run_bind_ok hs]
    rw [hs] at h1
    exact lands_mono (fun h2 => tr h1 h2) (hf a t)
  | error e t =>
    rw [run_bind_error hs]
    rw [hs] at h1
    cases e <;> exact h1

theorem within_ite {R : State → State → Prop} {p : Prop} [Decidable p] {m k : Op α} (hm : Within R m) (hk : Within R k) :
    Within R (if p then m else k) := by split <;> assumption

theorem within_mono {R R' : State → State → Prop} (h : ∀ {s t}, R s t → R' s t) {m : Op α} (hm : Within R m) :
    Within R' m := fun s => lands_mono h (hm s)

/-- What can be read off the final state of an operation that moves along `R`, when no watchdog reset has happened: the state
that `R` reaches, but for `FAULT`. -/
theorem within_final {R : State → State → Prop} {m : Op α} (hm : Within R m) (hr : ∀ {s t}, R s t → t.resets = s.resets)
    {s : State} (h : (finalState m s).resets = s.resets) :
    R s (finalState m s) ∨ ∃ u k, R s u ∧ finalState m s = { u with fault := some k } := by
  have h1 := hm s
  unfold finalState at h ⊢
  cases hs : m s with
  | ok a t => rw [hs] at h1; exact .inl h1
  | error e t =>
    rw [hs] at h1 h
    cases e with
    | hung => exact .inl h1
    | faulted => exact .inr h1
    | watchdog =>
      obtain ⟨v, r, e⟩ := h1
      have h' : t.resets = s.resets := h
      rw [e, watchdogReset_resets, hr r] at h'
      omega

/-! ### The parts of the state -/

/-- The parts of the state an operation may change. The four lines of `OUT` are parts of their own. -/
inductive Part
  | outData | outClock | outAtn | outReset
  | eoi | buf | len | req | result | collected | ie | ieSaved | now | wdtLast
  | sr | bitn | idx | cnt | ok | t0 | hin | hout | trace | irq | xfer | host | draws | bufEpoch | lineLog
  deriving DecidableEq, Repr

/-- A part has the same value in two states. -/
def samePart (s t : State) : Part → Prop
  | .outData => t.out.getLsbD 0 = s.out.getLsbD 0
  | .outClock => t.out.getLsbD 1 = s.out.getLsbD 1
  | .outAtn => t.out.getLsbD 2 = s.out.getLsbD 2
  | .outReset => t.out.getLsbD 3 = s.out.getLsbD 3
  | .eoi => t.eoi = s.eoi
  | .buf => t.buf = s.buf
  | .len => t.len = s.len
  | .req => t.req = s.req
  | .result => t.result = s.result
  | .collected => t.collected = s.collected
  | .ie => t.ie = s.ie
  | .ieSaved => t.ieSaved = s.ieSaved
  | .now => t.now = s.now
  | .wdtLast => t.wdtLast = s.wdtLast
  | .sr => t.sr = s.sr
  | .bitn => t.bitn = s.bitn
  | .idx => t.idx = s.idx
  | .cnt => t.cnt = s.cnt
  | .ok => t.ok = s.ok
  | .t0 => t.t0 = s.t0
  | .hin => t.hin = s.hin
  | .hout => t.hout = s.hout
  | .trace => t.trace = s.trace
  | .irq => t.irq = s.irq
  | .xfer => t.xfer = s.xfer
  | .host => t.host = s.host
  | .draws => t.draws = s.draws
  | .bufEpoch => t.bufEpoch = s.bufEpoch
  | .lineLog => t.lineLog = s.lineLog

/-- What nothing but a fault or a watchdog reset changes: parameters, the environment's input, `FAULT`, the reset count; and time
does not go back (R32). -/
def fixedPart (s t : State) : Prop :=
  t.cfg = s.cfg ∧ t.bus = s.bus ∧ t.fault = s.fault ∧ t.resets = s.resets ∧ s.now ≤ t.now

/-- Only the parts in `may` (and the control location) may differ. -/
def Frame (may : List Part) (s t : State) : Prop := fixedPart s t ∧ ∀ p, p ∉ may → samePart s t p

theorem frame_refl (may : List Part) (s : State) : Frame may s s :=
  ⟨⟨rfl, rfl, rfl, rfl, Nat.le_refl _⟩, fun p _ => by cases p <;> rfl⟩

theorem samePart_trans {s t u : State} {p : Part} (h1 : samePart s t p) (h2 : samePart t u p) : samePart s u p := by
  cases p <;> simp only [samePart] at * <;> rw [h2, h1]

theorem frame_trans {may : List Part} {s t u : State} (h1 : Frame may s t) (h2 : Frame may t u) : Frame may s u := by
  obtain ⟨⟨a1, b1, c1, d1, e1⟩, f1⟩ := h1
  obtain ⟨⟨a2, b2, c2, d2, e2⟩, f2⟩ := h2
  exact ⟨⟨by rw [a2, a1], by rw [b2, b1], by rw [c2, c1], by rw [d2, d1], Nat.le_trans e1 e2⟩,
    fun p hp => samePart_trans (f1 p hp) (f2 p hp)⟩

theorem frame_mono {may may' : List Part} (h : may ⊆ may') {s t : State} (hf : Frame may s t) : Frame may' s t :=
  ⟨hf.1, fun p hp => hf.2 p fun hm => hp (h hm)⟩

theorem frame_resets {may : List Part} {s t : State} (h : Frame may s t) : t.resets = s.resets := h.1.2.2.2.1

/-- A call keeps to the frame of what it calls. -/
theorem within_call {may : List Part} {o : OpName} {m : Op α} (hm : Within (Frame may) m) : Within (Frame may) (call o m) := by
  intro s
  have h1 := hm { s with pc := ⟨o, 1⟩, stack := s.pc :: s.stack }
  have out : ∀ {t}, Frame may { s with pc := ⟨o, 1⟩, stack := s.pc :: s.stack } t → Frame may s t := fun h =>
    ⟨h.1, fun p hp => by have := h.2 p hp; cases p <;> exact this⟩
  rw [run_call]
  cases hs : m { s with pc := ⟨o, 1⟩, stack := s.pc :: s.stack } with
  | ok a t =>
    rw [hs] at h1
    have h2 := out h1
    exact ⟨h2.1, fun p hp => by have := h2.2 p hp; cases p <;> exact this⟩
  | error e t =>
    rw [hs] at h1
    exact lands_mono out h1

/-! ### The primitives -/

section primitives
variable {may : List Part}

theorem frameBind {m : Op α} {f : α → Op β} (hm : Within (Frame may) m) (hf : ∀ a, Within (Frame may) (f a)) :
    Within (Frame may) (m >>= f) := within_bind (R := Frame may) (fun h1 h2 => frame_trans h1 h2) hm hf

theorem frame_pure (a : α) : Within (Frame may) (pure a : Op α) := within_of_ok fun s => ⟨a, s, rfl, frame_refl _ s⟩

theorem frame_get : Within (Frame may) (get : Op State) := within_of_ok fun s => ⟨s, s, rfl, frame_refl _ s⟩

theorem frame_line (k : Nat) : Within (Frame may) (line k) :=
  within_of_ok fun s => ⟨(), _, rfl, ⟨rfl, rfl, rfl, rfl, Nat.le_refl _⟩, fun p _ => by cases p <;> rfl⟩

theorem frame_raise (k : FaultKind) : Within (Frame may) (raise k : Op α) := fun s => ⟨s, k, frame_refl _ s, rfl⟩

theorem frame_hang : Within (Frame may) (hang : Op α) := fun s => frame_refl _ s

theorem frame_readReg (g : State → Option α) : Within (Frame may) (readReg g) := by
  intro s
  unfold readReg
  cases h : g s with
  | none => exact ⟨s, _, frame_refl _ s, rfl⟩
  | some a => exact frame_refl _ s

theorem frame_setSr (v : Byte) (h : Part.sr ∈ may) : Within (Frame may) (setSr v) :=
  within_of_ok fun s => ⟨(), _, rfl, ⟨rfl, rfl, rfl, rfl, Nat.le_refl _⟩, fun p hp => by
    cases p <;> first | rfl | exact absurd h hp⟩

theorem frame_setBitn (n : Nat) (h : Part.bitn ∈ may) : Within (Frame may) (setBitn n) :=
  within_of_ok fun s => ⟨(), _, rfl, ⟨rfl, rfl, rfl, rfl, Nat.le_refl _⟩, fun p hp => by
    cases p <;> first | rfl | exact absurd h hp⟩

theorem frame_setIdx (n : Nat) (h : Part.idx ∈ may) : Within (Frame may) (setIdx n) :=
  within_of_ok fun s => ⟨(), _, rfl, ⟨rfl, rfl, rfl, rfl, Nat.le_refl _⟩, fun p hp => by
    cases p <;> first | rfl | exact absurd h hp⟩

theorem frame_setCnt (n : Nat) (h : Part.cnt ∈ may) : Within (Frame may) (setCnt n) :=
  within_of_ok fun s => ⟨(), _, rfl, ⟨rfl, rfl, rfl, rfl, Nat.le_refl _⟩, fun p hp => by
    cases p <;> first | rfl | exact absurd h hp⟩

theorem frame_setOk (b : Bool) (h : Part.ok ∈ may) : Within (Frame may) (setOk b) :=
  within_of_ok fun s => ⟨(), _, rfl, ⟨rfl, rfl, rfl, rfl, Nat.le_refl _⟩, fun p hp => by
    cases p <;> first | rfl | exact absurd h hp⟩

theorem frame_setT0 (t : Nat) (h : Part.t0 ∈ may) : Within (Frame may) (setT0 t) :=
  within_of_ok fun s => ⟨(), _, rfl, ⟨rfl, rfl, rfl, rfl, Nat.le_refl _⟩, fun p hp => by
    cases p <;> first | rfl | exact absurd h hp⟩

theorem frame_setEoi (b : Bool) (h : Part.eoi ∈ may) : Within (Frame may) (setEoi b) :=
  within_of_ok fun s => ⟨(), _, rfl, ⟨rfl, rfl, rfl, rfl, Nat.le_refl _⟩, fun p hp => by
    cases p <;> first | rfl | exact absurd h hp⟩

theorem frame_setReq (r : ReqState) (h : Part.req ∈ may) : Within (Frame may) (setReq r) :=
  within_of_ok fun s => ⟨(), _, rfl, ⟨rfl, rfl, rfl, rfl, Nat.le_refl _⟩, fun p hp => by
    cases p <;> first | rfl | exact absurd h hp⟩

theorem frame_setLen (n : Byte) (h : Part.len ∈ may) : Within (Frame may) (setLen n) :=
  within_of_ok fun s => ⟨(), _, rfl, ⟨rfl, rfl, rfl, rfl, Nat.le_refl _⟩, fun p hp => by
    cases p <;> first | rfl | exact absurd h hp⟩

theorem frame_setResult (c : Nat) (h : Part.result ∈ may) : Within (Frame may) (setResult c) :=
  within_of_ok fun s => ⟨(), _, rfl, ⟨rfl, rfl, rfl, rfl, Nat.le_refl _⟩, fun p hp => by
    cases p <;> first | rfl | exact absurd h hp⟩

theorem frame_setCollected (b : Bool) (h : Part.collected ∈ may) : Within (Frame may) (setCollected b) :=
  within_of_ok fun s => ⟨(), _, rfl, ⟨rfl, rfl, rfl, rfl, Nat.le_refl _⟩, fun p hp => by
    cases p <;> first | rfl | exact absurd h hp⟩

theorem frame_respond (f : List Byte) (h : Part.hout ∈ may) : Within (Frame may) (respond f) :=
  within_of_ok fun s => ⟨(), _, rfl, ⟨rfl, rfl, rfl, rfl, Nat.le_refl _⟩, fun p hp => by
    cases p <;> first | rfl | exact absurd h hp⟩

theorem frame_log (e : Event) (h : Part.trace ∈ may) : Within (Frame may) (log e) :=
  within_of_ok fun s => ⟨(), _, rfl, ⟨rfl, rfl, rfl, rfl, Nat.le_refl _⟩, fun p hp => by
    cases p <;> first | rfl | exact absurd h hp⟩

theorem frame_kickWatchdog (h : Part.trace ∈ may) (h' : Part.wdtLast ∈ may) : Within (Frame may) kickWatchdog :=
  within_of_ok fun s => ⟨(), _, rfl, ⟨rfl, rfl, rfl, rfl, Nat.le_refl _⟩, fun p hp => by
    cases p <;> first | rfl | exact absurd h hp | exact absurd h' hp⟩

theorem frame_enterAtomic (h : Part.ie ∈ may) (h' : Part.ieSaved ∈ may) : Within (Frame may) enterAtomic :=
  within_of_ok fun s => ⟨(), _, rfl, ⟨rfl, rfl, rfl, rfl, Nat.le_refl _⟩, fun p hp => by
    cases p <;> first | rfl | exact absurd h hp | exact absurd h' hp⟩

theorem frame_exitAtomic (h : Part.ie ∈ may) : Within (Frame may) exitAtomic :=
  within_of_ok fun s => ⟨(), _, rfl, ⟨rfl, rfl, rfl, rfl, Nat.le_refl _⟩, fun p hp => by
    cases p <;> first | rfl | exact absurd h hp⟩

theorem frame_drawResult (h : Part.result ∈ may) (h' : Part.draws ∈ may) : Within (Frame may) drawResult :=
  within_of_ok fun s => ⟨(), _, rfl, ⟨rfl, rfl, rfl, rfl, Nat.le_refl _⟩, fun p hp => by
    cases p <;> first | rfl | exact absurd h hp | exact absurd h' hp⟩

/-- A line write keeps the lines outside its masks. -/
theorem frame_setReleaseLines (a r : Lines) (hl : Part.lineLog ∈ may)
    (h0 : (a ||| r).getLsbD 0 = true → Part.outData ∈ may) (h1 : (a ||| r).getLsbD 1 = true → Part.outClock ∈ may)
    (h2 : (a ||| r).getLsbD 2 = true → Part.outAtn ∈ may) (h3 : (a ||| r).getLsbD 3 = true → Part.outReset ∈ may) :
    Within (Frame may) (setReleaseLines a r) :=
  within_of_ok fun s => ⟨(), _, rfl, ⟨rfl, rfl, rfl, rfl, Nat.le_refl _⟩, fun p hp => by
    have key : ∀ i, i < 4 → (a ||| r).getLsbD i = false →
        ((s.out ||| a) &&& ~~~r).getLsbD i = s.out.getLsbD i := by
      intro i hi h
      simp only [BitVec.getLsbD_or, Bool.or_eq_false_iff] at h
      simp only [BitVec.getLsbD_and, BitVec.getLsbD_or, BitVec.getLsbD_not, h.1, h.2, hi]; simp
    have off : ∀ {i : Nat} {q : Part}, ((a ||| r).getLsbD i = true → q ∈ may) → q ∉ may → (a ||| r).getLsbD i = false := by
      intro i q hq hn
      cases hb : (a ||| r).getLsbD i with
      | false => rfl
      | true => exact absurd (hq hb) hn
    cases p
    case outData => exact key 0 (by omega) (off h0 hp)
    case outClock => exact key 1 (by omega) (off h1 hp)
    case outAtn => exact key 2 (by omega) (off h2 hp)
    case outReset => exact key 3 (by omega) (off h3 hp)
    case lineLog => exact absurd hl hp
    all_goals rfl⟩

theorem assertLines_eq (m : Lines) : assertLines m = setReleaseLines m 0 := by
  funext s
  have h0 : ~~~(0 : Lines) = BitVec.allOnes 4 := by decide
  have h : (s.out ||| m) &&& ~~~(0 : Lines) = s.out ||| m := by rw [h0, BitVec.and_allOnes]
  simp only [run_assertLines, run_setReleaseLines, h]

theorem releaseLines_eq (m : Lines) : releaseLines m = setReleaseLines 0 m := by
  funext s; simp

theorem frame_irqTaken (s : State) (h : Part.irq ∈ may) (h' : Part.draws ∈ may) : Frame may s (irqTaken s) := by
  unfold irqTaken
  split
  · exact ⟨⟨rfl, rfl, rfl, rfl, Nat.le_refl _⟩, fun p hp => by cases p <;> first | rfl | exact absurd h hp⟩
  · exact ⟨⟨rfl, rfl, rfl, rfl, Nat.le_refl _⟩, fun p hp => by cases p <;> first | rfl | exact absurd h' hp⟩

theorem frame_delay (d : Nat) (h : [Part.now, Part.irq, Part.draws] ⊆ may) : Within (Frame may) (delay d) := by
  have hn : Part.now ∈ may := h (by simp)
  have hi : Part.irq ∈ may := h (by simp)
  have hd : Part.draws ∈ may := h (by simp)
  have passed : ∀ (u : State) (t : Nat), u.now ≤ t → Frame may u { u with now := t } := fun u t ht =>
    ⟨⟨rfl, rfl, rfl, rfl, ht⟩, fun p hp => by cases p <;> first | rfl | exact absurd hn hp⟩
  intro s
  have h1 := frame_irqTaken s hi hd
  rw [run_delay]
  by_cases hx : (irqTaken s).wdtLast + (irqTaken s).cfg.tWdt < (irqTaken s).now + delayLength (irqTaken s) d (irqChoice s)
  · rw [run_passTime_expires _ _ hx]
    exact ⟨_, frame_trans h1 (passed _ _ (Nat.le_max_left _ _)), rfl⟩
  · rw [run_passTime _ _ (Nat.not_lt.mp hx)]
    exact frame_trans h1 (passed _ _ (Nat.le_add_right _ _))

theorem frame_takeXfer (h : [Part.xfer, Part.draws] ⊆ may) : Within (Frame may) takeXfer := by
  intro s
  rw [run_takeXfer]
  unfold xferTaken
  split
  · exact ⟨⟨rfl, rfl, rfl, rfl, Nat.le_refl _⟩, fun p hp => by
      cases p <;> first | rfl | exact absurd (h (by simp)) hp⟩
  · exact ⟨⟨rfl, rfl, rfl, rfl, Nat.le_refl _⟩, fun p hp => by
      cases p <;> first | rfl | exact absurd (h (by simp)) hp⟩

theorem frame_memRead (i n : Nat) : Within (Frame may) (memRead i n) := by
  intro s; unfold memRead
  split
  · exact frame_refl _ s
  · exact ⟨s, _, frame_refl _ s, rfl⟩

theorem frame_memReadByte (i : Nat) : Within (Frame may) (memReadByte i) := by
  intro s; unfold memReadByte
  split
  · exact frame_refl _ s
  · exact ⟨s, _, frame_refl _ s, rfl⟩

theorem frame_memWrite (i : Nat) (bs : List Byte) (h : Part.buf ∈ may) : Within (Frame may) (memWrite i bs) := by
  intro s; unfold memWrite
  split
  · exact ⟨⟨rfl, rfl, rfl, rfl, Nat.le_refl _⟩, fun p hp => by cases p <;> first | rfl | exact absurd h hp⟩
  · exact ⟨s, _, frame_refl _ s, rfl⟩

theorem frame_freeBytes (n : Nat) (h : Part.draws ∈ may) : Within (Frame may) (freeBytes n) :=
  within_of_ok fun s => ⟨_, _, rfl, ⟨rfl, rfl, rfl, rfl, Nat.le_refl _⟩, fun p hp => by
    cases p <;> first | rfl | exact absurd h hp⟩

theorem frame_requireHost (p : State → Bool) : Within (Frame may) (requireHost p) := by
  intro s; unfold requireHost
  split
  · exact frame_refl _ s
  · exact ⟨s, _, frame_refl _ s, rfl⟩

theorem frame_requireOperand (p : Bool) : Within (Frame may) (requireOperand p) := by
  intro s; unfold requireOperand
  split
  · exact frame_refl _ s
  · exact ⟨s, _, frame_refl _ s, rfl⟩

end primitives

/-! ### The waits -/

/-- What a wait without a kick may change (R111, R113): time and the interrupt sources' input. -/
def waitParts : List Part := [.now, .irq, .draws]

/-- What a wait with kicks may change (R112). -/
def kickParts : List Part := [.now, .irq, .draws, .wdtLast, .trace]

theorem frame_pollLoop_plain (c : State → Bool) (n : Nat) : Within (Frame waitParts) (pollLoop false c n) := by
  induction n with
  | zero => exact frameBind (frame_line _) fun _ => frame_pure _
  | succ n ih =>
    refine frameBind (frame_line _) fun _ => frameBind (frame_pure ()) fun _ => frameBind frame_get fun s => ?_
    refine within_ite (frame_pure _) ?_
    exact frameBind (frame_line _) fun _ => frameBind frame_get fun _ => frameBind (frame_delay _ (by simp [waitParts])) fun _ => ih

theorem frame_pollLoop_kick (c : State → Bool) (n : Nat) : Within (Frame kickParts) (pollLoop true c n) := by
  induction n with
  | zero => exact frameBind (frame_line _) fun _ => frame_pure _
  | succ n ih =>
    refine frameBind (frame_line _) fun _ =>
      frameBind (frame_kickWatchdog (by simp [kickParts]) (by simp [kickParts])) fun _ => frameBind frame_get fun s => ?_
    refine within_ite (frame_pure _) ?_
    exact frameBind (frame_line _) fun _ => frameBind frame_get fun _ => frameBind (frame_delay _ (by simp [kickParts])) fun _ => ih

theorem frame_waitUntil (c : State → Bool) (T : Nat) : Within (Frame waitParts) (waitUntil c T) :=
  within_call (frameBind frame_get fun _ => frame_pollLoop_plain c _)

theorem frame_waitUntilKick (c : State → Bool) (T : Nat) : Within (Frame kickParts) (waitUntilKick c T) :=
  within_call (frameBind frame_get fun _ => frame_pollLoop_kick c _)

theorem frame_foreverLoop (c : State → Bool) (n : Nat) : Within (Frame waitParts) (foreverLoop c n) := by
  induction n with
  | zero => exact frame_hang
  | succ n ih =>
    refine frameBind (frame_line _) fun _ => frameBind frame_get fun s => within_ite (frame_pure _) ?_
    exact frameBind (frame_line _) fun _ => frameBind frame_get fun _ => frameBind (frame_delay _ (by simp [waitParts])) fun _ => ih

theorem frame_waitForever (c : State → Bool) : Within (Frame waitParts) (waitForever c) :=
  within_call (frameBind frame_get fun _ => frame_foreverLoop c _)

/-! ### The engine operations: which parts each writes, as the "State written" lines of their rules say -/

/-- `send_byte` (R116): `SR`, `BITN`, `OK`, `IE`, `IE_SAVED`, DATA, CLOCK, time. -/
def sendParts : List Part := [.sr, .bitn, .ok, .ie, .ieSaved, .outData, .outClock, .now, .irq, .draws, .lineLog]

/-- `receive_byte` (R119): `SR`, `BITN`, `OK`, `IE`, `IE_SAVED`, time; no line. -/
def receiveParts : List Part := [.sr, .bitn, .ok, .ie, .ieSaved, .now, .irq, .draws]

/-- `write` (R140): those of `send_byte`, `EOI`, ATN, `IDX`, the returned count, the trace. -/
def writeParts : List Part :=
  [.sr, .bitn, .ok, .ie, .ieSaved, .outData, .outClock, .outAtn, .now, .irq, .draws, .lineLog, .eoi, .idx, .cnt, .trace]

/-- `read` (R155): those of `receive_byte`, `IDX`, `CNT`, `EOI`, `BUF`, DATA, `WDT_LAST`, the trace. -/
def readParts : List Part :=
  [.idx, .sr, .bitn, .ok, .ie, .ieSaved, .outData, .now, .irq, .draws, .lineLog, .eoi, .cnt, .buf, .wdtLast, .trace]

/-- `reset` (R164): the four lines, `T0`, `WDT_LAST`, time, the trace. -/
def resetParts : List Part :=
  [.outData, .outClock, .outAtn, .outReset, .t0, .wdtLast, .now, .irq, .draws, .lineLog, .trace]

theorem frame_assertLines {may : List Part} (m : Lines) (hl : Part.lineLog ∈ may)
    (h0 : m.getLsbD 0 = true → Part.outData ∈ may) (h1 : m.getLsbD 1 = true → Part.outClock ∈ may)
    (h2 : m.getLsbD 2 = true → Part.outAtn ∈ may) (h3 : m.getLsbD 3 = true → Part.outReset ∈ may) :
    Within (Frame may) (assertLines m) := by
  rw [assertLines_eq]
  exact frame_setReleaseLines m 0 hl (by simpa using h0) (by simpa using h1) (by simpa using h2) (by simpa using h3)

theorem frame_releaseLines {may : List Part} (m : Lines) (hl : Part.lineLog ∈ may)
    (h0 : m.getLsbD 0 = true → Part.outData ∈ may) (h1 : m.getLsbD 1 = true → Part.outClock ∈ may)
    (h2 : m.getLsbD 2 = true → Part.outAtn ∈ may) (h3 : m.getLsbD 3 = true → Part.outReset ∈ may) :
    Within (Frame may) (releaseLines m) := by
  rw [releaseLines_eq]
  exact frame_setReleaseLines 0 m hl (by simpa using h0) (by simpa using h1) (by simpa using h2) (by simpa using h3)

theorem within_widen {may may' : List Part} {m : Op α} (hm : Within (Frame may) m) (h : may ⊆ may') :
    Within (Frame may') m := within_mono (fun hf => frame_mono h hf) hm

theorem frame_driveBit (b : Bool) : Within (Frame sendParts) (driveBit b) :=
  within_ite (frame_pure _) (frame_assertLines _ (by decide) (by decide) (by decide) (by decide) (by decide))

theorem frame_sendBit : Within (Frame sendParts) sendBit :=
  frameBind (frame_line _) fun _ => frameBind frame_get fun _ => frameBind (frame_delay _ (by decide)) fun _ =>
  frameBind (frame_line _) fun _ => frameBind (frame_readReg _) fun _ => frameBind (frame_driveBit _) fun _ =>
  frameBind (frame_line _) fun _ =>
  frameBind (frame_releaseLines _ (by decide) (by decide) (by decide) (by decide) (by decide)) fun _ =>
  frameBind (frame_line _) fun _ => frameBind frame_get fun _ => frameBind (frame_delay _ (by decide)) fun _ =>
  frameBind (frame_line _) fun _ =>
  frameBind (frame_setReleaseLines _ _ (by decide) (by decide) (by decide) (by decide) (by decide)) fun _ =>
  frameBind (frame_line _) fun _ => frameBind (frame_readReg _) fun _ => frame_setSr _ (by decide)

theorem frame_sendBits (n b : Nat) : Within (Frame sendParts) (sendBits n b) := by
  induction n generalizing b with
  | zero => exact frame_setBitn _ (by decide)
  | succ n ih =>
    exact frameBind (frame_line _) fun _ => frameBind (frame_setBitn _ (by decide)) fun _ =>
      frameBind frame_sendBit fun _ => ih _

theorem frame_sendByte (v : Byte) : Within (Frame sendParts) (sendByte v) :=
  within_call <| frameBind (frame_setSr _ (by decide)) fun _ => frameBind (frame_line _) fun _ =>
  frameBind (frame_enterAtomic (by decide) (by decide)) fun _ => frameBind (frame_sendBits _ _) fun _ =>
  frameBind (frame_line _) fun _ => frameBind (frame_exitAtomic (by decide)) fun _ => frameBind (frame_line _) fun _ =>
  frameBind frame_get fun _ => frameBind (within_widen (frame_waitUntil _ _) (by decide)) fun _ =>
  frameBind (frame_setOk _ (by decide)) fun _ => frameBind (frame_line _) fun _ => frame_readReg _

theorem frame_receiveBits (n b : Nat) : Within (Frame receiveParts) (receiveBits n b) := by
  induction n generalizing b with
  | zero => exact frame_setBitn _ (by decide)
  | succ n ih =>
    refine frameBind (frame_line _) fun _ => frameBind (frame_setBitn _ (by decide)) fun _ => frameBind (frame_line _) fun _ =>
      frameBind frame_get fun _ => frameBind (within_widen (frame_waitUntil _ _) (by decide)) fun _ =>
      frameBind (frame_setOk _ (by decide)) fun _ => frameBind (frame_line _) fun _ => frameBind (frame_readReg _) fun _ =>
      within_ite ?_ (frame_pure _)
    exact frameBind (frame_line _) fun _ => frameBind (frame_readReg _) fun _ => frameBind frame_get fun _ =>
      frameBind (frame_setSr _ (by decide)) fun _ => frameBind (frame_line _) fun _ =>
      frameBind frame_get fun _ => frameBind (within_widen (frame_waitUntil _ _) (by decide)) fun _ =>
      frameBind (frame_setOk _ (by decide)) fun _ => frameBind (frame_line _) fun _ => frameBind (frame_readReg _) fun _ =>
      within_ite (ih _) (frame_pure _)

theorem frame_receiveByte : Within (Frame receiveParts) receiveByte :=
  within_call <| frameBind frame_get fun _ => frameBind (within_widen (frame_waitUntil _ _) (by decide)) fun _ =>
  frameBind (frame_setOk _ (by decide)) fun _ => frameBind (frame_line _) fun _ => frameBind (frame_readReg _) fun _ =>
  within_ite
    (frameBind (frame_line _) fun _ => frameBind (frame_setSr _ (by decide)) fun _ => frameBind (frame_line _) fun _ =>
      frameBind (frame_enterAtomic (by decide) (by decide)) fun _ => frameBind (frame_receiveBits _ _) fun _ =>
      frameBind (frame_line _) fun _ => frameBind (frame_exitAtomic (by decide)) fun _ => frameBind (frame_line _) fun _ =>
      frameBind (frame_readReg _) fun _ => within_ite (frameBind (frame_readReg _) fun _ => frame_pure _) (frame_pure _))
    (frame_pure _)

theorem frame_returnCount {may : List Part} (c : Nat) (h : Part.cnt ∈ may) : Within (Frame may) (returnCount c) :=
  frameBind (frame_setCnt _ h) fun _ => frame_pure _

theorem frame_writeFails : Within (Frame writeParts) writeFails :=
  frameBind (frame_releaseLines _ (by decide) (by decide) (by decide) (by decide) (by decide)) fun _ =>
  frame_returnCount _ (by decide)

theorem frame_deviceAbsent : Within (Frame writeParts) deviceAbsent :=
  frameBind (frame_releaseLines _ (by decide) (by decide) (by decide) (by decide) (by decide)) fun _ =>
  frameBind (frame_log _ (by decide)) fun _ => frame_returnCount _ (by decide)

theorem frame_handOff (talk : Bool) : Within (Frame writeParts) (handOff talk) :=
  within_ite
    (frameBind (frame_line _) fun _ =>
      frameBind (frame_setReleaseLines _ _ (by decide) (by decide) (by decide) (by decide) (by decide)) fun _ =>
      frameBind (frame_line _) fun _ => within_widen (frame_waitForever _) (by decide))
    (frameBind (frame_line _) fun _ =>
      frame_releaseLines _ (by decide) (by decide) (by decide) (by decide) (by decide))

theorem frame_finishWrite (n : Nat) (talk : Bool) : Within (Frame writeParts) (finishWrite n talk) :=
  frameBind (frame_line _) fun _ => frameBind (frame_handOff _) fun _ => frameBind (frame_line _) fun _ =>
  frame_returnCount _ (by decide)

theorem frame_eoiHandshake (n : Nat) (atn : Bool) : Within (Frame writeParts) (eoiHandshake n atn) :=
  frameBind (frame_line _) fun _ => frameBind (frame_readReg _) fun _ => within_ite
    (frameBind (frame_line _) fun _ => frameBind (within_widen (frame_waitForever _) (by decide)) fun _ =>
      frameBind (frame_line _) fun _ => within_widen (frame_waitForever _) (by decide))
    (frame_pure _)

theorem frame_writeBytes (base n : Nat) (atn talk : Bool) (k i : Nat) :
    Within (Frame writeParts) (writeBytes base n atn talk k i) := by
  induction k generalizing i with
  | zero => exact frameBind (frame_setIdx _ (by decide)) fun _ => frame_finishWrite _ _
  | succ k ih =>
    refine frameBind (frame_line _) fun _ => frameBind (frame_setIdx _ (by decide)) fun _ => frameBind (frame_line _) fun _ =>
      frameBind frame_get fun _ => frameBind (frame_delay _ (by decide)) fun _ => frameBind (frame_line _) fun _ =>
      frameBind frame_get fun _ => within_ite frame_deviceAbsent ?_
    exact frameBind (frame_line _) fun _ =>
      frameBind (frame_releaseLines _ (by decide) (by decide) (by decide) (by decide) (by decide)) fun _ =>
      frameBind (frame_line _) fun _ => frameBind (within_widen (frame_waitForever _) (by decide)) fun _ =>
      frameBind (frame_eoiHandshake _ _) fun _ => frameBind (frame_line _) fun _ =>
      frameBind (frame_assertLines _ (by decide) (by decide) (by decide) (by decide) (by decide)) fun _ =>
      frameBind (frame_line _) fun _ => frameBind (frame_readReg _) fun _ => frameBind (frame_memReadByte _) fun _ =>
      frameBind (within_widen (frame_sendByte _) (by decide)) fun _ => within_ite
        (frameBind (frame_line _) fun _ => frameBind (frame_log _ (by decide)) fun _ => ih _)
        frame_writeFails

/-- `write` changes only what R140 lists (and `CNT`, R34). -/
theorem frame_writeOp (base n : Nat) (atn talk : Bool) : Within (Frame writeParts) (writeOp base n atn talk) :=
  within_call <| frameBind (frame_setEoi _ (by decide)) fun _ => frameBind (frame_line _) fun _ =>
  frameBind (frame_releaseLines _ (by decide) (by decide) (by decide) (by decide) (by decide)) fun _ =>
  frameBind (frame_line _) fun _ =>
  frameBind (by cases atn <;> exact frame_assertLines _ (by decide) (by decide) (by decide) (by decide) (by decide)) fun _ =>
  frameBind (frame_line _) fun _ => frameBind frame_get fun _ =>
  frameBind (within_widen (frame_waitUntil _ _) (by decide)) fun _ => frameBind (frame_setOk _ (by decide)) fun _ =>
  frameBind (frame_line _) fun _ => frameBind (frame_readReg _) fun _ =>
  within_ite (frame_writeBytes _ _ _ _ _ _) frame_deviceAbsent

theorem frame_acknowledgeEoi : Within (Frame readParts) acknowledgeEoi :=
  frameBind (frame_line _) fun _ => frameBind (frame_setEoi _ (by decide)) fun _ => frameBind (frame_line _) fun _ =>
  frameBind (frame_assertLines _ (by decide) (by decide) (by decide) (by decide) (by decide)) fun _ =>
  frameBind frame_get fun _ => frameBind (frame_delay _ (by decide)) fun _ =>
  frame_releaseLines _ (by decide) (by decide) (by decide) (by decide) (by decide)

theorem frame_storeByte (b : Byte) : Within (Frame readParts) (storeByte b) :=
  frameBind (frame_line _) fun _ => frameBind (frame_readReg _) fun _ => frameBind (frame_setIdx _ (by decide)) fun _ =>
  frameBind (frame_readReg _) fun _ => frameBind (frame_memWrite _ _ (by decide)) fun _ =>
  frameBind (frame_readReg _) fun _ => frameBind (frame_setCnt _ (by decide)) fun _ => frameBind (frame_line _) fun _ =>
  frameBind (frame_assertLines _ (by decide) (by decide) (by decide) (by decide) (by decide)) fun _ =>
  frameBind (frame_line _) fun _ => frame_log _ (by decide)

theorem frame_readLoop (maxLen f : Nat) : Within (Frame readParts) (readLoop maxLen f) := by
  induction f with
  | zero => exact frame_hang
  | succ f ih =>
    refine frameBind (frame_line _) fun _ => frameBind frame_get fun _ =>
      frameBind (within_widen (frame_waitUntilKick _ _) (by decide)) fun _ => frameBind (frame_setOk _ (by decide)) fun _ =>
      frameBind (frame_line _) fun _ => frameBind frame_get fun _ => within_ite (frame_readReg _) ?_
    refine frameBind (frame_line _) fun _ => frameBind (frame_readReg _) fun _ => within_ite ?_ (frame_readReg _)
    refine frameBind (frame_line _) fun _ =>
      frameBind (frame_releaseLines _ (by decide) (by decide) (by decide) (by decide) (by decide)) fun _ =>
      frameBind (frame_line _) fun _ => frameBind frame_get fun _ =>
      frameBind (within_widen (frame_waitUntil _ _) (by decide)) fun _ => frameBind (frame_setOk _ (by decide)) fun _ =>
      frameBind (frame_line _) fun _ => frameBind (frame_readReg _) fun _ =>
      frameBind (within_ite (frame_pure _) frame_acknowledgeEoi) fun _ => frameBind (frame_line _) fun _ =>
      frameBind (within_widen frame_receiveByte (by decide)) fun r => ?_
    cases r with
    | none => exact frameBind (frame_line _) fun _ => frame_readReg _
    | some b =>
      exact frameBind (frame_storeByte _) fun _ => frameBind (frame_line _) fun _ => frameBind (frame_readReg _) fun _ =>
        frameBind frame_get fun _ => within_ite (frame_readReg _) ih

/-- `read` changes only what R155 lists. -/
theorem frame_readOp (maxLen : Nat) : Within (Frame readParts) (readOp maxLen) :=
  within_call <| frameBind (frame_setCnt _ (by decide)) fun _ => frameBind frame_get fun _ => frame_readLoop _ _

theorem frame_probeFree : Within (Frame resetParts) probeFree :=
  within_call <| frameBind (frame_releaseLines _ (by decide) (by decide) (by decide) (by decide) (by decide)) fun _ =>
  frameBind (frame_line _) fun _ => frameBind frame_get fun _ => frameBind (frame_delay _ (by decide)) fun _ =>
  frameBind (frame_line _) fun _ => frameBind frame_get fun _ => within_ite (frame_pure _)
    (frameBind (frame_line _) fun _ =>
      frameBind (frame_assertLines _ (by decide) (by decide) (by decide) (by decide) (by decide)) fun _ =>
      frameBind (frame_line _) fun _ => frameBind frame_get fun _ => frameBind (frame_delay _ (by decide)) fun _ =>
      frameBind (frame_line _) fun _ => frameBind frame_get fun _ => within_ite
        (frameBind (frame_releaseLines _ (by decide) (by decide) (by decide) (by decide) (by decide)) fun _ => frame_pure _)
        (frameBind (frame_line _) fun _ =>
          frameBind (frame_releaseLines _ (by decide) (by decide) (by decide) (by decide) (by decide)) fun _ =>
          frameBind (frame_line _) fun _ => frameBind frame_get fun _ => frameBind (frame_delay _ (by decide)) fun _ =>
          frameBind (frame_line _) fun _ => frameBind frame_get fun _ => frame_pure _))

theorem frame_freeBusLoop (f : Nat) : Within (Frame resetParts) (freeBusLoop f) := by
  induction f with
  | zero => exact frame_hang
  | succ f ih =>
    refine frameBind (frame_line _) fun _ => frameBind (frame_kickWatchdog (by decide) (by decide)) fun _ =>
      frameBind (frame_line _) fun _ => frameBind frame_probeFree fun _ => within_ite (frame_pure _) ?_
    exact frameBind (frame_line _) fun _ => frameBind frame_get fun _ => frameBind (frame_readReg _) fun _ =>
      frameBind frame_get fun _ => within_ite (frame_log _ (by decide))
        (frameBind (frame_line _) fun _ => frameBind frame_get fun _ => frameBind (frame_delay _ (by decide)) fun _ => ih)

theorem frame_waitFreeBus : Within (Frame resetParts) waitFreeBus :=
  within_call <| frameBind frame_get fun _ => frameBind (frame_setT0 _ (by decide)) fun _ =>
  frameBind frame_get fun _ => frame_freeBusLoop _

theorem frame_resetPulse : Within (Frame resetParts) resetPulse :=
  frameBind (frame_releaseLines _ (by decide) (by decide) (by decide) (by decide) (by decide)) fun _ =>
  frameBind (frame_line _) fun _ =>
  frameBind (frame_assertLines _ (by decide) (by decide) (by decide) (by decide) (by decide)) fun _ =>
  frameBind (frame_line _) fun _ => frameBind frame_get fun _ => frameBind (frame_delay _ (by decide)) fun _ =>
  frameBind (frame_line _) fun _ =>
  frame_releaseLines _ (by decide) (by decide) (by decide) (by decide) (by decide)

/-- `reset` changes only what R164 lists (R170). -/
theorem frame_busResetOp : Within (Frame resetParts) busResetOp :=
  within_call <| frameBind frame_resetPulse fun _ => frameBind (frame_line _) fun _ =>
  frameBind frame_waitFreeBus fun _ => frame_line _

end Sys2Proof.Machine
end

