-- ==== Sys2Proof/Laws/PerInstr.lean ====
section
/-! SUPPORT. Per instruction: the shape of its frame (R88, R89), and that an internal row has none (R3). -/

namespace Sys2Proof.Laws.Framing

/-- The opcode byte of R89's map. -/
def opcode : Instr → Option Byte
  | .requestRead _ => some 0x01
  | .collectRead _ => some 0x02
  | .submitWrite _ _ => some 0x03
  | .submitAsync _ _ _ _ => some 0x04
  | .queryResult => some 0x05
  | .logicalWait _ _ => some 0x06
  | .logicalPoll => some 0x07
  | .setRelease _ _ => some 0x08
  | .busReset => some 0x09
  | .sendByte _ => none
  | .receiveByte => none
  | .write _ _ _ _ => none
  | .read _ => none
  | .reset => none
  | .dispatchWrite => none
  | .dispatchAsync => none
  | .dispatchRead => none
  | .dispatchNone => none

/-- The length of a frame by its format: F0, F1, F1D, F2, FA (R88). -/
def frameLength : Instr → Option Nat
  | .requestRead _ => some 2
  | .collectRead _ => some 2
  | .submitWrite n _ => some (2 + n.toNat)
  | .submitAsync _ _ n _ => some (4 + n.toNat)
  | .queryResult => some 1
  | .logicalWait _ _ => some 3
  | .logicalPoll => some 1
  | .setRelease _ _ => some 3
  | .busReset => some 1
  | .sendByte _ => none
  | .receiveByte => none
  | .write _ _ _ _ => none
  | .read _ => none
  | .reset => none
  | .dispatchWrite => none
  | .dispatchAsync => none
  | .dispatchRead => none
  | .dispatchNone => none

/-- A well-formed instruction's frame starts with its opcode and has the length of its format, at most the longest frame; an
instruction has a frame exactly when it is a host command. -/
def Statement (i : Instr) : Prop :=
  i.wellFormed = true →
    (encode i).bind List.head? = opcode i ∧ (encode i).map List.length = frameLength i ∧
    (encode i).isSome = i.isCommand ∧ ∀ k, frameLength i = some k → k ≤ longestFrame

theorem requestRead (n : Byte) : Statement (.requestRead n) :=
  fun _ => ⟨rfl, rfl, rfl, fun k hk => by simp only [frameLength, Option.some.injEq] at hk; simp only [longestFrame]; omega⟩

theorem collectRead (n : Byte) : Statement (.collectRead n) :=
  fun _ => ⟨rfl, rfl, rfl, fun k hk => by simp only [frameLength, Option.some.injEq] at hk; simp only [longestFrame]; omega⟩

theorem submitWrite (n : Byte) (block : List Byte) : Statement (.submitWrite n block) := by
  intro h
  have hl : block.length = n.toNat := by simpa [Instr.wellFormed] using h
  refine ⟨rfl, by simp [encode, frameLength, hl]; omega, rfl, fun k hk => ?_⟩
  simp only [frameLength, Option.some.injEq] at hk
  have := n.isLt
  simp only [longestFrame]; omega

theorem submitAsync (a t n : Byte) (payload : List Byte) : Statement (.submitAsync a t n payload) := by
  intro h
  have hl : payload.length = n.toNat := by simpa [Instr.wellFormed] using h
  refine ⟨rfl, by simp [encode, frameLength, hl]; omega, rfl, fun k hk => ?_⟩
  simp only [frameLength, Option.some.injEq] at hk
  have := n.isLt
  simp only [longestFrame]; omega

theorem queryResult : Statement .queryResult :=
  fun _ => ⟨rfl, rfl, rfl, fun k hk => by simp only [frameLength, Option.some.injEq] at hk; simp only [longestFrame]; omega⟩

theorem logicalWait (sel state : Byte) : Statement (.logicalWait sel state) :=
  fun _ => ⟨rfl, rfl, rfl, fun k hk => by simp only [frameLength, Option.some.injEq] at hk; simp only [longestFrame]; omega⟩

theorem logicalPoll : Statement .logicalPoll :=
  fun _ => ⟨rfl, rfl, rfl, fun k hk => by simp only [frameLength, Option.some.injEq] at hk; simp only [longestFrame]; omega⟩

theorem setRelease (a r : Byte) : Statement (.setRelease a r) :=
  fun _ => ⟨rfl, rfl, rfl, fun k hk => by simp only [frameLength, Option.some.injEq] at hk; simp only [longestFrame]; omega⟩

theorem busReset : Statement .busReset :=
  fun _ => ⟨rfl, rfl, rfl, fun k hk => by simp only [frameLength, Option.some.injEq] at hk; simp only [longestFrame]; omega⟩

theorem sendByte (v : Byte) : Statement (.sendByte v) := fun _ => ⟨rfl, rfl, rfl, fun _ hk => by cases hk⟩

theorem receiveByte : Statement .receiveByte := fun _ => ⟨rfl, rfl, rfl, fun _ hk => by cases hk⟩

theorem write (base : Nat) (n : Byte) (atn talk : Bool) : Statement (.write base n atn talk) := fun _ => ⟨rfl, rfl, rfl, fun _ hk => by cases hk⟩

theorem read (maxLen : Byte) : Statement (.read maxLen) := fun _ => ⟨rfl, rfl, rfl, fun _ hk => by cases hk⟩

theorem reset : Statement .reset := fun _ => ⟨rfl, rfl, rfl, fun _ hk => by cases hk⟩

theorem dispatchWrite : Statement .dispatchWrite := fun _ => ⟨rfl, rfl, rfl, fun _ hk => by cases hk⟩

theorem dispatchAsync : Statement .dispatchAsync := fun _ => ⟨rfl, rfl, rfl, fun _ hk => by cases hk⟩

theorem dispatchRead : Statement .dispatchRead := fun _ => ⟨rfl, rfl, rfl, fun _ hk => by cases hk⟩

theorem dispatchNone : Statement .dispatchNone := fun _ => ⟨rfl, rfl, rfl, fun _ hk => by cases hk⟩

end Sys2Proof.Laws.Framing
end

