-- ==== Sys2Proof/Laws/Port.lean ====
section
/-! SUPPORT. The line mapping table and the physical port (R8, R35). -/

namespace Sys2Proof.Machine

/-- A counted bit is never the one left out. -/
theorem skipBit_ne (taken k : Nat) : skipBit taken k ≠ taken := by unfold skipBit; split <;> omega

/-- Two bits that are counted differently differ. -/
theorem skipBit_inj {taken j k : Nat} (h : skipBit taken j = skipBit taken k) : j = k := by
  unfold skipBit at h; split at h <;> split at h <;> omega

/-- The power-on map is injective (R8, D44). -/
theorem physMap_distinct : Config.initial.physMap.bits.Nodup := by
  have h : ∀ t {j k}, j ≠ k → skipBit t j ≠ skipBit t k := fun t _ _ hn he => hn (skipBit_inj he)
  simp only [PhysMap.bits, Config.initial, Config.physMap, List.nodup_cons, List.mem_cons, List.not_mem_nil, or_false, not_or,
    not_false_eq_true, List.nodup_nil, and_true]
  exact ⟨⟨(skipBit_ne _ _).symm, (skipBit_ne _ _).symm, (skipBit_ne _ _).symm⟩,
    ⟨h _ (skipBit_ne _ _).symm, h _ (skipBit_ne _ _).symm⟩, h _ (h _ (skipBit_ne _ _).symm)⟩

/-- Everything an entry of the mapping table holds: port bit `k` exactly when it is the bit of a selected line (R35). -/
theorem mapTab_testBit (m : PhysMap) (i : Lines) (k : Nat) :
    (mapTab m i).testBit k = true ↔ ∃ l, i &&& lineMask l ≠ 0 ∧ physBit m l = k := by
  have hb : ∀ i : Lines, (i &&& lineMask .data ≠ 0 ↔ i.getLsbD 0 = true) ∧ (i &&& lineMask .clock ≠ 0 ↔ i.getLsbD 1 = true) ∧
      (i &&& lineMask .atn ≠ 0 ↔ i.getLsbD 2 = true) ∧ (i &&& lineMask .reset ≠ 0 ↔ i.getLsbD 3 = true) := by decide
  obtain ⟨h0, h1, h2, h3⟩ := hb i
  have key : ∀ (b : Bool) (l : Line), (if b = true then physMask m l else 0).testBit k = (b && decide (physBit m l = k)) := by
    intro b l; cases b <;> simp [physMask, Nat.one_shiftLeft, Nat.testBit_two_pow]
  simp only [mapTab, Nat.testBit_or, key, Bool.or_eq_true, Bool.and_eq_true, decide_eq_true_eq]
  constructor
  · rintro (((h | h) | h) | h)
    · exact ⟨.data, h0.mpr h.1, h.2⟩
    · exact ⟨.clock, h1.mpr h.1, h.2⟩
    · exact ⟨.atn, h2.mpr h.1, h.2⟩
    · exact ⟨.reset, h3.mpr h.1, h.2⟩
  · rintro ⟨l, h, hk⟩
    cases l
    · exact .inl (.inl (.inl ⟨h0.mp h, hk⟩))
    · exact .inl (.inl (.inr ⟨h1.mp h, hk⟩))
    · exact .inl (.inr ⟨h2.mp h, hk⟩)
    · exact .inr ⟨h3.mp h, hk⟩

/-- With distinct port bits a port bit tells its line (D44). -/
theorem physBit_inj {m : PhysMap} (h : m.bits.Nodup) {l l' : Line} (he : physBit m l = physBit m l') : l = l' := by
  simp only [PhysMap.bits, List.nodup_cons, List.mem_cons, List.not_mem_nil, or_false, not_or] at h
  obtain ⟨⟨h1, h2, h3⟩, ⟨h4, h5⟩, h6, -⟩ := h
  cases l <;> cases l' <;> first | rfl | (simp only [physBit] at he; omega)

/-- With distinct port bits the table's entry at a line's port bit is the line's bit of the logical mask (R8, R35). -/
theorem mapTab_physBit {m : PhysMap} (h : m.bits.Nodup) (i : Lines) (l : Line) :
    (mapTab m i).testBit (physBit m l) = (i &&& lineMask l != 0) := by
  rw [Bool.eq_iff_iff, mapTab_testBit, bne_iff_ne]
  exact ⟨fun ⟨l', hl, he⟩ => physBit_inj h he ▸ hl, fun hl => ⟨l, hl, rfl⟩⟩

end Sys2Proof.Machine
end

