-- ==== Sys2Proof/Laws/Waits.lean ====
section
/-! SUPPORT. What the delays and the waits do: exact results on an undisturbed bus, and everything they can do on any bus. -/

namespace Sys2Proof.Machine

/-! ### Undisturbed delays -/

/-- Time passes by `d`, and `k` choices of the interrupt sources are used up. -/
def passed (k d : Nat) (s : State) : State := { s with now := s.now + d, irq := s.irq.drop k }

@[simp] theorem passed_now (k d : Nat) (s : State) : (passed k d s).now = s.now + d := rfl
@[simp] theorem passed_deadline (k d : Nat) (s : State) : deadline (passed k d s) = deadline s := rfl
@[simp] theorem passed_cfg (k d : Nat) (s : State) : (passed k d s).cfg = s.cfg := rfl
@[simp] theorem passed_zero (s : State) : passed 0 0 s = s := rfl

theorem passed_passed (j k d e : Nat) (s : State) : passed k e (passed j d s) = passed (j + k) (d + e) s := by
  simp [passed, Nat.add_assoc]

theorem quietFor_zero (s : State) : quietFor 0 s := ⟨s.irq, rfl⟩

theorem quietFor_mono {j k : Nat} (h : j ≤ k) {s : State} (hq : quietFor k s) : quietFor j s := by
  obtain ⟨l, hl⟩ := hq
  exact ⟨List.replicate (k - j) 0 ++ l, by rw [hl, ← List.append_assoc, List.replicate_append_replicate, Nat.add_sub_cancel' h]⟩

/-- What is left of a quiet time when `j` delays have run. -/
theorem quietFor_passed {j k : Nat} {s : State} (hq : quietFor (j + k) s) (d : Nat) : quietFor k (passed j d s) := by
  obtain ⟨l, hl⟩ := hq
  exact ⟨l, by simp [passed, hl, List.drop_append, List.drop_replicate]⟩

/-- A delay that no interrupt lengthens and no watchdog ends lasts exactly its length (R110). -/
theorem run_delay_quiet {d : Nat} {s : State} (hq : quietFor 1 s) (h : s.now + d ≤ deadline s) :
    delay d s = .ok () (passed 1 d s) := by
  obtain ⟨l, hl⟩ := hq
  have h1 : irqChoice s = 0 := by simp [irqChoice, hl]
  have h2 : irqTaken s = { s with irq := s.irq.drop 1 } := by simp [irqTaken, hl]
  have h3 : ∀ u : State, delayLength u d 0 = d := fun u => by simp [delayLength]
  rw [run_delay, h1, h2, h3]
  exact run_passTime (s := { s with irq := s.irq.drop 1 }) d h

/-! ### Polling -/

/-- A condition that looks at nothing but the bus. -/
def BusOnly (c : State → Bool) : Prop := ∀ s t : State, s.out = t.out → s.bus = t.bus → s.now = t.now → c s = c t

theorem busOnly_asserted (l : Line) : BusOnly (asserted l) := by
  intro s t h1 h2 h3; simp [asserted, State.busLevel, State.dev, h1, h2, h3]

theorem busOnly_released (l : Line) : BusOnly (released l) := by
  intro s t h1 h2 h3; simp only [released, busOnly_asserted l s t h1 h2 h3]

/-- A line the devices pull is asserted. -/
theorem asserted_of_pulled {s : State} {l : Line} (h : pulled s l s.now) : asserted l s = true := by
  have key : ∀ a b m : Lines, b &&& m ≠ 0 → ((a ||| b) &&& m != 0) = true := by decide
  exact key _ _ _ h

/-- A line nobody pulls is released. -/
theorem released_of_floats {s : State} {l : Line} (h : floats s l s.now) (ho : s.out &&& lineMask l = 0) :
    released l s = true := by
  have key : ∀ a b m : Lines, b &&& m = 0 → a &&& m = 0 → (!((a ||| b) &&& m != 0)) = true := by decide
  exact key _ _ _ h ho

/-- An undisturbed bounded wait whose condition is first met at sample `j` (R111). -/
theorem run_pollLoop_hits {c : State → Bool} (hc : BusOnly c) (j : Nat) {n : Nat} {s : State} (hj : j < n) (hq : quietFor j s)
    (hd : s.now + j * s.cfg.tPoll ≤ deadline s)
    (hno : ∀ i, i < j → c { s with now := s.now + i * s.cfg.tPoll } = false)
    (hyes : c { s with now := s.now + j * s.cfg.tPoll } = true) :
    pollLoop false c n s = .ok true { passed j (j * s.cfg.tPoll) s with pc := { s.pc with line := 3 } } := by
  induction j generalizing n s with
  | zero =>
    obtain ⟨n, rfl⟩ : ∃ m, n = m + 1 := ⟨n - 1, by omega⟩
    have h : c { s with pc := { s.pc with line := 3 } } = true := by
      rw [← hyes]; exact hc _ _ rfl rfl (by simp)
    simp [pollLoop, run_bind, kickIf, h, passed]
  | succ j ih =>
    obtain ⟨n, rfl⟩ : ∃ m, n = m + 1 := ⟨n - 1, by omega⟩
    have h : c { s with pc := { s.pc with line := 3 } } = false := by
      rw [← hno 0 (by omega)]; exact hc _ _ rfl rfl (by simp)
    have hs : (j + 1) * s.cfg.tPoll = s.cfg.tPoll + j * s.cfg.tPoll := by rw [Nat.succ_mul, Nat.add_comm]
    have hdl := run_delay_quiet (d := s.cfg.tPoll) (s := { s with pc := { s.pc with line := 4 } })
      (quietFor_mono (by omega) hq) (by have : s.now + s.cfg.tPoll ≤ deadline s := by omega
                                        exact this)
    have hq' : quietFor j { passed 1 s.cfg.tPoll s with pc := { s.pc with line := 4 } } :=
      quietFor_passed (Nat.add_comm j 1 ▸ hq) s.cfg.tPoll
    have := ih (n := n) (s := { passed 1 s.cfg.tPoll s with pc := { s.pc with line := 4 } }) (by omega) hq'
      (by have : s.now + s.cfg.tPoll + j * s.cfg.tPoll ≤ deadline s := by omega
          exact this)
      (fun i hi => by
        rw [← hno (i + 1) (by omega)]
        exact hc _ _ rfl rfl (by simp [passed, Nat.succ_mul]; omega))
      (by rw [← hyes]; exact hc _ _ rfl rfl (by simp [passed, Nat.succ_mul]; omega))
    simp only [pollLoop, run_bind, kickIf, run_line, run_get, h, hdl, run_pure, Bool.false_eq_true, if_false]
    refine Eq.trans this ?_
    simp [passed, hs, Nat.add_assoc]

/-- An undisturbed bounded wait whose condition is met at no sample (R111). -/
theorem run_pollLoop_misses {c : State → Bool} (hc : BusOnly c) {n : Nat} {s : State} (hq : quietFor n s)
    (hd : s.now + n * s.cfg.tPoll ≤ deadline s)
    (hno : ∀ i, i < n → c { s with now := s.now + i * s.cfg.tPoll } = false) :
    pollLoop false c n s = .ok false { passed n (n * s.cfg.tPoll) s with pc := { s.pc with line := 5 } } := by
  induction n generalizing s with
  | zero => simp [pollLoop, run_bind, passed]
  | succ j ih =>
    have h : c { s with pc := { s.pc with line := 3 } } = false := by
      rw [← hno 0 (by omega)]; exact hc _ _ rfl rfl (by simp)
    have hs : (j + 1) * s.cfg.tPoll = s.cfg.tPoll + j * s.cfg.tPoll := by rw [Nat.succ_mul, Nat.add_comm]
    have hdl := run_delay_quiet (d := s.cfg.tPoll) (s := { s with pc := { s.pc with line := 4 } })
      (quietFor_mono (by omega) hq) (by have : s.now + s.cfg.tPoll ≤ deadline s := by omega
                                        exact this)
    have hq' : quietFor j { passed 1 s.cfg.tPoll s with pc := { s.pc with line := 4 } } :=
      quietFor_passed (Nat.add_comm j 1 ▸ hq) s.cfg.tPoll
    have := ih (s := { passed 1 s.cfg.tPoll s with pc := { s.pc with line := 4 } }) hq'
      (by have : s.now + s.cfg.tPoll + j * s.cfg.tPoll ≤ deadline s := by omega
          exact this)
      (fun i hi => by
        rw [← hno (i + 1) (by omega)]
        exact hc _ _ rfl rfl (by simp [passed, Nat.succ_mul]; omega))
    simp only [pollLoop, run_bind, kickIf, run_line, run_get, h, hdl, run_pure, Bool.false_eq_true, if_false]
    refine Eq.trans this ?_
    simp [passed, hs, Nat.add_assoc]

/-- `WaitUntil` met at sample `j`: the time is exact and nothing else has changed (R111, R116 line 11, R119 line 6). -/
theorem run_waitUntil_hits {c : State → Bool} (hc : BusOnly c) (j : Nat) {T : Nat} {s : State}
    (hj : j < sampleCount T s.cfg.tPoll) (hq : quietFor j s) (hd : s.now + j * s.cfg.tPoll ≤ deadline s)
    (hno : ∀ i, i < j → c { s with now := s.now + i * s.cfg.tPoll } = false)
    (hyes : c { s with now := s.now + j * s.cfg.tPoll } = true) :
    waitUntil c T s = .ok true (passed j (j * s.cfg.tPoll) s) := by
  have h := run_pollLoop_hits hc j (s := { s with pc := ⟨.waitUntil, 1⟩, stack := s.pc :: s.stack }) hj hq hd
    (fun i hi => by rw [← hno i hi]; exact hc _ _ rfl rfl rfl) (by rw [← hyes]; exact hc _ _ rfl rfl rfl)
  simp only [waitUntil, run_call, run_bind, run_get, h]
  rfl

/-- `WaitUntil` that times out: all its samples have passed (R111). -/
theorem run_waitUntil_misses {c : State → Bool} (hc : BusOnly c) {T : Nat} {s : State}
    (hq : quietFor (sampleCount T s.cfg.tPoll) s) (hd : s.now + sampleCount T s.cfg.tPoll * s.cfg.tPoll ≤ deadline s)
    (hno : ∀ i, i < sampleCount T s.cfg.tPoll → c { s with now := s.now + i * s.cfg.tPoll } = false) :
    waitUntil c T s = .ok false (passed (sampleCount T s.cfg.tPoll) (sampleCount T s.cfg.tPoll * s.cfg.tPoll) s) := by
  have h := run_pollLoop_misses hc (s := { s with pc := ⟨.waitUntil, 1⟩, stack := s.pc :: s.stack }) hq hd
    (fun i hi => by rw [← hno i hi]; exact hc _ _ rfl rfl rfl)
  simp only [waitUntil, run_call, run_bind, run_get, h]
  rfl

/-- `WaitUntilKick` met at its first sample: one kick (R112). -/
theorem run_waitUntilKick_first {c : State → Bool} (hc : BusOnly c) {T : Nat} {s : State} (h : c s = true) :
    waitUntilKick c T s = .ok true (kicked s) := by
  obtain ⟨n, hn⟩ : ∃ n, sampleCount T s.cfg.tPoll = n + 1 := ⟨sampleCount T s.cfg.tPoll - 1, by
    have := one_le_sampleCount T s.cfg.tPoll; omega⟩
  have h' : ∀ x, c (kicked { s with pc := x, stack := s.pc :: s.stack }) = true := fun x => by
    rw [← h]; exact hc _ _ rfl rfl rfl
  simp [waitUntilKick, run_call, run_bind, hn, pollLoop, kickIf, h']
  rfl

/-- An undisturbed unbounded wait whose condition is first met at sample `j` (R113). -/
theorem run_foreverLoop_hits {c : State → Bool} (hc : BusOnly c) (j : Nat) {n : Nat} {s : State} (hj : j < n) (hq : quietFor j s)
    (hd : s.now + j * s.cfg.tPoll ≤ deadline s)
    (hno : ∀ i, i < j → c { s with now := s.now + i * s.cfg.tPoll } = false)
    (hyes : c { s with now := s.now + j * s.cfg.tPoll } = true) :
    foreverLoop c n s = .ok () { passed j (j * s.cfg.tPoll) s with pc := { s.pc with line := 2 } } := by
  induction j generalizing n s with
  | zero =>
    obtain ⟨n, rfl⟩ : ∃ m, n = m + 1 := ⟨n - 1, by omega⟩
    have h : c { s with pc := { s.pc with line := 2 } } = true := by
      rw [← hyes]; exact hc _ _ rfl rfl (by simp)
    simp [foreverLoop, run_bind, h, passed]
  | succ j ih =>
    obtain ⟨n, rfl⟩ : ∃ m, n = m + 1 := ⟨n - 1, by omega⟩
    have h : c { s with pc := { s.pc with line := 2 } } = false := by
      rw [← hno 0 (by omega)]; exact hc _ _ rfl rfl (by simp)
    have hs : (j + 1) * s.cfg.tPoll = s.cfg.tPoll + j * s.cfg.tPoll := by rw [Nat.succ_mul, Nat.add_comm]
    have hdl := run_delay_quiet (d := s.cfg.tPoll) (s := { s with pc := { s.pc with line := 3 } })
      (quietFor_mono (by omega) hq) (by have : s.now + s.cfg.tPoll ≤ deadline s := by omega
                                        exact this)
    have hq' : quietFor j { passed 1 s.cfg.tPoll s with pc := { s.pc with line := 3 } } :=
      quietFor_passed (Nat.add_comm j 1 ▸ hq) s.cfg.tPoll
    have := ih (n := n) (s := { passed 1 s.cfg.tPoll s with pc := { s.pc with line := 3 } }) (by omega) hq'
      (by have : s.now + s.cfg.tPoll + j * s.cfg.tPoll ≤ deadline s := by omega
          exact this)
      (fun i hi => by
        rw [← hno (i + 1) (by omega)]
        exact hc _ _ rfl rfl (by simp [passed, Nat.succ_mul]; omega))
      (by rw [← hyes]; exact hc _ _ rfl rfl (by simp [passed, Nat.succ_mul]; omega))
    simp only [foreverLoop, run_bind, run_line, run_get, h, hdl, Bool.false_eq_true, if_false]
    refine Eq.trans this ?_
    simp [passed, hs, Nat.add_assoc]

/-- `WaitForever` met at sample `j`, with time passing at each poll, or at its first or second sample (R113). -/
theorem run_waitForever_hits {c : State → Bool} (hc : BusOnly c) (j : Nat) {s : State} (hj : j ≤ 1 ∨ 1 ≤ s.cfg.tPoll)
    (hq : quietFor j s) (hd : s.now + j * s.cfg.tPoll ≤ deadline s)
    (hno : ∀ i, i < j → c { s with now := s.now + i * s.cfg.tPoll } = false)
    (hyes : c { s with now := s.now + j * s.cfg.tPoll } = true) :
    waitForever c s = .ok () (passed j (j * s.cfg.tPoll) s) := by
  have hf : j < foreverFuel { s with pc := ⟨.waitForever, 1⟩, stack := s.pc :: s.stack } := by
    simp only [foreverFuel]
    rcases hj with hj | hj
    · omega
    · have h1 : j ≤ j * s.cfg.tPoll := Nat.le_mul_of_pos_right _ hj
      simp only [deadline] at hd
      omega
  have h := run_foreverLoop_hits hc j (s := { s with pc := ⟨.waitForever, 1⟩, stack := s.pc :: s.stack }) hf hq hd
    (fun i hi => by rw [← hno i hi]; exact hc _ _ rfl rfl rfl) (by rw [← hyes]; exact hc _ _ rfl rfl rfl)
  simp only [waitForever, run_call, run_bind, run_get, h]
  rfl

/-! ### What a wait can do on any bus -/

/-- Nothing differs but time and the interrupt sources' input. -/
def waited (s t : State) : Prop := s.now ≤ t.now ∧ t = { s with now := t.now, irq := t.irq, draws := t.draws }

theorem lines_eq_of_bits {a b : Lines} (h0 : a.getLsbD 0 = b.getLsbD 0) (h1 : a.getLsbD 1 = b.getLsbD 1)
    (h2 : a.getLsbD 2 = b.getLsbD 2) (h3 : a.getLsbD 3 = b.getLsbD 3) : a = b := by
  have key : ∀ a b : Lines, a.getLsbD 0 = b.getLsbD 0 → a.getLsbD 1 = b.getLsbD 1 → a.getLsbD 2 = b.getLsbD 2 →
    a.getLsbD 3 = b.getLsbD 3 → a = b := by decide
  exact key a b h0 h1 h2 h3

/-- A frame of time only, at the same control location, is a wait. -/
theorem waited_of_frame {s t : State} (h : Frame waitParts s t) (hp : t.pc = s.pc) (hs : t.stack = s.stack) : waited s t := by
  obtain ⟨⟨h1, h2, h3, h4, h5⟩, hf⟩ := h
  refine ⟨h5, ?_⟩
  have ho : t.out = s.out := lines_eq_of_bits (hf .outData (by decide)) (hf .outClock (by decide)) (hf .outAtn (by decide))
    (hf .outReset (by decide))
  have e1 : t.eoi = s.eoi := hf .eoi (by decide)
  have e2 : t.buf = s.buf := hf .buf (by decide)
  have e3 : t.len = s.len := hf .len (by decide)
  have e4 : t.req = s.req := hf .req (by decide)
  have e5 : t.result = s.result := hf .result (by decide)
  have e6 : t.collected = s.collected := hf .collected (by decide)
  have e7 : t.ie = s.ie := hf .ie (by decide)
  have e8 : t.ieSaved = s.ieSaved := hf .ieSaved (by decide)
  have e9 : t.wdtLast = s.wdtLast := hf .wdtLast (by decide)
  have e10 : t.sr = s.sr := hf .sr (by decide)
  have e11 : t.bitn = s.bitn := hf .bitn (by decide)
  have e12 : t.idx = s.idx := hf .idx (by decide)
  have e13 : t.cnt = s.cnt := hf .cnt (by decide)
  have e14 : t.ok = s.ok := hf .ok (by decide)
  have e15 : t.t0 = s.t0 := hf .t0 (by decide)
  have e16 : t.hin = s.hin := hf .hin (by decide)
  have e17 : t.hout = s.hout := hf .hout (by decide)
  have e18 : t.trace = s.trace := hf .trace (by decide)
  have e19 : t.xfer = s.xfer := hf .xfer (by decide)
  have e20 : t.host = s.host := hf .host (by decide)
  have e21 : t.bufEpoch = s.bufEpoch := hf .bufEpoch (by decide)
  have e22 : t.lineLog = s.lineLog := hf .lineLog (by decide)
  cases s; cases t; simp_all

/-- The samples of a bounded wait end where the condition holds, or it reports that they are over (R111). -/
theorem pollLoop_ends {kick : Bool} {c : State → Bool} {n : Nat} {s t : State} {b : Bool}
    (h : pollLoop kick c n s = .ok b t) : b = true → c t = true := by
  induction n generalizing s with
  | zero => simp [pollLoop, run_bind] at h; simp [h.1.symm]
  | succ n ih =>
    simp only [pollLoop, run_bind, run_line, run_get] at h
    split at h
    · rename_i u _ _
      split at h
      · rename_i hc; cases h; exact fun _ => hc
      · simp only [run_bind, run_line, run_get] at h
        split at h
        · exact ih h
        · cases h
    · cases h

/-- Everything `WaitUntil` can do when it returns: only time has passed, and the condition holds now if it says so (R111). -/
theorem waitUntil_ends {c : State → Bool} (hc : BusOnly c) {T : Nat} {s t : State} {b : Bool} (h : waitUntil c T s = .ok b t) :
    waited s t ∧ (b = true → c t = true) := by
  have hf : Frame waitParts s t := by have := frame_waitUntil c T s; rw [h] at this; exact this
  refine ⟨waited_of_frame hf (call_returns h).1 (call_returns h).2, ?_⟩
  simp only [waitUntil, run_call, run_bind, run_get] at h
  split at h
  · rename_i a u hu
    cases h
    exact fun hb => (hc u { u with pc := s.pc, stack := s.stack } rfl rfl rfl).symm.trans (pollLoop_ends hu hb)
  · cases h

/-- The loop of `WaitForever` returns only where its condition holds (R113). -/
theorem foreverLoop_ends {c : State → Bool} {n : Nat} {s t : State} (h : foreverLoop c n s = .ok () t) : c t = true := by
  induction n generalizing s with
  | zero => cases h
  | succ n ih =>
    simp only [foreverLoop, run_bind, run_line, run_get] at h
    split at h
    · rename_i hc; cases h; exact hc
    · simp only [run_bind, run_line, run_get] at h
      split at h
      · exact ih h
      · cases h

/-- Everything `WaitForever` can do when it returns: only time has passed, and the condition holds now (R113). -/
theorem waitForever_ends {c : State → Bool} (hc : BusOnly c) {s t : State} (h : waitForever c s = .ok () t) :
    waited s t ∧ c t = true := by
  have hf : Frame waitParts s t := by have := frame_waitForever c s; rw [h] at this; exact this
  refine ⟨waited_of_frame hf (call_returns h).1 (call_returns h).2, ?_⟩
  simp only [waitForever, run_call, run_bind, run_get] at h
  split at h
  · rename_i a u hu
    cases h
    exact (hc u { u with pc := s.pc, stack := s.stack } rfl rfl rfl).symm.trans (foreverLoop_ends hu)
  · cases h

/-- A delay that ends by no fault and no hang: it returns, or the watchdog resets the engine (R110, R258). -/
theorem delay_ends (d : Nat) (s : State) :
    (∃ t, delay d s = .ok () t ∧ s.now + d ≤ t.now ∧ t.now ≤ deadline s ∧ t.wdtLast = s.wdtLast ∧ t.cfg = s.cfg ∧ t.bus = s.bus ∧
      t.out = s.out ∧ t.fault = s.fault) ∨
    (∃ t, delay d s = .error .watchdog (watchdogReset t)) := by
  have hg := delayLength_ge (irqTaken s) d (irqChoice s)
  have h1 : (irqTaken s).now = s.now ∧ (irqTaken s).wdtLast = s.wdtLast ∧ (irqTaken s).cfg = s.cfg ∧ (irqTaken s).bus = s.bus ∧
      (irqTaken s).out = s.out ∧ (irqTaken s).fault = s.fault := by
    unfold irqTaken; split <;> exact ⟨rfl, rfl, rfl, rfl, rfl, rfl⟩
  rw [run_delay]
  by_cases hx : (irqTaken s).wdtLast + (irqTaken s).cfg.tWdt < (irqTaken s).now + delayLength (irqTaken s) d (irqChoice s)
  · exact .inr ⟨_, run_passTime_expires _ _ hx⟩
  · refine .inl ⟨_, run_passTime _ _ (Nat.not_lt.mp hx), ?_⟩
    obtain ⟨a, b, c, e, f, g⟩ := h1
    rw [b, c] at hx
    refine ⟨by simp only [a]; omega, ?_, b, c, e, f, g⟩
    simpa [deadline] using hx

/-- Where a poll takes time, `WaitForever` never runs out of fuel: it returns or the watchdog ends it (R113, R220). -/
theorem foreverLoop_never_hangs {c : State → Bool} {n : Nat} {s : State} (hp : 1 ≤ s.cfg.tPoll)
    (hn : deadline s + 2 ≤ s.now + n) (h1 : 1 ≤ n) :
    (∃ t, foreverLoop c n s = .ok () t) ∨ ∃ t, foreverLoop c n s = .error .watchdog (watchdogReset t) := by
  induction n generalizing s with
  | zero => omega
  | succ n ih =>
    simp only [foreverLoop, run_bind, run_line, run_get]
    split
    · exact .inl ⟨_, rfl⟩
    · simp only [run_bind, run_line, run_get]
      rcases delay_ends s.cfg.tPoll { s with pc := { s.pc with line := 3 } } with ⟨t, e, a, b, w, f, -⟩ | ⟨t, e⟩
      · rw [e]
        have a' : s.now + s.cfg.tPoll ≤ t.now := a
        have b' : t.now ≤ deadline s := b
        have w' : deadline t = deadline s := by simp [deadline, w, f]
        refine ih (by rw [f]; exact hp) (by rw [w']; omega) (by omega)
      · rw [e]; exact .inr ⟨t, rfl⟩

/-- Everything `WaitForever` can do where a poll takes time: it returns, or the watchdog resets the engine (R113, R220). -/
theorem waitForever_never_hangs (c : State → Bool) {s : State} (hp : 1 ≤ s.cfg.tPoll) :
    (∃ t, waitForever c s = .ok () t) ∨ ∃ t, waitForever c s = .error .watchdog (watchdogReset t) := by
  simp only [waitForever, run_call, run_bind, run_get]
  rcases foreverLoop_never_hangs (c := c) (n := foreverFuel { s with pc := ⟨.waitForever, 1⟩, stack := s.pc :: s.stack })
    (s := { s with pc := ⟨.waitForever, 1⟩, stack := s.pc :: s.stack }) hp (by simp only [foreverFuel, deadline]; omega)
    (by simp only [foreverFuel]; omega) with ⟨t, e⟩ | ⟨t, e⟩
  · rw [e]; exact .inl ⟨_, rfl⟩
  · rw [e]; exact .inr ⟨t, rfl⟩
end Sys2Proof.Machine
end

