-- ==== Sys2Proof/Laws/Wire.lean ====
section
/-! SUPPORT. What an operation that returns has put on the lines, whatever the interrupt sources choose. -/

namespace Sys2Proof.Machine

/-- A sequence that returns: its first part has returned, and the rest from the state that left. -/
theorem bind_returns {α β : Type} {m : Op α} {f : α → Op β} {s t : State} {b : β} (h : (m >>= f) s = .ok b t) :
    ∃ a u, m s = .ok a u ∧ f a u = .ok b t := by
  rw [run_bind] at h
  split at h
  · exact ⟨_, _, ‹_›, h⟩
  · cases h

/-- A call that returns: its body has returned, and only the location and the stack are put back (R33). -/
theorem call_returns_body {α : Type} {o : OpName} {m : Op α} {s t : State} {a : α} (h : call o m s = .ok a t) :
    ∃ u, m { s with pc := ⟨o, 1⟩, stack := s.pc :: s.stack } = .ok a u ∧ t = { u with pc := s.pc, stack := s.stack } := by
  rw [run_call] at h
  split at h
  · cases h; exact ⟨_, ‹_›, rfl⟩
  · cases h

/-- A register that is read and returns holds the value read (R34). -/
theorem readReg_returns {α : Type} {get : State → Option α} {s t : State} {a : α} (h : readReg get s = .ok a t) :
    get s = some a ∧ t = s := by
  unfold readReg at h
  split at h
  · cases h; exact ⟨‹_›, rfl⟩
  · cases h

/-- A delay that returns lasts what the interrupt sources make of it, and changes nothing else (R110). -/
theorem delay_returns {d : Nat} {s t : State} (h : delay d s = .ok () t) :
    t = { irqTaken s with now := s.now + delayLength s d (irqChoice s) } ∧ t.now ≤ deadline s := by
  have h1 : (irqTaken s).now = s.now ∧ (irqTaken s).wdtLast = s.wdtLast ∧ (irqTaken s).cfg = s.cfg ∧ (irqTaken s).ie = s.ie := by
    unfold irqTaken; split <;> exact ⟨rfl, rfl, rfl, rfl⟩
  obtain ⟨a, b, c, e⟩ := h1
  have hl : delayLength (irqTaken s) d (irqChoice s) = delayLength s d (irqChoice s) := by simp only [delayLength, c, e]
  rw [run_delay, hl] at h
  unfold passTime at h
  split at h
  · cases h
  · rename_i hx
    cases h
    rw [a, b, c] at hx
    exact ⟨by rw [a], by simp only [deadline, a]; omega⟩

/-- What a delay inside an atomic section changes when it returns: time, by its length and at most `T_EPS`, and what the interrupt
sources have chosen (R110, R114). -/
theorem delay_returns_atomic {d : Nat} {s t : State} (hie : s.ie = false) (h : delay d s = .ok () t) :
    ∃ u i k, t = { s with now := u, irq := i, draws := k } ∧ s.now + d ≤ u ∧ u ≤ s.now + d + s.cfg.tEps := by
  have h1 := delayLength_ge s d (irqChoice s)
  have h2 := delayLength_atomic hie d (irqChoice s)
  refine ⟨t.now, t.irq, t.draws, ?_, ?_⟩
  all_goals rw [(delay_returns h).1]
  · unfold irqTaken; split <;> rfl
  · exact ⟨by simp only; omega, by simp only; omega⟩

/-- The lines during the window of one bit: CLOCK released, DATA asserted for a 0 (R86, R116 lines 5 and 6). -/
def bitOut (o : Lines) (bit : Bool) : Lines := (if bit then o else o ||| lineMask .data) &&& ~~~lineMask .clock

/-- The lines after one bit: CLOCK asserted, DATA released (R116 line 8). -/
def bitDone (o : Lines) : Lines := (o ||| lineMask .clock) &&& ~~~lineMask .data

/-- DATA is driven for a 0 by one line write, for a 1 by none (R116 line 5). -/
theorem run_driveBit (bit : Bool) (s : State) : driveBit bit s = .ok () { s with
    out := if bit then s.out else s.out ||| lineMask .data
    lineLog := s.lineLog ++ if bit then [] else [⟨s.now, s.pc, s.out ||| lineMask .data⟩] } := by
  cases bit
  · rfl
  · simp [driveBit]

/-- Everything one bit of `send_byte` that returns has done (R116 lines 4 to 9): bit 0 of the shift register on the bus in a window
that lasts `T_BIT_HOLD` and at most `T_EPS`, after a setup of `T_BIT_SETUP` and at most `T_EPS`; the register shifted. -/
theorem sendBit_returns {s t : State} {v : Byte} (hv : s.sr = some v) (hie : s.ie = false) (h : sendBit s = .ok () t) :
    ∃ a b more, t.lineLog = s.lineLog ++ more ++ [⟨a, ⟨s.pc.op, 6⟩, bitOut s.out (v.getLsbD 0)⟩, ⟨b, ⟨s.pc.op, 8⟩, bitDone s.out⟩] ∧
      (∀ w ∈ more, w.loc = ⟨s.pc.op, 5⟩) ∧
      s.now + s.cfg.tBitSetup ≤ a ∧ a ≤ s.now + s.cfg.tBitSetup + s.cfg.tEps ∧
      a + s.cfg.tBitHold ≤ b ∧ b ≤ a + s.cfg.tBitHold + s.cfg.tEps ∧
      t = { s with now := b, irq := t.irq, draws := t.draws, out := bitDone s.out, lineLog := t.lineLog, sr := some (v >>> 1),
                   pc := ⟨s.pc.op, 9⟩ } := by
  have key : ∀ (o : Lines) (x : Bool), ((bitOut o x ||| lineMask .clock) &&& ~~~lineMask .data) = bitDone o := by decide
  obtain ⟨_, _, h0, h⟩ := bind_returns h
  cases h0
  obtain ⟨_, _, h0, h⟩ := bind_returns h
  cases h0
  obtain ⟨_, _, h0, h⟩ := bind_returns h
  obtain ⟨a, i, k, rfl, ha, ha'⟩ := delay_returns_atomic (by exact hie) h0
  obtain ⟨_, _, h0, h⟩ := bind_returns h
  cases h0
  obtain ⟨_, _, h0, h⟩ := bind_returns h
  obtain ⟨hw, rfl⟩ := readReg_returns h0
  cases hv.symm.trans hw
  obtain ⟨_, _, h0, h⟩ := bind_returns h
  cases (run_driveBit _ _).symm.trans h0
  obtain ⟨_, _, h0, h⟩ := bind_returns h
  cases h0
  obtain ⟨_, _, h0, h⟩ := bind_returns h
  cases h0
  obtain ⟨_, _, h0, h⟩ := bind_returns h
  cases h0
  obtain ⟨_, _, h0, h⟩ := bind_returns h
  cases h0
  obtain ⟨_, _, h0, h⟩ := bind_returns h
  obtain ⟨b, i', k', rfl, hb, hb'⟩ := delay_returns_atomic (by exact hie) h0
  obtain ⟨_, _, h0, h⟩ := bind_returns h
  cases h0
  obtain ⟨_, _, h0, h⟩ := bind_returns h
  cases h0
  obtain ⟨_, _, h0, h⟩ := bind_returns h
  cases h0
  obtain ⟨_, _, h0, h⟩ := bind_returns h
  obtain ⟨hw, rfl⟩ := readReg_returns h0
  cases hv.symm.trans hw
  cases h
  have hk := key s.out (v.getLsbD 0)
  simp only [bitOut] at hk
  refine ⟨a, b, if v.getLsbD 0 then [] else [⟨a, ⟨s.pc.op, 5⟩, s.out ||| lineMask .data⟩], ?_, ?_, ha, ha', hb, hb', ?_⟩
  · simp only [bitOut, hk, List.append_assoc, List.cons_append, List.nil_append]
  · split <;> simp
  · simp only [hk]

/-- Everything the storing of a received byte does where the buffer has room (R155 lines 13 to 15): the byte at index `CNT`, which
`IDX` then holds, one more byte counted, one line write that asserts DATA, one `Status`. -/
theorem run_storeByte (b : Byte) {s : State} {c : Nat} (hc : s.cnt = some c) (h : c < s.cfg.bufCap) :
    storeByte b s = .ok () { s with
      buf := cellSet s.buf c b
      idx := some c
      cnt := some (c + 1)
      out := s.out ||| lineMask .data
      lineLog := s.lineLog ++ [⟨s.now, ⟨s.pc.op, 14⟩, s.out ||| lineMask .data⟩]
      trace := s.trace ++ [.status]
      pc := ⟨s.pc.op, 15⟩ } := by
  have hm : ∀ t : State, t.cfg = s.cfg → memWrite c [b] t = .ok () { t with buf := cellSet t.buf c b } := fun t ht =>
    run_memWrite c [b] t (by rw [ht]; exact h)
  simp [storeByte, run_bind, readReg, hc, hm]

end Sys2Proof.Machine
end

