-- ==== Sys2Proof/Tests/Slice0.lean ====
section
/-! SUPPORT. The model's own tests: ill-formed terms, frames written out from the encodings, vectors of 95_test_vectors.md, and a
witness for the hypotheses of each obligation. -/

namespace Sys2Proof.Tests

open Sys2Proof Sys2Proof.Machine

-- One theorem at a time: many kernel evaluations at once need more threads than memory allows.
set_option Elab.async false

/-! ### Helpers -/

/-- The parameters of the vectors (95_test_vectors.md section 0), with a long watchdog and some legal `PHYS_MAP`. -/
def benchParams : Params := { Config.initial with
  bufCap := 16, tWdt := 100000000, physMap := { data := 4, clock := 2, atn := 0, reset := 7 } }

/-- The power-on state with those parameters, no interrupt for 120 delays, and no device on the bus. -/
def bench : State :=
  { State.reset with cfg := benchParams, result := 0, ieSaved := false, irq := List.replicate 120 0, bus := [⟨100000000, 0⟩] }

/-- The state an instruction leaves. -/
def after (i : Instr) (s : State) : State :=
  match exec i s with
  | .next t => t
  | .fault _ => s
  | .refused _ => s

/-- The state a step leaves. -/
def afterStep (s : State) : State :=
  match step s with
  | .next t => t
  | .fault _ => s
  | .refused _ => s

/-- A step that answers a next state. -/
def goesOn (s : State) : Bool :=
  match step s with
  | .next _ => true
  | .fault _ => false
  | .refused _ => false

theorem exec_after (i : Instr) (s : State) : exec i s = .next (after i s) := by cases i <;> rfl

/-- The bus of a talker that takes CLOCK at time `u`, then holds it for 60 µs and releases it for 60 µs for each bit of `v`. -/
def talkerBits (u : Nat) (v : Byte) : List BusSpan :=
  (List.range 8).flatMap fun i =>
    let d : Lines := if v.getLsbD i then 0 else 1
    [⟨u + 120 * i + 60, 2 ||| d⟩, ⟨u + 120 * i + 120, d⟩]

/-- Bus of a perfect listener for one byte with EOI, from time 0 (95_test_vectors.md, PL). -/
def listenerEoi : List BusSpan := [⟨20, 0⟩, ⟨90, 1⟩, ⟨270, 0⟩, ⟨330, 1⟩, ⟨1150, 0⟩, ⟨100000, 1⟩]

/-- Bus of a drive that answers the reset probe (95_test_vectors.md, DRV). -/
def drive : List BusSpan := [⟨30350, 0⟩, ⟨31100, 1⟩, ⟨100000, 0⟩]

/-- Bus of a listener that answers every wait at the engine's second sample, for one byte with EOI. -/
def quickListener : List BusSpan := [⟨55, 3⟩, ⟨65, 0⟩, ⟨75, 1⟩, ⟨85, 0⟩, ⟨100000, 3⟩]

/-- Bus of a talker that changes CLOCK at every sample and sends 0x05 from time 0. -/
def quickTalker (u : Nat) : List BusSpan :=
  [⟨u + 5, 2⟩, ⟨u + 15, 0⟩, ⟨u + 25, 2⟩, ⟨u + 35, 1⟩, ⟨u + 45, 2⟩, ⟨u + 55, 0⟩, ⟨u + 65, 2⟩, ⟨u + 75, 1⟩, ⟨u + 85, 2⟩,
   ⟨u + 95, 1⟩, ⟨u + 105, 2⟩, ⟨u + 115, 1⟩, ⟨u + 125, 2⟩, ⟨u + 135, 1⟩, ⟨u + 145, 2⟩, ⟨u + 155, 1⟩, ⟨u + 100000, 2⟩]

theorem quick_listens {s : State} (hb : s.bus = quickListener) (hc : s.cfg = benchParams) (hn : s.now = 0) :
    listens s true s.now 1 := by
  have h : ∀ u, levelAt s.bus u = levelAt quickListener u := fun u => by rw [hb]
  simp only [listens, byteEnd, bitsTime, pulled, floats, h, hc, hn]
  decide +kernel

/-- A bus on which a line floats for long (`k` is the level then). -/
theorem steady_level {s : State} {n u : Nat} {k : Lines} (h : s.bus = [⟨n, k⟩]) (hu : u < n) : levelAt s.bus u = k := by
  simp [h, levelAt, hu]

/-! ### Well-formedness refuses -/

theorem test_illFormed_submitWrite : (Instr.submitWrite 2 [0x41]).wellFormed = false := by decide
theorem test_illFormed_submitAsync : (Instr.submitAsync 1 0 1 [0x3F, 0x31]).wellFormed = false := by decide
theorem test_illFormed_write : (Instr.write 1 3 false false).wellFormed = false := by decide
theorem test_wellFormed : (Instr.submitWrite 2 [0x41, 0x42]).wellFormed = true ∧ (Instr.write 2 3 true true).wellFormed = true := by
  decide

/-! ### Frames written out from R88 and R89 -/

theorem test_decode_requestRead : decode [0b00000001, 0b00000011] = .frame (.requestRead 3) [] := by decide
theorem test_decode_collectRead : decode [0b00000010, 0b00001000] = .frame (.collectRead 8) [] := by decide
theorem test_decode_submitWrite :
    decode [0b00000011, 0b00000010, 0x41, 0x42, 0x05] = .frame (.submitWrite 2 [0x41, 0x42]) [0x05] := by decide
theorem test_decode_submitAsync :
    decode [0b00000100, 0x01, 0x00, 0b00000010, 0x3F, 0x31] = .frame (.submitAsync 1 0 2 [0x3F, 0x31]) [] := by decide
/-- DC6: two frames in order. -/
theorem test_decode_queryResult : decode [0b00000101, 0b00000111] = .frame .queryResult [0x07] := by decide
theorem test_decode_logicalWait : decode [0b00000110, 0x02, 0x01] = .frame (.logicalWait 2 1) [] := by decide
theorem test_decode_logicalPoll : decode [0b00000111] = .frame .logicalPoll [] := by decide
theorem test_decode_setRelease : decode [0b00001000, 0x04, 0x01] = .frame (.setRelease 4 1) [] := by decide
theorem test_decode_busReset : decode [0b00001001] = .frame .busReset [] := by decide
/-- DC1, DC2, DC3: the reserved opcodes at the edges of R89's map. -/
theorem test_decode_reserved : decode [0x00] = .reserved 0x00 ∧ decode [0x0A, 0x10, 0x00] = .reserved 0x0A ∧
    decode [0xFF, 0x05] = .reserved 0xFF ∧ decode [0x09] ≠ .reserved 0x09 := by decide
/-- DC4, DC5: a frame that has not all arrived is none. -/
theorem test_decode_incomplete : decode [] = .incomplete ∧ decode [0x01] = .incomplete ∧
    decode [0x04, 0x01, 0x00, 0x03, 0x3F, 0x31] = .incomplete := by decide
theorem test_tableWord : decodeTableWord 8 0x05 = some .queryResult ∧ decodeTableWord 8 0x08 = some (.setRelease 0 0) ∧
    decodeTableWord 8 0x0A = none := by decide
theorem test_fetchWord : goesOn (State.reset.withFetchWord 8 0x05) = true ∧
    (afterStep (State.reset.withFetchWord 8 0x08)).pc = mainAt 5 := by decide

/-! ### Host commands (95_test_vectors.md section 2.9) -/

/-- HC3: the largest legal length. -/
theorem test_requestRead : (after (.requestRead 16) bench).len = 16 ∧ (after (.requestRead 16) bench).req = .read := by decide
/-- HC4, HC2. -/
theorem test_requestRead_faults : (after (.requestRead 17) bench).fault = some .hostPrecondition ∧
    (after (.requestRead 0) bench).fault = some .hostPrecondition ∧ (after (.requestRead 0) bench).len = 0 := by decide
/-- HC8 and HC9. -/
theorem test_collectRead :
    (after (.collectRead 8) { bench with req := .readDone, len := 2, buf := [(0, 0x10), (1, 0x20)], xfer := [true] }).hout =
      [[0x02, 0x10, 0x20]] ∧
    (after (.collectRead 1) { bench with req := .readDone, len := 2, buf := [(0, 0x10), (1, 0x20)], xfer := [true] }).hout =
      [[0x01, 0x10]] := by decide
/-- HC12. -/
theorem test_collectRead_fails :
    (after (.collectRead 8) { bench with req := .readDone, len := 2, xfer := [false] }).hout = [[0x00]] ∧
    (after (.collectRead 8) { bench with req := .readDone, len := 2, xfer := [false] }).req = .idle := by decide
/-- HC14. -/
theorem test_submitWrite :
    (after (.submitWrite 3 [0x41, 0x42, 0x43]) { bench with xfer := [true] }).buf = [(0, 0x41), (1, 0x42), (2, 0x43)] ∧
    (after (.submitWrite 3 [0x41, 0x42, 0x43]) { bench with xfer := [true] }).req = .write := by decide
/-- HC16, HC18. -/
theorem test_submitWrite_fails :
    (after (.submitWrite 2 [0x41, 0x42]) { bench with xfer := [false] }).hout = [[0x00]] ∧
    (after (.submitWrite 2 [0x41, 0x42]) { bench with xfer := [false] }).req = .idle ∧
    (after (.submitWrite 1 [0x41]) { bench with req := .readDone }).fault = some .hostPrecondition := by decide
/-- HC19. -/
theorem test_submitAsync :
    (after (.submitAsync 1 0 2 [0x3F, 0x31]) bench).buf = [(0, 0x01), (1, 0x00), (2, 0x3F), (3, 0x31)] ∧
    (after (.submitAsync 1 0 2 [0x3F, 0x31]) bench).len = 2 := by decide
/-- HC22 and HC21: 15 and 14 payload bytes with `BUF_CAP = 16`. -/
theorem test_submitAsync_length :
    (after (.submitAsync 1 0 15 (List.replicate 15 0)) bench).fault = some .hostPrecondition ∧
    (after (.submitAsync 1 0 14 (List.replicate 14 0)) bench).req = .async := by decide
/-- HC24. -/
theorem test_queryResult :
    (after .queryResult { bench with req := .result, result := 3 }).hout = [[0x05, 0x03]] ∧
    (after .queryResult { bench with req := .result, result := 3 }).collected = true := by decide
/-- HC25: `QUERY_CLEARS_RESULT`. -/
theorem test_queryResult_clears :
    (after .queryResult { bench with req := .result, result := 3, cfg := { benchParams with queryClears := true } }).req = .idle := by
  decide
/-- HC27: the engine's own CLOCK counts. -/
theorem test_logicalWait : after (.logicalWait 2 1) { bench with out := 0b0010 } = { bench with out := 0b0010 } := by decide
/-- HC29 with a short watchdog (TP7's rule): the reset comes at the first instant past `T_WDT`. -/
theorem test_logicalWait_watchdog :
    (after (.logicalWait 1 1) { bench with cfg := { benchParams with tWdt := 95 } }).now = 96 ∧
    (after (.logicalWait 1 1) { bench with cfg := { benchParams with tWdt := 95 } }).resets = 1 := by decide +kernel
/-- HC35, HC36, HC37. -/
theorem test_logicalPoll :
    (after .logicalPoll { bench with out := 0b0010, bus := [⟨10, 1⟩] }).hout = [[0x03]] ∧
    (after .logicalPoll { bench with out := 0b1000 }).hout = [[0x00]] ∧
    (after .logicalPoll { bench with bus := [⟨10, 4⟩] }).hout = [[0x04]] := by decide
/-- HC40, HC42. -/
theorem test_setRelease : (after (.setRelease 5 2) { bench with out := 0b0010 }).out = 0b0101 ∧
    (after (.setRelease 8 0) bench).out = 0b1000 := by decide
/-- HC43, HC45. -/
theorem test_setRelease_faults : (after (.setRelease 3 1) bench).fault = some .invalidOperand ∧
    (after (.setRelease 0 0xF0) bench).fault = some .invalidOperand := by decide
/-- HC46, RS1. -/
theorem test_busReset : (after .busReset { bench with bus := drive }).now = 31150 ∧
    (after .busReset { bench with bus := drive }).out = 0 ∧
    (after .busReset { bench with bus := drive }).trace = [.kick] := by decide +kernel

/-! ### Internal operations (95_test_vectors.md sections 2.2 to 2.7) -/

/-- SB3: the windows, the acknowledgement. -/
theorem test_sendByte :
    let t := after (.sendByte 0x05) { bench with out := 0b0010, bus := [⟨820, 0⟩, ⟨100000, 1⟩] }
    t.ok = some true ∧ t.now = 820 ∧ t.sr = some 0 ∧ t.out = 0b0010 ∧
    t.lineLog.filterMap (fun w => if w.loc.line = 6 then some (w.out.getLsbD 0) else none) =
      [false, true, false, true, true, true, true, true] := by decide +kernel
/-- RB1 and RB6. -/
theorem test_receiveByte :
    (after .receiveByte { bench with bus := talkerBits 0 0x05 ++ [⟨100000, 2⟩] }).sr = some 0x05 ∧
    (after .receiveByte { bench with bus := talkerBits 0 0x05 ++ [⟨100000, 2⟩] }).ok = some true := by decide +kernel
/-- RB4: the last bit received is bit 7. -/
theorem test_receiveByte_order :
    (after .receiveByte { bench with bus := talkerBits 0 0x80 ++ [⟨100000, 2⟩] }).sr = some 0x80 := by decide +kernel
/-- WR1: one byte with the EOI handshake. -/
theorem test_write :
    let t := after (.write 0 1 false false) { bench with eoi := true, buf := [(0, 0x41)], bus := listenerEoi }
    t.cnt = some 1 ∧ t.out = 0b0010 ∧ t.trace = [.status] ∧ t.eoi = false ∧ t.now = 1150 := by decide +kernel
/-- WR5: no listener. -/
theorem test_write_absent :
    let t := after (.write 0 3 false false) bench
    t.cnt = some 0 ∧ t.out = 0 ∧ t.trace = [.deviceAbsent] ∧ t.now = 1000 := by decide +kernel
/-- RD10: one byte with EOI. -/
theorem test_read :
    let t := after (.read 1) { bench with
      out := 0b0001, irq := List.replicate 400 0, bus := [⟨100, 2⟩, ⟨600, 0⟩] ++ talkerBits 600 0x0D ++ [⟨100000, 2⟩] }
    t.cnt = some 1 ∧ t.idx = some 0 ∧ t.buf = [(0, 0x0D)] ∧ t.eoi = true ∧ t.out = 0b0001 ∧
    t.trace.filter (· != .kick) = [.status] := by decide +kernel
/-- RD5: `EOI` latched. -/
theorem test_read_latched :
    let t := after (.read 4) { bench with out := 0b0001, eoi := true }
    t.cnt = some 0 ∧ t.now = 0 ∧ t.out = 0b0001 ∧ t.lineLog = [] := by decide +kernel
/-- RS5: nothing but the lines changes. -/
theorem test_reset :
    let t := after .reset { bench with bus := drive, out := 0b0111, eoi := true, req := .result, result := 3, len := 3 }
    t.out = 0 ∧ t.eoi = true ∧ t.req = .result ∧ t.result = 3 ∧ t.len = 3 ∧ t.now = 31150 := by decide +kernel
/-- RS6: the watchdog fires inside the hold. -/
theorem test_reset_watchdog :
    let t := after .reset { bench with bus := drive, cfg := { benchParams with tWdt := 20000 } }
    t.resets = 1 ∧ t.now = 20001 ∧ t.out = 0 ∧ t.trace = [] ∧ t.pc = mainAt 1 := by decide +kernel
/-- DS5. -/
theorem test_dispatchWrite :
    let t := after .dispatchWrite { bench with req := .write, len := 3, collected := true }
    t.req = .result ∧ t.result = 0 ∧ t.collected = false ∧ t.trace = [.deviceAbsent] := by decide +kernel
/-- W8: a zero-length write under ATN with a hand-off. -/
theorem test_dispatchAsync :
    let t := after .dispatchAsync { bench with
      req := .async, len := 0, buf := [(0, 1), (1, 1)], bus := [⟨20, 0⟩, ⟨40, 1⟩, ⟨100000, 2⟩] }
    t.req = .result ∧ t.result = 0 ∧ t.out = 0b0001 ∧
    t.lineLog.map (fun w => w.out) = [0b0000, 0b0110, 0b0001] := by decide +kernel
/-- RD11 through dispatch: one byte without EOI. -/
theorem test_dispatchRead :
    let t := after .dispatchRead { bench with
      req := .read, len := 1, irq := List.replicate 400 0, bus := [⟨40, 0⟩] ++ talkerBits 40 0x10 ++ [⟨100000, 2⟩] }
    t.req = .readDone ∧ t.len = 1 ∧ t.buf = [(0, 0x10)] ∧ t.eoi = false := by decide +kernel
/-- DS1. -/
theorem test_dispatchNone : after .dispatchNone bench = bench := by decide

/-! ### Witnesses: for each obligation with hypotheses, a state and operands that meet all of them -/

theorem witness_DecodeOfEncode : ∃ i bs, Instr.wellFormed i = true ∧ encode i = some bs :=
  ⟨.submitAsync 1 0 2 [0x3F, 0x31], _, by decide, rfl⟩

theorem witness_DecodeTakesExactlyOneFrame : ∃ q rest i, decode q = .frame i rest := ⟨[0x05, 0x07], [0x07], .queryResult, by decide⟩

theorem witness_StepRunsTheDecodedCommand : ∃ (s : State) (i : Instr) (rest : List Byte),
    s.fault = none ∧ wdtExpired s = false ∧ s.pc = mainAt 1 ∧ decode (deliver s).hin = .frame i rest :=
  ⟨{ bench with hin := [0x05] }, .queryResult, [], by decide, by decide, by decide, by decide⟩

theorem witness_StepRunsTheDispatch : ∃ s : State, s.fault = none ∧ wdtExpired s = false ∧ s.pc = mainAt 5 :=
  ⟨{ bench with pc := mainAt 5 }, by decide, by decide, by decide⟩

theorem witness_ReservedOpcodeFaults : ∃ (s : State) (op : Byte), s.fault = none ∧ wdtExpired s = false ∧ s.pc = mainAt 1 ∧
    decode (deliver s).hin = .reserved op :=
  ⟨{ bench with host := [⟨0, .send [0x0A]⟩] }, 0x0A, by decide, by decide, by decide, by decide⟩

theorem witness_IncompleteFrameWaits : ∃ s : State, s.fault = none ∧ wdtExpired s = false ∧ s.pc = mainAt 1 ∧
    decode (deliver s).hin = .incomplete ∧ quietFor 1 s ∧ s.cfg.tPoll ≤ s.cfg.tWdt :=
  ⟨{ bench with hin := [0x01] }, by decide, by decide, by decide, by decide, ⟨List.replicate 119 0, rfl⟩, by decide⟩

theorem witness_FaultedEngineTakesNoStep : ∃ (s : State) (k : FaultKind), s.fault = some k :=
  ⟨{ bench with fault := some .bufferOverrun }, _, rfl⟩

/-- Expired at the start of a step, at the first instant past `T_WDT`. -/
theorem witness_WatchdogResetState : ∃ s : State, s.fault = none ∧ s.now - s.wdtLast > s.cfg.tWdt :=
  ⟨{ bench with now := 100000001 }, by decide, by decide⟩

/-- The bench with a watchdog that expires inside the hold of a bus reset. -/
def hasty : State := { bench with cfg := { benchParams with tWdt := 20000 } }

/-- Inside an instruction, and inside a step that runs one. -/
theorem witness_WatchdogResetState_inside :
    (after .reset hasty).resets ≠ hasty.resets ∧
    goesOn { hasty with hin := [0x09] } = true ∧ (afterStep { hasty with hin := [0x09] }).resets ≠ hasty.resets := by
  decide +kernel

/-- While the main loop idles: a poll that lasts longer than `T_WDT`. -/
theorem witness_WatchdogResetState_idle :
    goesOn { bench with cfg := { benchParams with tWdt := 5 } } = true ∧
    (afterStep { bench with cfg := { benchParams with tWdt := 5 } }).resets ≠ bench.resets := by
  decide +kernel

/-- The setter precondition as the spec writes it (R196). -/
abbrev mayArm (s : State) : Prop := s.req = .idle ∨ (s.req = .result ∧ s.collected = true)

/-- The precondition at its edges: an outcome not collected, one collected, no request, an armed request. -/
theorem witness_mayArm : ¬ mayArm { bench with req := .result, collected := false } ∧
    mayArm { bench with req := .result, collected := true } ∧ mayArm bench ∧ ¬ mayArm { bench with req := .async } ∧
    ¬ mayArm { bench with req := .readDone, collected := true } := by decide

/-- The three clauses, at the edges 0, `BUF_CAP`, `BUF_CAP + 1`. -/
theorem witness_RequestReadMeaning : ¬ mayArm { bench with req := .result } ∧ mayArm bench ∧
    ((0 : Byte) = 0 ∨ bench.cfg.bufCap < (0 : Byte).toNat) ∧ ¬ ((16 : Byte) = 0 ∨ bench.cfg.bufCap < (16 : Byte).toNat) ∧
    ((17 : Byte) = 0 ∨ bench.cfg.bufCap < (17 : Byte).toNat) := by decide

/-- Both clauses, and both outcomes of the transfer. -/
theorem witness_CollectReadMeaning : bench.len.toNat ≤ bench.cfg.bufCap ∧ bench.req ≠ .readDone ∧
    ({ bench with req := .readDone } : State).req = .readDone ∧ xferChoice { bench with xfer := [true] } = true ∧
    xferChoice { bench with xfer := [false] } = false := by decide

theorem witness_SubmitWriteMeaning :
    (Instr.submitWrite 16 (List.replicate 16 7)).wellFormed = true ∧ (Instr.submitWrite 17 (List.replicate 17 7)).wellFormed = true ∧
    ¬ mayArm { bench with req := .readDone } ∧ mayArm bench ∧ bench.cfg.bufCap < (17 : Byte).toNat ∧
    ¬ bench.cfg.bufCap < (16 : Byte).toNat ∧ xferChoice { bench with xfer := [true] } = true := by decide

theorem witness_SubmitWriteTransportFailure : ∃ (s : State) (n : Byte),
    (s.req = .idle ∨ (s.req = .result ∧ s.collected = true)) ∧ n.toNat ≤ s.cfg.bufCap ∧ xferChoice s = false :=
  ⟨{ bench with req := .result, collected := true, xfer := [false] }, 16, by decide, by decide, by decide⟩

theorem witness_SubmitAsyncMeaning : 3 ≤ bench.cfg.bufCap ∧
    (Instr.submitAsync 1 0 14 (List.replicate 14 7)).wellFormed = true ∧
    (Instr.submitAsync 1 0 15 (List.replicate 15 7)).wellFormed = true ∧
    ¬ mayArm { bench with req := .async } ∧ mayArm bench ∧
    bench.cfg.bufCap - 2 < (15 : Byte).toNat ∧ ¬ bench.cfg.bufCap - 2 < (14 : Byte).toNat := by decide

/-- The line selectors as the spec numbers them (R81, R82). -/
abbrev selectors : List (Byte × Line) := [(0x01, .data), (0x02, .clock), (0x04, .atn), (0x08, .reset)]

/-- Both wait states, for each of the four lines: asserted by the engine, and released. -/
theorem witness_LogicalWaitEndsAtOnce : ∀ p ∈ selectors,
    asserted p.2 { bench with out := p.1.setWidth 4 } = true ∧ released p.2 bench = true := by decide

theorem witness_LogicalWaitReturnsOnItsCondition : ∃ (s t : State) (l : Line) (sel state : Byte),
    (sel, l) ∈ ([(0x01, .data), (0x02, .clock), (0x04, .atn), (0x08, .reset)] : List (Byte × Line)) ∧
    exec (.logicalWait sel state) s = .next t ∧ returned s t :=
  ⟨{ bench with bus := [⟨95, 0⟩, ⟨100000, 1⟩] }, _, .data, 1, 1, by decide, rfl, by unfold returned; decide +kernel⟩

/-- At the edges: no line, two lines, bit 4. -/
theorem witness_LogicalWaitSelectorFault : ∀ sel ∈ ([0x00, 0x03, 0x10] : List Byte),
    ¬ (sel = 0x01 ∨ sel = 0x02 ∨ sel = 0x04 ∨ sel = 0x08) := by decide

theorem witness_LogicalWaitOutlastsWatchdog : ∃ (s : State) (l : Line) (sel state : Byte),
    (sel, l) ∈ ([(0x01, .data), (0x02, .clock), (0x04, .atn), (0x08, .reset)] : List (Byte × Line)) ∧ 1 ≤ s.cfg.tPoll ∧
    (∀ u, s.now ≤ u → u ≤ deadline s →
      (if state ≠ 0 then asserted l { s with now := u } = false else released l { s with now := u } = false)) ∧
    s.now ≤ deadline s := by
  refine ⟨{ bench with cfg := { benchParams with tWdt := 95 } }, .data, 1, 1, by decide, by decide, fun u _ h => ?_, by decide⟩
  have h1 : u ≤ 95 := h
  have h2 : u < 100000000 := by omega
  simp [asserted, State.busLevel, State.dev, bench, State.reset, levelAt, h2]

/-- Each reason to fault, at its edge, and a legal pair. -/
theorem witness_SetReleaseMeaning : 16 ≤ (0x10 : Byte).toNat ∧ 16 ≤ (0xF0 : Byte).toNat ∧ (3 : Byte) &&& 1 ≠ 0 ∧
    ¬ (16 ≤ (0x0F : Byte).toNat ∨ 16 ≤ (0x00 : Byte).toNat ∨ (0x0F : Byte) &&& 0x00 ≠ 0) := by decide

/-- One that returns, and one that the watchdog ends. -/
theorem witness_BusResetIsReset : ∃ s t s' t' : State, exec .busReset s = .next t ∧ returned s t ∧
    exec .busReset s' = .next t' ∧ t'.resets ≠ s'.resets :=
  ⟨{ bench with bus := drive }, _, { bench with cfg := { benchParams with tWdt := 20000 } }, _, rfl,
    by unfold returned; decide +kernel, rfl, by decide +kernel⟩

theorem witness_SendByteAcknowledged : ∃ s : State, quietFor 16 s ∧ s.now + bitsTime s.cfg ≤ deadline s ∧
    pulled s .data (s.now + bitsTime s.cfg) :=
  ⟨{ bench with bus := [⟨100000, 1⟩] }, ⟨List.replicate 104 0, rfl⟩, by decide, by unfold pulled; decide⟩

theorem witness_SendByteNak : ∃ s : State, quietFor (16 + sampleCount s.cfg.tAck s.cfg.tPoll) s ∧
    s.now + bitsTime s.cfg + sampleCount s.cfg.tAck s.cfg.tPoll * s.cfg.tPoll ≤ deadline s ∧
    (∀ u, s.now + bitsTime s.cfg ≤ u → u ≤ s.now + bitsTime s.cfg + sampleCount s.cfg.tAck s.cfg.tPoll * s.cfg.tPoll →
      floats s .data u) := by
  refine ⟨{ bench with irq := List.replicate 216 0 }, ⟨[], by decide +kernel⟩, by decide, fun u _ h => ?_⟩
  have h1 : u ≤ 2720 := Nat.le_trans h (by decide +kernel)
  unfold floats
  rw [steady_level (s := { bench with irq := List.replicate 216 0 }) rfl (by omega)]; decide

/-- With interrupt sources that want every delay longer, and a nonzero `T_EPS`. -/
theorem witness_SendByteWireEncoding : ∃ (s t : State) (v : Byte), s.out.getLsbD 0 = false ∧ exec (.sendByte v) s = .next t ∧
    returned s t :=
  ⟨{ bench with bus := [⟨100000, 1⟩], irq := List.replicate 20 7, cfg := { benchParams with tEps := 3 } }, _, 0xA5, by decide,
    rfl, by unfold returned; decide +kernel⟩

theorem witness_SendByteFrame : ∃ (s t : State) (v : Byte), exec (.sendByte v) s = .next t ∧ t.resets = s.resets :=
  ⟨{ bench with bus := [⟨100000, 1⟩] }, _, 0xA5, rfl, by decide +kernel⟩

theorem witness_ReceiveByteFromTalker : ∃ (s : State) (v : Byte), s.out &&& (lineMask .data ||| lineMask .clock) = 0 ∧
    quietFor 16 s ∧ 2 ≤ sampleCount s.cfg.tRxBit s.cfg.tPoll ∧ talksByte s s.now v ∧ s.now + talkTime s.cfg ≤ deadline s :=
  ⟨{ bench with bus := quickTalker 0 }, 0x05, by decide, ⟨List.replicate 104 0, rfl⟩, by decide,
    by unfold talksByte pulled floats; decide +kernel, by decide⟩

theorem witness_ReceiveByteFrame : ∃ s t : State, exec .receiveByte s = .next t ∧ t.resets = s.resets :=
  ⟨{ bench with bus := quickTalker 0 }, _, rfl, by decide +kernel⟩

/-- Bus of such a listener for one byte under ATN, which carries no EOI. -/
def quickAtnListener : List BusSpan := [⟨55, 3⟩, ⟨65, 0⟩, ⟨100000, 3⟩]

theorem quick_listens_atn {s : State} (hb : s.bus = quickAtnListener) (hc : s.cfg = benchParams) (hn : s.now = 0) :
    listens s false s.now 1 := by
  have h : ∀ u, levelAt s.bus u = levelAt quickAtnListener u := fun u => by rw [hb]
  simp only [listens, byteEnd, bitsTime, pulled, floats, h, hc, hn]
  decide +kernel

/-- From index 2 on, with and without ATN, with and without a talk hand-off, for no byte and for one. -/
theorem witness_WriteToListener : ∀ atn : Bool, ∃ s : State, ∀ talk : Bool, ∀ n : Byte, n = 0 ∨ n = 1 →
    2 + n.toNat ≤ s.cfg.bufCap ∧ listens s (!atn) s.now n.toNat ∧ quietFor (20 * n.toNat) s ∧
    listenEnd s.cfg (!atn) s.now n.toNat ≤ deadline s ∧
    (talk = true → pulled s .clock (listenEnd s.cfg (!atn) s.now n.toNat)) := by
  intro atn
  cases atn
  · refine ⟨{ bench with bus := quickListener }, fun talk n hn => ?_⟩
    rcases hn with rfl | rfl
    · exact ⟨by decide, show pulled _ _ _ by unfold pulled; decide, ⟨List.replicate 120 0, rfl⟩, by decide,
        fun _ => by unfold pulled; decide⟩
    · exact ⟨by decide, quick_listens rfl rfl rfl, ⟨List.replicate 100 0, rfl⟩, by decide, fun _ => by unfold pulled; decide⟩
  · refine ⟨{ bench with bus := quickAtnListener }, fun talk n hn => ?_⟩
    rcases hn with rfl | rfl
    · exact ⟨by decide, show pulled _ _ _ by unfold pulled; decide, ⟨List.replicate 120 0, rfl⟩, by decide,
        fun _ => by unfold pulled; decide⟩
    · exact ⟨by decide, quick_listens_atn rfl rfl rfl, ⟨List.replicate 100 0, rfl⟩, by decide, fun _ => by unfold pulled; decide⟩

theorem witness_WriteWithoutListener : ∃ s : State,
    (∀ u, s.now ≤ u → u ≤ s.now + sampleCount s.cfg.tListenClaim s.cfg.tPoll * s.cfg.tPoll → floats s .data u) ∧
    quietFor (sampleCount s.cfg.tListenClaim s.cfg.tPoll) s ∧
    s.now + sampleCount s.cfg.tListenClaim s.cfg.tPoll * s.cfg.tPoll ≤ deadline s := by
  refine ⟨bench, fun u _ h => ?_, ⟨List.replicate 20 0, by decide +kernel⟩, by decide⟩
  have h1 : u ≤ 1000 := Nat.le_trans h (by decide +kernel)
  unfold floats
  rw [steady_level (s := bench) rfl (by omega)]; decide

/-- A write that returns its count, and one that returns 0. -/
theorem witness_WriteExitLines : ∃ s t s' t' : State, exec (.write 0 1 false false) s = .next t ∧ returned s t ∧
    exec (.write 0 1 false false) s' = .next t' ∧ returned s' t' :=
  ⟨{ bench with bus := quickListener, buf := [(0, 0x41)] }, _, bench, _, rfl, by unfold returned; decide +kernel, rfl,
    by unfold returned; decide +kernel⟩

theorem witness_WriteClearsEoi : ∃ s t : State, exec (.write 2 1 true false) s = .next t := ⟨bench, _, rfl⟩

theorem witness_WriteFrame : ∃ s t : State, exec (.write 0 1 false false) s = .next t ∧ t.resets = s.resets :=
  ⟨{ bench with bus := quickListener, buf := [(0, 0x41)] }, _, rfl, by decide +kernel⟩

/-- Such a talker of one byte 0x05 without EOI: it releases CLOCK at time 0 and takes it at 10. -/
theorem quick_talks {s : State} (hb : s.bus = ⟨5, 0⟩ :: quickTalker 10) (hc : s.cfg = benchParams) (hn : s.now = 0) :
    talks s false s.now [0x05] := by
  have h : ∀ u, levelAt s.bus u = levelAt (⟨5, 0⟩ :: quickTalker 10) u := fun u => by rw [hb]
  simp only [talks, talksByte, pulled, floats, h, hc, hn]
  decide +kernel

/-- Such a talker of one byte 0x05 with EOI: it takes CLOCK at 470, when the window of 400 and the pulse of 70 have passed. -/
theorem quick_talks_eoi {s : State} (hb : s.bus = ⟨465, 0⟩ :: quickTalker 470) (hc : s.cfg = benchParams) (hn : s.now = 0) :
    talks s true s.now [0x05] := by
  have h : ∀ u, levelAt s.bus u = levelAt (⟨465, 0⟩ :: quickTalker 470) u := fun u => by rw [hb]
  simp only [talks, talksByte, eoiWait, pulled, floats, h, hc, hn]
  decide +kernel

/-- Without EOI for the one byte asked for, and with EOI on the first of four asked for. -/
theorem witness_ReadFromTalker : ∀ p ∈ ([(1, false), (4, true)] : List (Byte × Bool)), ∃ (s : State) (bs : List Byte),
    1 ≤ bs.length ∧ bs.length ≤ p.1.toNat ∧ (p.2 = false → bs.length = p.1.toNat) ∧ bs.length ≤ s.cfg.bufCap ∧ s.eoi = false ∧
    s.out &&& lineMask .clock = 0 ∧ talks s p.2 s.now bs ∧
    quietFor (18 * bs.length + sampleCount s.cfg.tEoiWindow s.cfg.tPoll + 1) s ∧ 18 * s.cfg.tPoll ≤ s.cfg.tWdt ∧
    (p.2 = true → eoiWait s.cfg + s.cfg.tEoiPulse + talkTime s.cfg ≤ s.cfg.tWdt) ∧
    2 ≤ sampleCount s.cfg.tRxBit s.cfg.tPoll ∧ 2 ≤ sampleCount s.cfg.tEoiWindow s.cfg.tPoll ∧
    2 ≤ sampleCount s.cfg.tReadClk s.cfg.tPoll := by
  intro p h
  have h' : p = (1, false) ∨ p = (4, true) := by simpa using h
  rcases h' with rfl | rfl
  · exact ⟨{ bench with bus := ⟨5, 0⟩ :: quickTalker 10 }, [0x05], by decide, by decide, by decide, by decide, by decide,
      by decide, quick_talks rfl rfl rfl, ⟨List.replicate 61 0, rfl⟩, by decide, by decide, by decide, by decide, by decide⟩
  · exact ⟨{ bench with bus := ⟨465, 0⟩ :: quickTalker 470 }, [0x05], by decide, by decide, by decide, by decide, by decide,
      by decide, quick_talks_eoi rfl rfl rfl, ⟨List.replicate 61 0, rfl⟩, by decide, by decide, by decide, by decide, by decide⟩

theorem witness_ReadWithEoiLatched : ∃ (s t : State) (n : Byte), s.eoi = true ∧ exec (.read n) s = .next t ∧ returned s t :=
  ⟨{ bench with eoi := true }, _, 4, rfl, rfl, by unfold returned; decide +kernel⟩

theorem witness_ReadStoresWhatItCounts : ∃ (s t : State) (n : Byte), n ≠ 0 ∧ exec (.read n) s = .next t ∧ returned s t :=
  ⟨{ bench with bus := ⟨5, 0⟩ :: quickTalker 10 }, _, 1, by decide, rfl, by unfold returned; decide +kernel⟩

/-- A read that returns with no byte stored. -/
theorem witness_ReadStoresWhatItCounts_none : ∃ s t : State, exec (.read 2) s = .next t ∧ returned s t ∧ t.cnt = some 0 :=
  ⟨{ bench with eoi := true }, _, rfl, by unfold returned; decide +kernel, by decide +kernel⟩

theorem witness_ReadEoiWithoutByte : ∃ s : State, s.eoi = false ∧ s.out &&& lineMask .clock = 0 ∧
    (∀ u, s.now ≤ u → u ≤ s.now + sampleCount s.cfg.tEoiWindow s.cfg.tPoll * s.cfg.tPoll + s.cfg.tEoiPulse +
      sampleCount s.cfg.tRxStart s.cfg.tPoll * s.cfg.tPoll → floats s .clock u) ∧
    quietFor (sampleCount s.cfg.tEoiWindow s.cfg.tPoll + 1 + sampleCount s.cfg.tRxStart s.cfg.tPoll) s ∧
    sampleCount s.cfg.tEoiWindow s.cfg.tPoll * s.cfg.tPoll + s.cfg.tEoiPulse +
      sampleCount s.cfg.tRxStart s.cfg.tPoll * s.cfg.tPoll ≤ s.cfg.tWdt := by
  refine ⟨{ bench with irq := List.replicate 241 0 }, by decide, by decide, fun u _ h => ?_, ⟨[], by decide +kernel⟩, by decide⟩
  have h1 : u ≤ 2470 := Nat.le_trans h (by decide +kernel)
  unfold floats
  rw [steady_level (s := { bench with irq := List.replicate 241 0 }) rfl (by omega)]; decide

theorem witness_ReadFrame : ∃ (s t : State) (n : Byte), exec (.read n) s = .next t ∧ t.resets = s.resets :=
  ⟨{ bench with bus := ⟨5, 0⟩ :: quickTalker 10 }, _, 1, rfl, by decide +kernel⟩

theorem witness_ResetFindsDrive : ∃ s : State, quietFor 4 s ∧ s.now + s.cfg.tResetHold ≤ deadline s ∧
    s.cfg.tProbeSettle + s.cfg.tProbeAtn + s.cfg.tProbeRelease ≤ s.cfg.tWdt ∧
    floats s .data (s.now + s.cfg.tResetHold + s.cfg.tProbeSettle) ∧
    pulled s .data (s.now + s.cfg.tResetHold + s.cfg.tProbeSettle + s.cfg.tProbeAtn) ∧
    floats s .data (s.now + s.cfg.tResetHold + s.cfg.tProbeSettle + s.cfg.tProbeAtn + s.cfg.tProbeRelease) :=
  ⟨{ bench with bus := drive }, ⟨List.replicate 116 0, rfl⟩, by decide, by decide, by unfold floats; decide,
    by unfold pulled; decide, by unfold floats; decide⟩

theorem witness_ResetAlwaysReleasesTheBus : ∃ s t : State, exec .reset s = .next t ∧ returned s t :=
  ⟨{ bench with bus := drive }, _, rfl, by unfold returned; decide +kernel⟩

theorem witness_ResetKeepsProtocolState : ∃ s t : State, exec .reset s = .next t ∧ t.resets = s.resets :=
  ⟨{ bench with bus := drive, eoi := true, req := .result, len := 3 }, _, rfl, by decide +kernel⟩

theorem witness_ResetFrame : ∃ s t u : State, exec .reset s = .next t ∧ t.resets = s.resets ∧ exec .busReset s = .next u ∧
    u.resets = s.resets := ⟨{ bench with bus := drive }, _, _, rfl, by decide +kernel, rfl, by decide +kernel⟩

theorem witness_DispatchWriteStoresTheCount : ∃ s : State, s.req = .write ∧ s.len.toNat ≤ s.cfg.bufCap ∧
    listens s true s.now s.len.toNat ∧ quietFor (20 * s.len.toNat) s ∧ listenEnd s.cfg true s.now s.len.toNat ≤ deadline s :=
  ⟨{ bench with req := .write, len := 1, bus := quickListener }, rfl, by decide, quick_listens rfl rfl rfl,
    ⟨List.replicate 100 0, rfl⟩, by decide⟩

/-- Without ATN and hand-off, one byte; with both, no byte. -/
theorem witness_DispatchAsyncStoresTheCount : ∀ n ∈ ([0, 1] : List Byte), ∃ s : State, s.len = n ∧ s.req = .async ∧
    2 + s.len.toNat ≤ s.cfg.bufCap ∧ listens s (peek s 0 == 0) s.now s.len.toNat ∧ quietFor (20 * s.len.toNat) s ∧
    listenEnd s.cfg (peek s 0 == 0) s.now s.len.toNat ≤ deadline s ∧
    (peek s 1 ≠ 0 → pulled s .clock (listenEnd s.cfg (peek s 0 == 0) s.now s.len.toNat)) := by
  intro n h
  have h' : n = 0 ∨ n = 1 := by simpa using h
  rcases h' with rfl | rfl
  · exact ⟨{ bench with req := .async, len := 0, buf := [(0, 2), (1, 255)], bus := quickListener }, rfl, rfl, by decide,
      show pulled _ _ _ by unfold pulled; decide, ⟨List.replicate 120 0, rfl⟩, by decide, fun _ => by unfold pulled; decide⟩
  · exact ⟨{ bench with req := .async, len := 1, buf := [(0, 0), (1, 0)], bus := quickListener }, rfl, rfl, by decide,
      quick_listens rfl rfl rfl, ⟨List.replicate 100 0, rfl⟩, by decide, fun h => absurd rfl h⟩

/-- Without EOI for the one byte asked for, and with EOI on the first of four asked for. -/
theorem witness_DispatchReadStoresTheLength : ∀ p ∈ ([(1, false), (4, true)] : List (Byte × Bool)), ∃ (s : State) (bs : List Byte),
    s.req = .read ∧ s.len = p.1 ∧ 1 ≤ bs.length ∧ bs.length ≤ s.len.toNat ∧ (p.2 = false → bs.length = s.len.toNat) ∧
    bs.length ≤ s.cfg.bufCap ∧ s.eoi = false ∧ s.out &&& lineMask .clock = 0 ∧ talks s p.2 s.now bs ∧
    quietFor (18 * bs.length + sampleCount s.cfg.tEoiWindow s.cfg.tPoll + 1) s ∧ 18 * s.cfg.tPoll ≤ s.cfg.tWdt ∧
    (p.2 = true → eoiWait s.cfg + s.cfg.tEoiPulse + talkTime s.cfg ≤ s.cfg.tWdt) ∧
    2 ≤ sampleCount s.cfg.tRxBit s.cfg.tPoll ∧ 2 ≤ sampleCount s.cfg.tEoiWindow s.cfg.tPoll ∧
    2 ≤ sampleCount s.cfg.tReadClk s.cfg.tPoll := by
  intro p h
  have h' : p = (1, false) ∨ p = (4, true) := by simpa using h
  rcases h' with rfl | rfl
  · exact ⟨{ bench with req := .read, len := 1, bus := ⟨5, 0⟩ :: quickTalker 10 }, [0x05], by decide, by decide, by decide,
      by decide, by decide, by decide, by decide, by decide, quick_talks rfl rfl rfl, ⟨List.replicate 61 0, rfl⟩, by decide,
      by decide, by decide, by decide, by decide⟩
  · exact ⟨{ bench with req := .read, len := 4, bus := ⟨465, 0⟩ :: quickTalker 470 }, [0x05], by decide, by decide, by decide,
      by decide, by decide, by decide, by decide, by decide, quick_talks_eoi rfl rfl rfl, ⟨List.replicate 61 0, rfl⟩, by decide,
      by decide, by decide, by decide, by decide⟩

/-- On other buses: a write and an async request that nobody hears, a read that fails. -/
theorem witness_DispatchOnAnyBus : ∃ s t s' t' s'' t'' : State,
    s.req = .write ∧ exec .dispatchWrite s = .next t ∧ returned s t ∧
    s'.req = .async ∧ exec .dispatchAsync s' = .next t' ∧ returned s' t' ∧
    s''.req = .read ∧ s''.len ≠ 0 ∧ exec .dispatchRead s'' = .next t'' ∧ returned s'' t'' :=
  ⟨{ bench with req := .write, len := 3 }, _, { bench with req := .async, len := 2, buf := [(0, 1), (1, 0)] }, _,
    { bench with req := .read, len := 2, irq := List.replicate 241 0 }, _, rfl, rfl, by unfold returned; decide +kernel, rfl, rfl,
    by unfold returned; decide +kernel, rfl, by decide, rfl, by unfold returned; decide +kernel⟩

theorem witness_DispatchFrame : ∃ s t s' t' s'' t'' : State,
    exec .dispatchWrite s = .next t ∧ t.resets = s.resets ∧ exec .dispatchAsync s' = .next t' ∧ t'.resets = s'.resets ∧
    exec .dispatchRead s'' = .next t'' ∧ t''.resets = s''.resets :=
  ⟨{ bench with req := .write, len := 1, buf := [(0, 0x41)], bus := quickListener }, _,
    { bench with req := .async, len := 1, buf := [(0, 0), (1, 0), (2, 0x41)], bus := quickListener }, _,
    { bench with req := .read, len := 1, bus := ⟨5, 0⟩ :: quickTalker 10 }, _,
    rfl, by decide +kernel, rfl, by decide +kernel, rfl, by decide +kernel⟩

theorem witness_DispatchWithoutRequest : bench.req = .idle ∧ ({ bench with req := .result } : State).req = .result ∧
    ({ bench with req := .readDone } : State).req = .readDone := by decide

/-- One transition of each kind. -/
theorem witness_RequestStateTransitions :
    (after (.requestRead 1) bench).req = .read ∧ (after (.requestRead 1) bench).resets = bench.resets ∧
    (after (.submitAsync 0 0 0 []) bench).req = .async ∧
    (after (.collectRead 1) { bench with req := .readDone, xfer := [true] }).req = .idle ∧
    (after .dispatchWrite { bench with req := .write, len := 1 }).req = .result := by decide +kernel

theorem witness_InterruptEnableRestored : ∃ (i : Instr) (s t : State), exec i s = .next t ∧ returned s t :=
  ⟨.sendByte 0xA5, { bench with bus := [⟨100000, 1⟩] }, _, rfl, by unfold returned; decide +kernel⟩

theorem witness_OnlyReadsAndResetsKick : ∃ (i : Instr) (s t : State), exec i s = .next t ∧ t.resets = s.resets ∧
    t.wdtLast ≠ s.wdtLast := ⟨.reset, { bench with bus := drive }, _, rfl, by decide +kernel, by decide +kernel⟩

theorem witness_StepKeepsWorldAndTime : ∃ s t : State, step s = .next t := ⟨bench, _, rfl⟩

theorem witness_OnlyReadsSetEoi : ∃ (i : Instr) (s t : State), exec i s = .next t ∧ s.eoi = false ∧ t.eoi = true :=
  ⟨.read 4, { bench with irq := List.replicate 241 0 }, _, rfl, rfl, by decide +kernel⟩

theorem witness_ResetLineChangers : ∃ (i : Instr) (s t : State), exec i s = .next t ∧ t.resets = s.resets ∧
    ¬ sameLine s t .reset := ⟨.setRelease 8 0, bench, _, rfl, by decide, by unfold sameLine; decide⟩

/-- The port clause, on a map other than the identity: ATN at bit 0, CLOCK at 2, DATA at 4, RESET at 7. -/
theorem witness_OpenDrainLines : bench.cfg.physMap.bits.Nodup ∧ ({ bench with out := 0b0101 } : State).port = 0b00010001 ∧
    ({ bench with bus := [⟨10, 0b1010⟩] } : State).portSensed = 0b10000100 ∧
    senseLine .reset { bench with bus := [⟨10, 0b1010⟩] } = true ∧
    senseLine .atn { bench with bus := [⟨10, 0b1010⟩] } = false := by decide

theorem bench_inv : machineInvariant bench := by
  refine ⟨by unfold legalParams; decide, ⟨rfl, fun c hc => by cases hc⟩, (by decide : (0 : Byte).toNat ≤ 16), by decide, fun _ => ?_,
    fun k hk => by cases hk⟩
  exact ⟨rfl, rfl, .inl ⟨rfl, rfl⟩⟩

theorem witness_StepKeepsTheInvariant : ∃ s t : State, machineInvariant s ∧ step s = .next t := ⟨bench, _, bench_inv, rfl⟩

theorem witness_EngineNeverHangs : ∃ s : State, machineInvariant s ∧ s.fault = none := ⟨bench, bench_inv, rfl⟩

end Sys2Proof.Tests
end

section
/-! PROOFS. The bus lines (R61): a line's bit of a mask, and of the bus as the engine and the devices drive it. -/

namespace Sys2Proof.Machine

/-- The bit a line has in a logical mask (R81). -/
def lineBit : Line → Nat
  | .data => 0
  | .clock => 1
  | .atn => 2
  | .reset => 3

/-- `lineMask` selects exactly the line's bit. -/
theorem and_lineMask_ne_zero (i : Lines) (l : Line) : (i &&& lineMask l != 0) = i.getLsbD (lineBit l) := by
  cases l <;> revert i <;> decide

/-- Wired-or: a line is asserted by the engine's bit or by the devices' (R23, R61). -/
theorem asserted_eq_out_or_dev (l : Line) (s : State) :
    asserted l s = (s.out.getLsbD (lineBit l) || s.dev.getLsbD (lineBit l)) := by
  rw [asserted, and_lineMask_ne_zero, State.busLevel, BitVec.getLsbD_or]

/-- The port drives at a line's bit what the engine asserts (R35, R264). -/
theorem port_physBit {s : State} (h : s.cfg.physMap.bits.Nodup) (l : Line) :
    s.port.testBit (physBit s.cfg.physMap l) = (s.out &&& lineMask l != 0) :=
  mapTab_physBit h s.out l

/-- What the port senses at a line's bit is `Asserted(L)` (R8, R264). -/
theorem senseLine_eq_asserted {s : State} (h : s.cfg.physMap.bits.Nodup) (l : Line) : senseLine l s = asserted l s :=
  mapTab_physBit h s.busLevel l

end Sys2Proof.Machine
end

section
open Sys2Proof Sys2Proof.Machine

/-- Settles O60: the lines are a wired-or of engine and devices, and the mapping table carries them to distinct port bits. -/
theorem openDrainLines : Obligations.OpenDrainLines :=
  ⟨fun s => ⟨fun _ => rfl, asserted_eq_out_or_dev .data s, asserted_eq_out_or_dev .clock s, asserted_eq_out_or_dev .atn s,
      asserted_eq_out_or_dev .reset s⟩,
    fun _ l h => ⟨port_physBit h l, senseLine_eq_asserted h l⟩⟩
end

section
/-! PROOFS. How a run ends: where it returns, where it is reset, and where a fault or an endless loop leaves it. -/

namespace Sys2Proof.Machine

variable {α β : Type} {B B' : State → Prop}

/-- The end of a run: it meets `Q` where the operation returns, and `B` where a fault or an endless loop leaves it. Of a watchdog
reset nothing is said here; `Within` says it. -/
@[irreducible] def Ends (B : State → Prop) (Q : α → State → Prop) : EStateM.Result Stop State α → Prop
  | .ok a t => Q a t
  | .error e t => e = .watchdog ∨ B t

/-- What holds of a run that neither faults nor hangs. -/
abbrev Returns (Q : α → State → Prop) : EStateM.Result Stop State α → Prop := Ends (fun _ => False) Q

variable {Q Q' : α → State → Prop}

@[simp] theorem ends_ok (a : α) (t : State) : Ends B Q (.ok a t) ↔ Q a t := by rw [Ends]

@[simp] theorem ends_error (e : Stop) (t : State) : Ends B Q (.error e t) ↔ e = .watchdog ∨ B t := by rw [Ends]

theorem ends_mono {x : EStateM.Result Stop State α} (h : Ends B Q x) (hB : ∀ t, B t → B' t) (hQ : ∀ a t, Q a t → Q' a t) :
    Ends B' Q' x := by
  cases x with
  | ok a t =>
    rw [ends_ok] at h ⊢
    exact hQ a t h
  | error e t =>
    rw [ends_error] at h ⊢
    exact h.imp_right (hB t)

theorem ends_imp {x : EStateM.Result Stop State α} (h : Ends B Q x) (hQ : ∀ a t, Q a t → Q' a t) : Ends B Q' x :=
  ends_mono h (fun _ hB => hB) hQ

theorem ends_of_returns {x : EStateM.Result Stop State α} (h : Returns Q x) (hQ : ∀ a t, Q a t → Q' a t) : Ends B Q' x :=
  ends_mono h (fun _ hf => hf.elim) hQ

/-- The end of a run that moves along `R`. -/
theorem ends_within {R : State → State → Prop} {m : Op α} {s : State} (hm : Within R m) (h : Ends B Q (m s)) :
    Ends B (fun a t => R s t ∧ Q a t) (m s) := by
  have h1 := hm s
  cases hs : m s with
  | ok a t =>
    rw [hs] at h h1
    rw [ends_ok] at h ⊢
    exact ⟨h1, h⟩
  | error e t =>
    rw [hs] at h
    rwa [ends_error] at h ⊢

/-! ### Sequencing, choice, calls -/

@[simp] theorem ends_bind (m : Op β) (f : β → Op α) (s : State) :
    Ends B Q ((m >>= f) s) ↔ Ends B (fun b t => Ends B Q (f b t)) (m s) := by
  rw [run_bind]
  cases m s with
  | ok a t => simp
  | error e t => simp

@[simp] theorem ends_map (f : β → α) (m : Op β) (s : State) :
    Ends B Q ((f <$> m) s) ↔ Ends B (fun b t => Q (f b) t) (m s) := by
  rw [run_map]
  cases m s with
  | ok a t => simp
  | error e t => simp

@[simp] theorem ends_ite (p : Prop) [Decidable p] (m k : Op α) (s : State) :
    Ends B Q ((if p then m else k) s) ↔ (p → Ends B Q (m s)) ∧ (¬p → Ends B Q (k s)) := by
  split <;> simp [*]

@[simp] theorem ends_call (o : OpName) (m : Op α) (s : State) :
    Ends B Q (call o m s) ↔ Ends B (fun a t => Q a { t with pc := s.pc, stack := s.stack })
      (m { s with pc := ⟨o, 1⟩, stack := s.pc :: s.stack }) := by
  rw [run_call]
  cases m { s with pc := ⟨o, 1⟩, stack := s.pc :: s.stack } with
  | ok a t => simp
  | error e t => simp

/-! ### The operations with a check -/

@[simp] theorem ends_readReg (g : State → Option α) (s : State) :
    Ends B Q (readReg g s) ↔ (∀ a, g s = some a → Q a s) ∧ (g s = none → B { s with fault := some .unwrittenRegister }) := by
  unfold readReg
  cases g s with
  | some a => simp
  | none => simp

@[simp] theorem ends_memReadByte {Q : Byte → State → Prop} (i : Nat) (s : State) :
    Ends B Q (memReadByte i s) ↔
      (i < s.cfg.bufCap → Q (peek s i) s) ∧ (¬i < s.cfg.bufCap → B { s with fault := some .bufferOverrun }) := by
  unfold memReadByte
  split <;> simp [*]

@[simp] theorem ends_memRead {Q : List Byte → State → Prop} (i n : Nat) (s : State) :
    Ends B Q (memRead i n s) ↔ (i + n ≤ s.cfg.bufCap → Q (peekBytes s i n) s) ∧
      (¬i + n ≤ s.cfg.bufCap → B { s with fault := some .bufferOverrun }) := by
  unfold memRead
  split <;> simp [*]

@[simp] theorem ends_memWrite {Q : Unit → State → Prop} (i : Nat) (bs : List Byte) (s : State) :
    Ends B Q (memWrite i bs s) ↔ (i + bs.length ≤ s.cfg.bufCap → Q () { s with buf := pokeBytes s.buf i bs }) ∧
      (¬i + bs.length ≤ s.cfg.bufCap → B { s with fault := some .bufferOverrun }) := by
  unfold memWrite
  split <;> simp [*]

@[simp] theorem ends_requireHost {Q : Unit → State → Prop} (p : State → Bool) (s : State) :
    Ends B Q (requireHost p s) ↔ (p s = true → Q () s) ∧ (¬p s = true → B { s with fault := some .hostPrecondition }) := by
  unfold requireHost
  split <;> simp [*]

@[simp] theorem ends_requireOperand {Q : Unit → State → Prop} (p : Bool) (s : State) :
    Ends B Q (requireOperand p s) ↔ (p = true → Q () s) ∧ (¬p = true → B { s with fault := some .invalidOperand }) := by
  unfold requireOperand
  split <;> simp [*]

/-! ### Frames -/

theorem frame_cfg {may : List Part} {s t : State} (h : Frame may s t) : t.cfg = s.cfg := by
  obtain ⟨⟨hcfg, -⟩, -⟩ := h
  exact hcfg

theorem frame_fault {may : List Part} {s t : State} (h : Frame may s t) : t.fault = s.fault := by
  obtain ⟨⟨-, -, hfault, -⟩, -⟩ := h
  exact hfault

theorem frame_now_le {may : List Part} {s t : State} (h : Frame may s t) : s.now ≤ t.now := by
  obtain ⟨⟨-, -, -, -, hnow⟩, -⟩ := h
  exact hnow

/-! ### Time and the waits -/

/-- A delay neither faults nor hangs, and takes at least its length (R110). -/
theorem ends_delay_lasts {Q : Unit → State → Prop} {d : Nat} {s : State}
    (h : ∀ n i k, s.now + d ≤ n → Q () { s with now := n, irq := i, draws := k }) : Ends B Q (delay d s) := by
  rcases delay_ends d s with ⟨t, e, hn, -⟩ | ⟨t, e⟩
  · have ht := (delay_returns e).1
    have key : t = { s with now := t.now, irq := t.irq, draws := t.draws } := by
      rw [ht]; unfold irqTaken; split <;> rfl
    rw [e, key, ends_ok]
    exact h _ _ _ hn
  · simp [e]

/-- A delay neither faults nor hangs, and only time passes (R110). -/
theorem ends_delay {Q : Unit → State → Prop} {d : Nat} {s : State}
    (h : ∀ n i k, s.now ≤ n → Q () { s with now := n, irq := i, draws := k }) : Ends B Q (delay d s) :=
  ends_delay_lasts fun n i k hn => h n i k (Nat.le_of_add_right_le hn)

/-- The watchdog's time is not ahead of `NOW`. -/
def OnTime (s : State) : Prop := s.wdtLast ≤ s.now

/-- Sampling neither faults nor hangs, and kicks at the present only (R111, R112). -/
theorem returns_pollLoop (kick : Bool) (c : State → Bool) (n : Nat) (s : State) :
    Returns (fun _ t => OnTime s → OnTime t) (pollLoop kick c n s) := by
  induction n generalizing s with
  | zero => simp [pollLoop, OnTime]
  | succ n ih =>
    have again : ∀ u d, (OnTime s → OnTime u) →
        Returns (fun _ t => OnTime s → OnTime t) ((delay d >>= fun _ => pollLoop kick c n) u) := by
      intro u d hu
      exact (ends_bind ..).mpr (ends_delay fun m i k hm => ends_of_returns (ih _) fun _ t ht h => ht ((hu h).trans hm))
    cases kick with
    | false =>
      simp only [pollLoop, kickIf, ends_bind, run_line, ends_ok, run_get, ends_ite, run_pure, Bool.false_eq_true, if_false]
      exact ⟨fun _ h => h, fun _ => (ends_bind ..).mp (again _ _ id)⟩
    | true =>
      simp only [pollLoop, kickIf, ends_bind, run_line, ends_ok, run_get, ends_ite, run_pure, if_true, run_kickWatchdog]
      exact ⟨fun _ _ => Nat.le_refl _, fun _ => (ends_bind ..).mp (again _ _ fun _ => Nat.le_refl _)⟩

/-- A call within the frame of a wait changes nothing but time where it returns. -/
theorem ends_wait {o : OpName} {m : Op α} {s : State} (hm : Within (Frame waitParts) m)
    (hB : Ends B (fun _ _ => True) (call o m s))
    (hQ : ∀ a n i k, s.now ≤ n → Q a { s with now := n, irq := i, draws := k }) : Ends B Q (call o m s) := by
  have hf := within_call (o := o) hm s
  cases hs : call o m s with
  | ok a t =>
    rw [hs] at hf
    obtain ⟨hpc, hstack⟩ := call_returns hs
    obtain ⟨hn, ht⟩ := waited_of_frame hf hpc hstack
    rw [ht, ends_ok]
    exact hQ a _ _ _ hn
  | error e t =>
    rw [hs] at hB
    rwa [ends_error] at hB ⊢

/-- `WaitUntil` neither faults nor hangs, and only time passes (R111). -/
theorem ends_waitUntil {Q : Bool → State → Prop} {c : State → Bool} {T : Nat} {s : State}
    (h : ∀ b n i k, s.now ≤ n → Q b { s with now := n, irq := i, draws := k }) : Ends B Q (waitUntil c T s) := by
  refine ends_wait (frameBind frame_get fun _ => frame_pollLoop_plain c _) ?_ h
  simp only [ends_call, ends_bind, run_get, ends_ok]
  exact ends_of_returns (returns_pollLoop ..) fun _ _ _ => trivial

/-- `WaitUntilKick` neither faults nor hangs, and kicks at the present only (R112). -/
theorem ends_waitUntilKick {Q : Bool → State → Prop} {c : State → Bool} {T : Nat} {s : State}
    (h : ∀ b t, Frame kickParts s t → (OnTime s → OnTime t) → Q b t) : Ends B Q (waitUntilKick c T s) := by
  refine ends_of_returns (ends_within (frame_waitUntilKick c T) ?_) fun b t ht => h b t ht.1 ht.2
  simp only [waitUntilKick, ends_call, ends_bind, run_get, ends_ok]
  exact ends_of_returns (returns_pollLoop ..) fun _ _ ht => ht

/-- Time passing is within the frame of a wait. -/
theorem frame_timePassed {s : State} {n : Nat} (i : List Nat) (k : Nat) (l : Loc) (h : s.now ≤ n) :
    Frame waitParts s { s with now := n, irq := i, draws := k, pc := l } :=
  ⟨⟨rfl, rfl, rfl, rfl, h⟩, fun p hp => by cases p <;> first | rfl | exact absurd (by decide) hp⟩

/-- The loop of `WaitForever` does not fault, and where it runs out of fuel only time has passed (R113). -/
theorem ends_foreverLoop {c : State → Bool} {n : Nat} {s : State} (hB : ∀ t, Frame waitParts s t → B t) :
    Ends B (fun _ _ => True) (foreverLoop c n s) := by
  induction n generalizing s with
  | zero => simpa [foreverLoop] using hB s (frame_refl _ s)
  | succ n ih =>
    simp only [foreverLoop, ends_bind, run_line, ends_ok, run_get, ends_ite, run_pure, implies_true, true_and]
    exact fun _ => ends_delay fun u i k hu => ih fun t ht =>
      hB t (frame_trans (frame_timePassed i k _ hu) ht)

/-- `WaitForever` does not fault, and where a poll takes time it does not hang either (R113). -/
theorem ends_waitForever {Q : Unit → State → Prop} {c : State → Bool} {s : State}
    (hB : ∀ t, Frame waitParts s t → ¬1 ≤ s.cfg.tPoll → B t)
    (h : ∀ n i k, s.now ≤ n → Q () { s with now := n, irq := i, draws := k }) : Ends B Q (waitForever c s) := by
  refine ends_wait (frameBind frame_get fun _ => frame_foreverLoop c _) ?_ fun _ => h
  by_cases hp : 1 ≤ s.cfg.tPoll
  · change Ends B _ (waitForever c s)
    rcases waitForever_never_hangs c hp with ⟨t, e⟩ | ⟨t, e⟩ <;> simp [e]
  · simp only [ends_call, ends_bind, run_get, ends_ok]
    exact ends_foreverLoop fun t ht => hB t ⟨ht.1, fun p hp => by have := ht.2 p hp; cases p <;> exact this⟩ hp

end Sys2Proof.Machine
end

section
/-! PROOFS. One byte on the bus (R116, R119): neither routine faults or hangs, and each returns with the interrupt enable it found. -/

namespace Sys2Proof.Machine

/-- A bit finds the shift register written, leaves it written, and keeps the saved interrupt enable (R116). -/
theorem returns_sendBit {s : State} (hsr : s.sr.isSome) :
    Returns (fun _ t => t.sr.isSome ∧ t.ieSaved = s.ieSaved) (sendBit s) := by
  obtain ⟨v, hv⟩ := Option.isSome_iff_exists.mp hsr
  simp only [sendBit, ends_bind, run_line, ends_ok, run_get]
  refine ends_delay fun n i k _ => ?_
  simp only [ends_ok, ends_readReg, hv, run_driveBit, run_releaseLines]
  refine ⟨fun w _ => ends_delay fun n i k _ => ?_, nofun⟩
  simp

theorem returns_sendBits {s : State} (hsr : s.sr.isSome) (n b : Nat) :
    Returns (fun _ t => t.ieSaved = s.ieSaved) (sendBits n b s) := by
  induction n generalizing s b with
  | zero => simp [sendBits]
  | succ n ih =>
    simp only [sendBits, ends_bind, run_line, ends_ok, run_setBitn]
    exact ends_imp (returns_sendBit hsr) fun _ t ⟨ht, hie⟩ => ends_imp (ih ht _) fun _ u hu => hu.trans hie

/-- The atomic section of `send_byte` is left as it was entered (R114, R116). -/
theorem returns_sendByte (v : Byte) (s : State) : Returns (fun _ t => t.ie = s.ie) (sendByte v s) := by
  simp only [sendByte, ends_call, ends_bind, run_line, ends_ok, run_setSr, enterAtomic]
  refine ends_imp (returns_sendBits rfl _ _) fun _ t ht => ?_
  simp only [ends_ok, exitAtomic, run_get]
  exact ends_waitUntil fun b n i k _ => by simp [ht]

/-- Everything a caller of `send_byte` finds when it returns. -/
theorem ends_sendByte {B : State → Prop} {Q : Bool → State → Prop} {v : Byte} {s : State}
    (h : ∀ b t, Frame sendParts s t → t.ie = s.ie → Q b t) : Ends B Q (sendByte v s) :=
  ends_of_returns (ends_within (frame_sendByte v) (returns_sendByte v s)) fun b t ⟨hf, hie⟩ => h b t hf hie

/-- What the loop of `receive_byte` works with: `SR` and `OK` written, and the saved interrupt enable. -/
def Receiving (ie : Bool) (s : State) : Prop := s.sr.isSome ∧ s.ok.isSome ∧ s.ieSaved = ie

theorem returns_receiveBits {ie : Bool} {s : State} (h : Receiving ie s) (n b : Nat) :
    Returns (fun _ t => Receiving ie t) (receiveBits n b s) := by
  induction n generalizing s b with
  | zero =>
    simp only [receiveBits, run_setBitn, ends_ok]
    exact h
  | succ n ih =>
    obtain ⟨hsr, -, hie⟩ := h
    obtain ⟨v, hv⟩ := Option.isSome_iff_exists.mp hsr
    simp only [receiveBits, ends_bind, run_line, ends_ok, run_setBitn, run_get]
    refine ends_waitUntil fun clock n i k _ => ?_
    simp only [run_setOk, run_line, ends_ok, ends_readReg, ends_bind, ends_ite, run_get, run_setSr, hv, run_pure]
    refine ⟨fun ready _ => ⟨fun _ => ⟨fun w _ => ends_waitUntil fun taken n i k _ => ?_, nofun⟩, fun _ => ?_⟩, nofun⟩
    · exact ⟨fun ready _ => ⟨fun _ => ih (by exact ⟨rfl, rfl, hie⟩) _, fun _ => ⟨rfl, rfl, hie⟩⟩, nofun⟩
    · exact ⟨rfl, rfl, hie⟩

/-- The atomic section of `receive_byte` is left as it was entered, also where a bit fails (R114, R119). -/
theorem returns_receiveByte (s : State) : Returns (fun _ t => t.ie = s.ie) (receiveByte s) := by
  simp only [receiveByte, ends_call, ends_bind, run_get, ends_ok]
  refine ends_waitUntil fun started n i k _ => ?_
  simp only [run_setOk, run_line, ends_ok, ends_readReg, ends_ite, ends_bind, run_setSr, enterAtomic, run_pure]
  refine ⟨fun b _ => ⟨fun _ => ?_, fun _ => trivial⟩, nofun⟩
  refine ends_imp (returns_receiveBits (ie := s.ie) ⟨rfl, rfl, rfl⟩ _ _) fun _ t ⟨hsr, hok, hie⟩ => ?_
  obtain ⟨v, hv⟩ := Option.isSome_iff_exists.mp hsr
  obtain ⟨b, hb⟩ := Option.isSome_iff_exists.mp hok
  simp [exitAtomic, hv, hb, hie]

/-- Everything a caller of `receive_byte` finds when it returns. -/
theorem ends_receiveByte {B : State → Prop} {Q : Option Byte → State → Prop} {s : State}
    (h : ∀ r t, Frame receiveParts s t → t.ie = s.ie → Q r t) : Ends B Q (receiveByte s) :=
  ends_of_returns (ends_within frame_receiveByte (returns_receiveByte s)) fun r t ⟨hf, hie⟩ => h r t hf hie

end Sys2Proof.Machine
end

section
/-! PROOFS. `write` (R140): it clears EOI and keeps the interrupt enable, and ends where a poll takes time and its bytes are inside
the buffer. -/

namespace Sys2Proof.Machine

variable {α : Type} {G : Prop}

/-- Every end but a watchdog reset keeps `P`; and where the premise `G` holds, the run neither faults nor hangs. -/
abbrev Keeps (G : Prop) (P : State → Prop) : EStateM.Result Stop State α → Prop := Ends (fun t => ¬G ∧ P t) (fun _ => P)

/-- The interrupt enable, the EOI flag and the parameters have the values named. -/
def Flags (ie eoi : Bool) (c : Params) (s : State) : Prop := s.ie = ie ∧ s.eoi = eoi ∧ s.cfg = c

variable {ie eoi : Bool} {c : Params}

theorem flags_of_frame {may : List Part} {s t : State} (h : Flags ie eoi c s) (hf : Frame may s t) (hie : t.ie = s.ie)
    (heoi : Part.eoi ∉ may) : Flags ie eoi c t := by
  obtain ⟨hie', heoi', hcfg⟩ := h
  exact ⟨hie.trans hie', (hf.2 _ heoi).trans heoi', (frame_cfg hf).trans hcfg⟩

/-- A wait in a write: where it hangs a poll takes no time (R113). -/
theorem ends_waitForever_write {Q : Unit → State → Prop} {cond : State → Bool} {s : State} (hG : G → 1 ≤ c.tPoll)
    (hs : Flags ie eoi c s) (h : ∀ n i k, s.now ≤ n → Q () { s with now := n, irq := i, draws := k }) :
    Ends (fun t => ¬G ∧ Flags ie eoi c t) Q (waitForever cond s) := by
  refine ends_waitForever (fun t hf hpoll => ⟨fun g => hpoll ?_, ?_⟩) h
  · obtain ⟨-, -, hcfg⟩ := hs
    exact hcfg ▸ hG g
  · exact flags_of_frame hs hf (hf.2 .ie (by decide)) (by decide)

theorem keeps_deviceAbsent {s : State} (hs : Flags ie eoi c s) : Keeps G (Flags ie eoi c) (deviceAbsent s) := by
  simp only [deviceAbsent, returnCount, ends_bind, run_releaseLines, run_log, run_setCnt, run_pure, ends_ok]
  exact hs

theorem keeps_writeFails {s : State} (hs : Flags ie eoi c s) : Keeps G (Flags ie eoi c) (writeFails s) := by
  simp only [writeFails, returnCount, ends_bind, run_releaseLines, run_setCnt, run_pure, ends_ok]
  exact hs

theorem keeps_handOff {s : State} (hG : G → 1 ≤ c.tPoll) (hs : Flags ie eoi c s) (talk : Bool) :
    Keeps G (Flags ie eoi c) (handOff talk s) := by
  simp only [handOff, ends_ite, ends_bind, run_line, ends_ok, run_setReleaseLines, run_releaseLines]
  exact ⟨fun _ => ends_waitForever_write hG hs fun _ _ _ _ => hs, fun _ => hs⟩

theorem keeps_finishWrite {s : State} (hG : G → 1 ≤ c.tPoll) (hs : Flags ie eoi c s) (n : Nat) (talk : Bool) :
    Keeps G (Flags ie eoi c) (finishWrite n talk s) := by
  simp only [finishWrite, returnCount, ends_bind, run_line, run_setCnt, run_pure, ends_ok]
  exact ends_imp (keeps_handOff hG (by exact hs) talk) fun _ _ ht => ht

/-- The EOI handshake also keeps `IDX`, which the next line reads (R140 lines 11 to 15). -/
theorem ends_eoiHandshake {s : State} {i : Nat} (hG : G → 1 ≤ c.tPoll) (hs : Flags ie eoi c s) (hi : s.idx = some i)
    (n : Nat) (atn : Bool) :
    Ends (fun t => ¬G ∧ Flags ie eoi c t) (fun _ t => Flags ie eoi c t ∧ t.idx = some i) (eoiHandshake n atn s) := by
  simp only [eoiHandshake, ends_bind, run_line, ends_ok, ends_readReg, hi, ends_ite, run_pure]
  refine ⟨fun _ _ => ⟨fun _ => ?_, fun _ => ⟨hs, trivial⟩⟩, nofun⟩
  exact ends_waitForever_write hG hs fun _ _ _ _ => ends_waitForever_write hG hs fun _ _ _ _ => ⟨hs, rfl⟩

theorem keeps_writeBytes {base n : Nat} (atn talk : Bool) (hG : G → 1 ≤ c.tPoll ∧ base + n ≤ c.bufCap) {k i : Nat}
    (hk : i + k ≤ n) {s : State} (hs : Flags ie eoi c s) : Keeps G (Flags ie eoi c) (writeBytes base n atn talk k i s) := by
  have hpoll : G → 1 ≤ c.tPoll := fun g => (hG g).1
  induction k generalizing i s with
  | zero =>
    simp only [writeBytes, ends_bind, run_setIdx, ends_ok]
    exact keeps_finishWrite hpoll (by exact hs) n talk
  | succ k ih =>
    have room : ∀ {t}, Flags ie eoi c t → G → base + i < t.cfg.bufCap := fun ⟨_, _, hcfg⟩ g => by
      have := (hG g).2
      rw [hcfg]
      omega
    simp only [writeBytes, ends_bind, run_line, ends_ok, run_setIdx, run_get]
    refine ends_delay fun _ _ _ _ => ?_
    simp only [ends_ite, ends_bind, run_line, ends_ok, run_releaseLines]
    refine ⟨fun _ => keeps_deviceAbsent (by exact hs), fun _ => ends_waitForever_write hpoll hs fun _ _ _ _ => ?_⟩
    refine ends_imp (ends_eoiHandshake (i := i) hpoll (by exact hs) rfl n atn) fun _ t ⟨ht, hi⟩ => ?_
    simp only [ends_ok, run_assertLines, ends_readReg, hi, ends_memReadByte]
    refine ⟨fun j hj => ?_, nofun⟩
    cases hj
    refine ⟨fun _ => ends_sendByte fun ack u hf hie => ?_, fun hcap => ⟨fun g => hcap (room ht g), ht⟩⟩
    have hu : Flags ie eoi c u := flags_of_frame (by exact ht) hf hie (by decide)
    refine ⟨fun _ => ?_, fun _ => keeps_writeFails hu⟩
    simp only [run_statusHook, ends_ok]
    exact ih (i := i + 1) (by omega) (by exact hu)

/-- A write that is not reset clears EOI and keeps the interrupt enable; where a poll takes time and its bytes are inside the
buffer, it neither faults nor hangs (R140). -/
theorem keeps_writeOp {base n : Nat} (atn talk : Bool) {s : State} (hG : G → 1 ≤ s.cfg.tPoll ∧ base + n ≤ s.cfg.bufCap) :
    Keeps G (Flags s.ie false s.cfg) (writeOp base n atn talk s) := by
  simp only [writeOp, ends_call, ends_bind, setEoi, run_line, ends_ok, run_releaseLines, run_assertLines, run_get]
  refine ends_waitUntil fun found n i k _ => ?_
  simp only [run_setOk, ends_ok, ends_readReg, ends_ite]
  refine ⟨fun _ _ => ⟨fun _ => ?_, fun _ => ?_⟩, nofun⟩
  · exact ends_imp (keeps_writeBytes atn talk hG (by omega) (by exact ⟨rfl, rfl, rfl⟩)) fun _ _ h => h
  · exact ends_imp (keeps_deviceAbsent (by exact ⟨rfl, rfl, rfl⟩)) fun _ _ h => h

end Sys2Proof.Machine
end

section
/-! PROOFS. `read` (R155): it keeps the interrupt enable, and where it may fill the buffer no further than `BUF_CAP` it ends, keeps the
buffer sound, and counts no more bytes than it may. -/

namespace Sys2Proof.Machine

variable {G : Prop} {ie : Bool} {c : Params}

/-! ### The buffer and the watchdog's time -/

/-- Writing bytes inside `BUF_CAP` keeps the buffer sound (R25). -/
theorem pokeBytes_sound {m : List Host.Cell} {cap i : Nat} {bs : List Byte} (h : Memory.wf m = true ∧ ∀ c ∈ m, c.1 < cap)
    (hi : i + bs.length ≤ cap) : Memory.wf (pokeBytes m i bs) = true ∧ ∀ c ∈ pokeBytes m i bs, c.1 < cap := by
  obtain ⟨hwf, hcap⟩ := h
  refine ⟨wf_pokeBytes hwf i bs, fun cell hcell => ?_⟩
  rcases mem_pokeBytes hcell with hlt | hold
  · omega
  · exact hcap cell hold

theorem bufferSound_of_eq {s t : State} (h : bufferSound s) (hb : t.buf = s.buf) (hc : t.cfg = s.cfg) : bufferSound t := by
  rwa [bufferSound, hb, hc]

/-- An operation that does not kick stays on time. -/
theorem onTime_of_frame {may : List Part} {s t : State} (hf : Frame may s t) (hw : Part.wdtLast ∉ may) (h : OnTime s) :
    OnTime t := by
  have hlast : t.wdtLast = s.wdtLast := hf.2 _ hw
  rw [OnTime, hlast]
  exact h.trans (frame_now_le hf)

/-! ### The loop -/

/-- What a read keeps: the interrupt enable and the parameters, and under the premise `G` a sound buffer and the watchdog's time. -/
def Reading (G : Prop) (ie : Bool) (c : Params) (s : State) : Prop :=
  s.ie = ie ∧ s.cfg = c ∧ (G → bufferSound s ∧ OnTime s)

theorem reading_of_frame {may : List Part} {s t : State} (h : Reading G ie c s) (hf : Frame may s t) (hie : t.ie = s.ie)
    (hbuf : Part.buf ∉ may) (ht : OnTime s → OnTime t) : Reading G ie c t := by
  obtain ⟨hie', hcfg, hsound⟩ := h
  exact ⟨hie.trans hie', (frame_cfg hf).trans hcfg,
    fun g => ⟨bufferSound_of_eq (hsound g).1 (hf.2 _ hbuf) (frame_cfg hf), ht (hsound g).2⟩⟩

/-- The EOI detector keeps what a read keeps, and the count (R155 lines 8 to 10). -/
theorem returns_detectEoi {s : State} {n : Nat} (hs : Reading G ie c s) (hn : s.cnt = some n) (taken : Bool) :
    Returns (fun _ t => Reading G ie c t ∧ t.cnt = some n) (detectEoi taken s) := by
  simp only [detectEoi, acknowledgeEoi, setEoi, ends_ite, run_pure, ends_ok, ends_bind, run_line, run_assertLines, run_get]
  refine ⟨fun _ => ⟨hs, hn⟩, fun _ => ends_delay fun u i k hu => ?_⟩
  obtain ⟨hie, hcfg, hsound⟩ := hs
  rw [run_releaseLines, ends_ok]
  exact ⟨⟨hie, hcfg, fun g => ⟨(hsound g).1, (hsound g).2.trans hu⟩⟩, hn⟩

/-- A byte is stored where there is room, and counted (R155 line 13). -/
theorem ends_storeByte {s : State} {n : Nat} (hs : Reading G ie c s) (hn : s.cnt = some n) (room : G → n < c.bufCap) (b : Byte) :
    Ends (fun t => ¬G ∧ Reading G ie c t) (fun _ t => Reading G ie c t ∧ t.cnt = some (n + 1)) (storeByte b s) := by
  obtain ⟨hie, hcfg, hsound⟩ := hs
  by_cases hcap : n < s.cfg.bufCap
  · rw [run_storeByte b hn hcap, ends_ok]
    exact ⟨⟨hie, hcfg, fun g => ⟨pokeBytes_sound (i := n) (bs := [b]) (hsound g).1 hcap, (hsound g).2⟩⟩, rfl⟩
  · have stuck : ¬G := fun g => hcap (hcfg ▸ room g)
    simp [storeByte, hn, stuck, Reading, hie, hcfg]

/-- The count a read returns is the one in `CNT` (R155). -/
theorem ends_returnCnt {B : State → Prop} {Q : Nat → State → Prop} {s : State} {n : Nat} (hn : s.cnt = some n) (h : Q n s) :
    Ends B Q (returnCnt s) := by
  rw [returnCnt, run_readReg hn, ends_ok]
  exact h

/-- The rounds that are left are more than the bytes that fit, so the loop ends before they run out (R155, R156). -/
theorem ends_readLoop {maxLen f n : Nat} {s : State} (hs : Reading G ie c s) (hn : s.cnt = some n)
    (hG : G → n < maxLen ∧ maxLen ≤ c.bufCap ∧ c.bufCap < n + f) :
    Ends (fun t => ¬G ∧ Reading G ie c t) (fun m t => Reading G ie c t ∧ (G → m ≤ maxLen)) (readLoop maxLen f s) := by
  induction f generalizing s n with
  | zero =>
    have stuck : ¬G := fun g => by
      have := hG g
      omega
    simp only [readLoop, run_hang, ends_error]
    exact .inr ⟨stuck, hs⟩
  | succ f ih =>
    have stop : ∀ {t : State}, Reading G ie c t → t.cnt = some n →
        Ends (fun t => ¬G ∧ Reading G ie c t) (fun m t => Reading G ie c t ∧ (G → m ≤ maxLen)) (returnCnt t) :=
      fun hr hc => ends_returnCnt hc ⟨hr, fun g => (hG g).1.le⟩
    simp only [readLoop, ends_bind, run_line, ends_ok, run_get]
    refine ends_waitUntilKick fun b t hf ht => ?_
    have hr : Reading G ie c t := reading_of_frame (by exact hs) hf (hf.2 .ie (by decide)) (by decide) ht
    have hc : t.cnt = some n := (hf.2 .cnt (by decide)).trans hn
    simp only [run_setOk, ends_ok, ends_ite, ends_bind, run_line, ends_readReg]
    refine ⟨fun _ => stop (by exact hr) hc, fun _ => ⟨fun ready _ => ⟨fun _ => ?_, fun _ => stop (by exact hr) hc⟩, nofun⟩⟩
    simp only [run_releaseLines, run_get, ends_ok]
    refine ends_waitUntil fun taken u i k hu => ⟨fun seen _ => ?_, nofun⟩
    refine ends_of_returns (returns_detectEoi (G := G) (ie := ie) (c := c) (n := n) ?_ (by exact hc) seen) fun _ v ⟨hv, hcv⟩ => ?_
    · obtain ⟨hie, hcfg, hsound⟩ := hr
      exact ⟨hie, hcfg, fun g => ⟨(hsound g).1, (hsound g).2.trans hu⟩⟩
    refine ends_receiveByte fun r w hf hie => ?_
    have hw : Reading G ie c w := reading_of_frame (by exact hv) hf hie (by decide) (onTime_of_frame hf (by decide))
    have hcw : w.cnt = some n := (hf.2 .cnt (by decide)).trans hcv
    cases r with
    | none =>
      simp only [ends_bind, run_line, ends_ok]
      exact stop (by exact hw) hcw
    | some byte =>
      have room : G → n < c.bufCap := fun g => by
        have := hG g
        omega
      simp only [ends_bind]
      refine ends_imp (ends_storeByte hw hcw room byte) fun _ x ⟨hx, hcx⟩ => ?_
      simp only [run_line, ends_ok, ends_readReg, run_get, ends_ite, hcx]
      refine ⟨fun m hm => ?_, nofun⟩
      cases hm
      refine ⟨fun _ => ends_returnCnt rfl ⟨hx, fun g => (hG g).1⟩, fun more => ih (n := n + 1) (by exact hx) rfl fun g => ?_⟩
      have := hG g
      omega

/-- A read that is not reset keeps the interrupt enable; where it may fill the buffer no further than `BUF_CAP`, it neither faults
nor hangs, keeps the buffer sound, and counts at most `maxLen` bytes (R155). -/
theorem ends_readOp {maxLen : Nat} {s : State}
    (hG : G → 1 ≤ maxLen ∧ maxLen ≤ s.cfg.bufCap ∧ bufferSound s ∧ OnTime s) :
    Ends (fun t => ¬G ∧ Reading G s.ie s.cfg t) (fun m t => Reading G s.ie s.cfg t ∧ (G → m ≤ maxLen)) (readOp maxLen s) := by
  simp only [readOp, ends_call, ends_bind, run_setCnt, run_get, ends_ok]
  refine ends_imp (ends_readLoop (n := 0) (ie := s.ie) (c := s.cfg) ⟨rfl, rfl, fun g => ?_⟩ rfl fun g => ?_) fun _ _ h => h
  · obtain ⟨-, -, hsound⟩ := hG g
    exact hsound
  · obtain ⟨hpos, hcap, -⟩ := hG g
    exact ⟨hpos, hcap, by omega⟩

end Sys2Proof.Machine
end

section
/-! PROOFS. `reset` (R164): where a retry takes time the free-bus probe ends, and the watchdog's time stays in the past. -/

namespace Sys2Proof.Machine

/-- The free-bus wait that began at time `start`, at an instant no earlier than `m`. -/
def Probing (start : Nat) (c : Params) (m : Nat) (s : State) : Prop :=
  s.t0 = some start ∧ s.cfg = c ∧ OnTime s ∧ m ≤ s.now

/-- What a delay leaves of it. -/
theorem probing_later {start m : Nat} {c : Params} {s t : State} (h : Probing start c m s) (ht : t.t0 = s.t0) (hc : t.cfg = s.cfg)
    (hw : t.wdtLast = s.wdtLast) (hn : s.now ≤ t.now) : Probing start c m t := by
  obtain ⟨h0, hcfg, hot, hm⟩ := h
  refine ⟨ht.trans h0, hc.trans hcfg, ?_, hm.trans hn⟩
  rw [OnTime, hw]
  exact hot.trans hn

theorem returns_probeFree {start m : Nat} {c : Params} {s : State} (h : Probing start c m s) :
    Returns (fun _ t => Probing start c m t) (probeFree s) := by
  simp only [probeFree, ends_call, ends_bind, run_releaseLines, run_line, run_get, ends_ok]
  refine ends_delay fun n _ _ hn => ?_
  have hn : s.now ≤ n := hn
  simp only [ends_ite, ends_bind, run_line, run_get, ends_ok, run_pure, run_assertLines]
  refine ⟨fun _ => probing_later h rfl rfl rfl hn, fun _ => ends_delay fun n' _ _ hn' => ?_⟩
  have hn' : s.now ≤ n' := hn.trans hn'
  simp only [ends_ok, run_releaseLines]
  refine ⟨fun _ => probing_later h rfl rfl rfl hn', fun _ => ends_delay fun n'' _ _ hn'' => ?_⟩
  exact probing_later h rfl rfl rfl (hn'.trans hn'')

/-- Every attempt but the last takes at least a microsecond, so the bound on the wait comes before the rounds run out (R166). -/
theorem returns_freeBusLoop {start f : Nat} {s : State} (hr : 1 ≤ s.cfg.tFbRetry) (hs : s.t0 = some start) (hf : 1 ≤ f)
    (hn : start + s.cfg.tFreebus + 2 ≤ s.now + f) : Returns (fun _ t => OnTime t) (freeBusLoop f s) := by
  induction f generalizing s with
  | zero => omega
  | succ f ih =>
    simp only [freeBusLoop, ends_bind, run_line, run_kickWatchdog, ends_ok]
    refine ends_imp (returns_probeFree (start := start) (c := s.cfg) (m := s.now) ?_) fun free t ⟨h0, hcfg, htime, hm⟩ => ?_
    · exact ⟨hs, rfl, Nat.le_refl _, Nat.le_refl _⟩
    simp only [ends_ite, ends_bind, run_line, run_get, ends_ok, run_pure, run_log, ends_readReg, h0]
    refine ⟨fun _ => htime, fun _ => ⟨fun v hv => ⟨fun _ => htime, fun hlt => ends_delay_lasts fun n i k hlast => ?_⟩, nofun⟩⟩
    cases hv
    simp only [hcfg] at hlt hlast
    refine ih ?_ rfl ?_ ?_
    · exact hcfg ▸ hr
    · omega
    · simp only [hcfg]
      omega

/-- A bus reset neither faults nor hangs where a retry takes time, and leaves the last kick in the past (R164, R166). -/
theorem returns_busResetOp {s : State} (hr : 1 ≤ s.cfg.tFbRetry) : Returns (fun _ t => OnTime t) (busResetOp s) := by
  simp only [busResetOp, resetPulse, ends_call, ends_bind, run_releaseLines, run_assertLines, run_line, run_get, ends_ok]
  refine ends_delay fun n i k _ => ?_
  simp only [waitFreeBus, ends_call, ends_bind, run_get, ends_ok, run_setT0]
  refine ends_imp (returns_freeBusLoop (start := n) hr rfl (by omega) ?_) fun _ t ht => ht
  simp only
  omega

end Sys2Proof.Machine
end

section
/-! PROOFS. What the host commands and the dispatches may change, and from that what every instruction leaves unchanged. -/

namespace Sys2Proof.Machine

/-- The host commands but `BUS_RESET` (R210 to R223): buffer, request registers, `HOUT`, the lines, time, the environment's choices. -/
def commandParts : List Part :=
  [.buf, .len, .req, .collected, .hout, .outData, .outClock, .outAtn, .outReset, .lineLog, .now, .irq, .draws, .xfer]

theorem frame_requestReadOp (n : Byte) : Within (Frame commandParts) (requestReadOp n) :=
  within_call <| frameBind (frame_requireHost _) fun _ => frameBind (frame_line _) fun _ => frameBind (frame_requireHost _) fun _ =>
  frameBind (frame_line _) fun _ => frameBind (frame_setLen _ (by decide)) fun _ => frameBind (frame_line _) fun _ =>
  frame_setReq _ (by decide)

theorem frame_collectReadOp (n : Byte) : Within (Frame commandParts) (collectReadOp n) :=
  within_call <| frameBind (frame_requireHost _) fun _ => frameBind (frame_line _) fun _ => frameBind frame_get fun _ =>
  frameBind (frame_line _) fun _ => frameBind (frame_memRead _ _) fun _ => frameBind (frame_takeXfer (by decide)) fun _ =>
  frameBind (frame_line _) fun _ => frameBind (frame_setReq _ (by decide)) fun _ => within_ite
    (frameBind (frame_line _) fun _ => frame_respond _ (by decide))
    (frameBind (frame_line _) fun _ => frame_respond _ (by decide))

theorem frame_readBlock (block : List Byte) : Within (Frame commandParts) (readBlock block) :=
  frameBind (frame_takeXfer (by decide)) fun _ => within_ite (frame_pure _) (frame_pure _)

theorem frame_submitWriteOp (n : Byte) (block : List Byte) : Within (Frame commandParts) (submitWriteOp n block) := by
  refine within_call <| frameBind (frame_requireHost _) fun _ => frameBind (frame_line _) fun _ =>
    frameBind (frame_requireHost _) fun _ => frameBind (frame_line _) fun _ => frameBind (frame_readBlock block) fun r => ?_
  cases r with
  | none =>
    exact frameBind (frame_line _) fun _ => frameBind (frame_freeBytes _ (by decide)) fun _ =>
      frameBind (frame_memWrite _ _ (by decide)) fun _ => frame_respond _ (by decide)
  | some bs =>
    exact frameBind (frame_line _) fun _ => frameBind (frame_memWrite _ _ (by decide)) fun _ => frameBind (frame_line _) fun _ =>
      frameBind (frame_setLen _ (by decide)) fun _ => frameBind (frame_line _) fun _ =>
      frameBind (frame_setReq _ (by decide)) fun _ => frameBind (frame_line _) fun _ => frame_respond _ (by decide)

theorem frame_submitAsyncOp (a t n : Byte) (payload : List Byte) : Within (Frame commandParts) (submitAsyncOp a t n payload) :=
  within_call <| frameBind (frame_requireHost _) fun _ => frameBind (frame_line _) fun _ => frameBind (frame_requireHost _) fun _ =>
  frameBind (frame_line _) fun _ => frameBind (frame_memWrite _ _ (by decide)) fun _ =>
  frameBind (frame_line _) fun _ => frameBind (frame_memWrite _ _ (by decide)) fun _ =>
  frameBind (frame_line _) fun _ => frameBind (frame_memWrite _ _ (by decide)) fun _ =>
  frameBind (frame_line _) fun _ => frameBind (frame_setLen _ (by decide)) fun _ =>
  frameBind (frame_line _) fun _ => frame_setReq _ (by decide)

theorem frame_queryResultOp : Within (Frame commandParts) queryResultOp :=
  within_call <| frameBind frame_get fun _ => frameBind (frame_respond _ (by decide)) fun _ => frameBind (frame_line _) fun _ =>
  within_ite
    (frameBind (frame_line _) fun _ => frameBind (frame_setCollected _ (by decide)) fun _ => frameBind (frame_line _) fun _ =>
      within_ite (frame_setReq _ (by decide)) (frame_pure _))
    (frame_pure _)

theorem frame_logicalWaitOp (sel state : Byte) : Within (Frame commandParts) (logicalWaitOp sel state) := by
  refine within_call ?_
  cases selectedLine sel with
  | none => exact frame_raise _
  | some l =>
    exact within_ite (frameBind (frame_line _) fun _ => within_widen (frame_waitForever _) (by decide))
      (frameBind (frame_line _) fun _ => within_widen (frame_waitForever _) (by decide))

theorem frame_logicalPollOp : Within (Frame commandParts) logicalPollOp :=
  within_call <| frameBind frame_get fun _ => frame_respond _ (by decide)

theorem frame_setReleaseOp (a r : Byte) : Within (Frame commandParts) (setReleaseOp a r) :=
  within_call <| frameBind (frame_requireOperand _) fun _ => frameBind (frame_line _) fun _ =>
  frame_setReleaseLines _ _ (by decide) (fun _ => by decide) (fun _ => by decide) (fun _ => by decide) (fun _ => by decide)

/-! ### The dispatches -/

theorem within_whenReq {R : State → State → Prop} {r : ReqState} {m : Op Unit} (hr : ∀ s, R s s) (hm : Within R m) :
    Within R (whenReq r m) := by
  intro s
  unfold whenReq
  split
  · exact hm s
  · exact hr s

/-- A dispatch of a write (R191, R192): what `write` changes, and the request registers but `LEN`. -/
def dispatchWriteParts : List Part := [.result, .collected, .req] ++ writeParts

/-- A dispatch of a read (R193): what `read` changes, `LEN`, `RESULT` and `REQ`. -/
def dispatchReadParts : List Part := [.len, .result, .req] ++ readParts

theorem frame_storeResult (c : Nat) : Within (Frame dispatchWriteParts) (storeResult c) :=
  frameBind (frame_line _) fun _ => frameBind (frame_setResult _ (by decide)) fun _ => frameBind (frame_line _) fun _ =>
  frameBind (frame_setCollected _ (by decide)) fun _ => frameBind (frame_line _) fun _ => frame_setReq _ (by decide)

theorem frame_dispatchWriteOp : Within (Frame dispatchWriteParts) dispatchWriteOp :=
  within_whenReq (frame_refl _) <| within_call <| frameBind frame_get fun _ =>
  frameBind (within_widen (frame_writeOp _ _ _ _) (by decide)) fun _ => frame_storeResult _

theorem frame_dispatchAsyncOp : Within (Frame dispatchWriteParts) dispatchAsyncOp :=
  within_whenReq (frame_refl _) <| within_call <| frameBind (frame_memReadByte _) fun _ => frameBind (frame_memReadByte _) fun _ =>
  frameBind frame_get fun _ => frameBind (within_widen (frame_writeOp _ _ _ _) (by decide)) fun _ => frame_storeResult _

theorem frame_dispatchReadOp : Within (Frame dispatchReadParts) dispatchReadOp :=
  within_whenReq (frame_refl _) <| within_call <| frameBind frame_get fun _ =>
  frameBind (within_widen (frame_readOp _) (by decide)) fun _ => frameBind (frame_line _) fun _ =>
  frameBind (frame_setLen _ (by decide)) fun _ => frameBind (frame_line _) fun _ =>
  frameBind (frame_drawResult (by decide) (by decide)) fun _ => frameBind (frame_line _) fun _ => frame_setReq _ (by decide)

/-! ### Every instruction -/

/-- The parts of the state an instruction may change. -/
def mayChange : Instr → List Part
  | .requestRead _ | .collectRead _ | .submitWrite _ _ | .submitAsync _ _ _ _ | .queryResult | .logicalWait _ _
  | .logicalPoll | .setRelease _ _ => commandParts
  | .busReset | .reset => resetParts
  | .sendByte _ => sendParts
  | .receiveByte => receiveParts
  | .write _ _ _ _ => writeParts
  | .read _ => readParts
  | .dispatchWrite | .dispatchAsync => dispatchWriteParts
  | .dispatchRead => dispatchReadParts
  | .dispatchNone => []

/-- Every instruction is an operation that keeps to its frame. -/
theorem exec_within (i : Instr) :
    ∃ (α : Type) (m : Op α), Within (Frame (mayChange i)) m ∧ ∀ s, exec i s = .next (finalState m s) := by
  cases i with
  | requestRead n => exact ⟨_, _, frame_requestReadOp n, fun _ => rfl⟩
  | collectRead n => exact ⟨_, _, frame_collectReadOp n, fun _ => rfl⟩
  | submitWrite n block => exact ⟨_, _, frame_submitWriteOp n block, fun _ => rfl⟩
  | submitAsync a t n payload => exact ⟨_, _, frame_submitAsyncOp a t n payload, fun _ => rfl⟩
  | queryResult => exact ⟨_, _, frame_queryResultOp, fun _ => rfl⟩
  | logicalWait sel state => exact ⟨_, _, frame_logicalWaitOp sel state, fun _ => rfl⟩
  | logicalPoll => exact ⟨_, _, frame_logicalPollOp, fun _ => rfl⟩
  | setRelease a r => exact ⟨_, _, frame_setReleaseOp a r, fun _ => rfl⟩
  | busReset => exact ⟨_, _, within_call frame_busResetOp, fun _ => rfl⟩
  | sendByte v => exact ⟨_, _, frame_sendByte v, fun _ => rfl⟩
  | receiveByte => exact ⟨_, _, frame_receiveByte, fun _ => rfl⟩
  | write base n atn talk => exact ⟨_, _, frame_writeOp base n.toNat atn talk, fun _ => rfl⟩
  | read maxLen => exact ⟨_, _, frame_readOp maxLen.toNat, fun _ => rfl⟩
  | reset => exact ⟨_, _, frame_busResetOp, fun _ => rfl⟩
  | dispatchWrite => exact ⟨_, _, frame_dispatchWriteOp, fun _ => rfl⟩
  | dispatchAsync => exact ⟨_, _, frame_dispatchAsyncOp, fun _ => rfl⟩
  | dispatchRead => exact ⟨_, _, frame_dispatchReadOp, fun _ => rfl⟩
  | dispatchNone => exact ⟨_, _, frame_pure (), fun _ => rfl⟩

end Sys2Proof.Machine
end

section
/-! PROOFS. The decoder answers well-formed commands. -/

namespace Sys2Proof

theorem splitBytes_length {n : Nat} {bs front rest : List Byte} (h : splitBytes n bs = some (front, rest)) : front.length = n := by
  induction n generalizing bs front rest with
  | zero =>
    cases h
    rfl
  | succ n ih =>
    cases bs with
    | nil => cases h
    | cons b bs =>
      simp only [splitBytes] at h
      split at h
      · rename_i hs
        cases h
        simp [ih hs]
      · cases h

/-- A well-formed host command. -/
def Instr.legal (i : Instr) : Prop := i.wellFormed = true ∧ i.isCommand = true

theorem decodeTail_legal {mk : List Byte → Instr} {n : Byte} {bs rest : List Byte} {i : Instr}
    (hmk : ∀ block : List Byte, block.length = n.toNat → (mk block).legal) (h : decodeTail mk n bs = .frame i rest) : i.legal := by
  unfold decodeTail at h
  split at h
  · cases h
    exact hmk _ (splitBytes_length ‹_›)
  · cases h

/-- What the decoder answers is a well-formed host command (R88, R89). -/
theorem decode_legal {q rest : List Byte} {i : Instr} (h : decode q = .frame i rest) : i.legal := by
  cases q with
  | nil => cases h
  | cons op q =>
    simp only [decode, decodeOperands] at h
    split at h
    case h_1 | h_2 =>
      cases q <;> cases h
      exact ⟨rfl, rfl⟩
    case h_3 =>
      cases q with
      | nil => cases h
      | cons n q => exact decodeTail_legal (fun block hb => ⟨by simp [Instr.wellFormed, hb], rfl⟩) h
    case h_4 =>
      match q, h with
      | a :: t :: n :: q, h => exact decodeTail_legal (fun block hb => ⟨by simp [Instr.wellFormed, hb], rfl⟩) h
    case h_5 | h_7 | h_9 =>
      cases h
      exact ⟨rfl, rfl⟩
    case h_6 | h_8 =>
      match q, h with
      | a :: b :: q, h =>
        cases h
        exact ⟨rfl, rfl⟩
    case h_10 => cases h

end Sys2Proof
end

section
/-! PROOFS. What each host command and each dispatch leaves of the buffer and of `LEN` (R26, R210 to R224, R191 to R193). -/

namespace Sys2Proof.Machine

variable {G : Prop}

/-- The buffer and `LEN` are what they may be (R25, R26). -/
def Stored (s : State) : Prop := bufferSound s ∧ lengthFits s

/-- `t` is `s` with a fault that a host can cause, raised wherever it was (R253). -/
def HostFaulted (s t : State) : Prop :=
  ∃ k l st, hostFault k = true ∧ t = { s with fault := some k, pc := l, stack := st }

/-- Whatever request is armed, `LEN` fits the buffer (R26). -/
theorem lengthFits_le {s : State} (h : lengthFits s) : s.len.toNat ≤ s.cfg.bufCap := by
  unfold lengthFits at h
  split at h <;> omega

theorem lengthFits_of_eq {s t : State} (h : lengthFits s) (hr : t.req = s.req) (hl : t.len = s.len) (hc : t.cfg = s.cfg) :
    lengthFits t := by
  rwa [lengthFits, hr, hl, hc]

/-- Where no request is armed that needs more, `LEN` need only fit the buffer. -/
theorem lengthFits_of_le {s : State} (h : s.len.toNat ≤ s.cfg.bufCap) (ha : s.req ≠ .async) (hr : s.req ≠ .read) :
    lengthFits s := by
  unfold lengthFits
  split
  case h_1 => exact absurd ‹_› ha
  case h_2 => exact absurd ‹_› hr
  all_goals exact h

theorem stored_of_eq {s t : State} (h : Stored s) (hb : t.buf = s.buf) (hr : t.req = s.req) (hl : t.len = s.len)
    (hc : t.cfg = s.cfg) : Stored t :=
  ⟨bufferSound_of_eq h.1 hb hc, lengthFits_of_eq h.2 hr hl hc⟩

/-- Whatever the transport decides, only its own input has changed (R266). -/
theorem ends_takeXfer {B : State → Prop} {Q : Bool → State → Prop} {s : State}
    (h : ∀ b x k, Q b { s with xfer := x, draws := k }) : Ends B Q (takeXfer s) := by
  rw [run_takeXfer, ends_ok]
  have key : xferTaken s = { s with xfer := (xferTaken s).xfer, draws := (xferTaken s).draws } := by
    unfold xferTaken
    split <;> rfl
  rw [key]
  exact h _ _ _

/-! ### The host commands -/

theorem ends_requestReadOp {s : State} (h : Stored s) (n : Byte) :
    Ends (HostFaulted s) (fun _ => Stored) (requestReadOp n s) := by
  simp only [requestReadOp, setLen, setReq, ends_call, ends_bind, ends_requireHost, run_line, ends_ok, decide_eq_true_eq]
  refine ⟨fun _ => ⟨fun ⟨hpos, hcap⟩ => ⟨h.1, ?_, hcap⟩, fun _ => ⟨_, _, _, rfl, rfl⟩⟩, fun _ => ⟨_, _, _, rfl, rfl⟩⟩
  have : n.toNat ≠ 0 := fun h0 => hpos (BitVec.eq_of_toNat_eq h0)
  show 1 ≤ n.toNat
  omega

theorem ends_collectReadOp {s : State} (h : Stored s) (n : Byte) :
    Ends (HostFaulted s) (fun _ => Stored) (collectReadOp n s) := by
  have hle := lengthFits_le h.2
  have hfit : min n.toNat s.len.toNat ≤ s.cfg.bufCap := (Nat.min_le_right ..).trans hle
  simp only [collectReadOp, writeBlock, ends_call, ends_bind, ends_requireHost, run_line, ends_ok, run_get, ends_memRead]
  refine ⟨fun _ => ⟨fun _ => ends_takeXfer fun tok x k => ?_, fun hcap => absurd hfit (by omega)⟩, fun _ => ⟨_, _, _, rfl, rfl⟩⟩
  simp only [setReq, ends_ok, ends_ite, ends_bind, run_line, run_respond]
  exact ⟨fun _ => ⟨h.1, hle⟩, fun _ => ⟨h.1, hle⟩⟩

theorem ends_submitWriteOp {s : State} (h : Stored s) {n : Byte} {block : List Byte} (hlen : block.length = n.toNat) :
    Ends (HostFaulted s) (fun _ => Stored) (submitWriteOp n block s) := by
  simp only [submitWriteOp, readBlock, ends_call, ends_bind, ends_requireHost, run_line, ends_ok, decide_eq_true_eq]
  refine ⟨fun _ => ⟨fun hcap => ends_takeXfer fun delivered x k => ?_, fun _ => ⟨_, _, _, rfl, rfl⟩⟩, fun _ => ⟨_, _, _, rfl, rfl⟩⟩
  cases delivered with
  | false =>
    simp only [freeBytes, Bool.false_eq_true, if_false, run_pure, run_line, ends_ok, ends_bind, ends_memWrite, run_respond,
      List.length_map, List.length_range]
    exact ⟨fun hfits => ⟨pokeBytes_sound h.1 (by simpa using hfits), h.2⟩, fun hfull => absurd hcap (by omega)⟩
  | true =>
    simp only [setLen, setReq, if_true, run_pure, run_line, ends_ok, ends_bind, ends_memWrite, run_respond]
    exact ⟨fun hfits => ⟨pokeBytes_sound h.1 hfits, hcap⟩, fun hfull => absurd hcap (by omega)⟩

theorem ends_submitAsyncOp {s : State} (h : Stored s) {n : Byte} {payload : List Byte} (a t : Byte)
    (hlen : payload.length = n.toNat) : Ends (HostFaulted s) (fun _ => Stored) (submitAsyncOp a t n payload s) := by
  simp only [submitAsyncOp, setLen, setReq, ends_call, ends_bind, ends_requireHost, run_line, ends_ok, decide_eq_true_eq,
    ends_memWrite, List.length_singleton]
  refine ⟨fun _ => ⟨fun hcap => ?_, fun _ => ⟨_, _, _, rfl, rfl⟩⟩, fun _ => ⟨_, _, _, rfl, rfl⟩⟩
  have hatn : 0 + 1 ≤ s.cfg.bufCap := by omega
  have htalk : 1 + 1 ≤ s.cfg.bufCap := by omega
  have hpayload : 2 + payload.length ≤ s.cfg.bufCap := by omega
  refine ⟨fun _ => ⟨fun _ => ⟨fun _ => ⟨?_, hcap⟩, absurd hpayload⟩, absurd htalk⟩, absurd hatn⟩
  have hbuf1 := pokeBytes_sound (bs := [a]) h.1 hatn
  have hbuf2 := pokeBytes_sound (bs := [t]) hbuf1 htalk
  exact pokeBytes_sound hbuf2 hpayload

theorem ends_queryResultOp {s : State} (h : Stored s) : Ends (HostFaulted s) (fun _ => Stored) (queryResultOp s) := by
  have hle := lengthFits_le h.2
  simp only [queryResultOp, setCollected, setReq, ends_call, ends_bind, run_get, run_respond, run_line, ends_ok, ends_ite, run_pure]
  exact ⟨fun _ => ⟨fun _ => ⟨h.1, hle⟩, fun _ => h⟩, fun _ => h⟩

theorem ends_logicalWaitOp {s : State} (h : Stored s) (hp : 1 ≤ s.cfg.tPoll) (sel state : Byte) :
    Ends (HostFaulted s) (fun _ => Stored) (logicalWaitOp sel state s) := by
  rw [logicalWaitOp, ends_call]
  cases selectedLine sel with
  | none =>
    simp only [run_raise, ends_error]
    exact .inr ⟨_, _, _, rfl, rfl⟩
  | some l =>
    simp only [ends_ite, ends_bind, run_line, ends_ok]
    exact ⟨fun _ => ends_waitForever (fun _ _ hnp => absurd hp hnp) fun _ _ _ _ => h,
      fun _ => ends_waitForever (fun _ _ hnp => absurd hp hnp) fun _ _ _ _ => h⟩

theorem ends_logicalPollOp {s : State} (h : Stored s) : Ends (HostFaulted s) (fun _ => Stored) (logicalPollOp s) := by
  simp only [logicalPollOp, ends_call, ends_bind, run_get, run_respond, ends_ok]
  exact h

theorem ends_setReleaseOp {s : State} (h : Stored s) (a r : Byte) :
    Ends (HostFaulted s) (fun _ => Stored) (setReleaseOp a r s) := by
  simp only [setReleaseOp, ends_call, ends_bind, ends_requireOperand, run_line, run_setReleaseLines, ends_ok]
  exact ⟨fun _ => h, fun _ => ⟨_, _, _, rfl, rfl⟩⟩

end Sys2Proof.Machine
end

section
/-! PROOFS. What the dispatches leave (R191 to R193). -/

namespace Sys2Proof.Machine

variable {α : Type} {G : Prop}

/-- The interrupt enable is as it was, and EOI is not newly set. -/
def FlagsKept (s t : State) : Prop := t.ie = s.ie ∧ (s.eoi = false → t.eoi = false)

/-- A dispatch is the rule of its row in the row's own request state, and nothing in another (R190, R194). -/
theorem ends_whenReq {B : State → Prop} {Q : Unit → State → Prop} {r : ReqState} {m : Op Unit} {s : State}
    (h : s.req = r → Ends B Q (m s)) (hother : s.req ≠ r → Q () s) : Ends B Q (whenReq r m s) := by
  unfold whenReq
  split
  · exact h ‹_›
  · exact (ends_ok _ _).mpr (hother ‹_›)

/-- A write and the storing of its count: what both write dispatches are (R191, R192). -/
theorem ends_writeThenStore {base n : Nat} (atn talk : Bool) {s : State} (hG : G → 1 ≤ s.cfg.tPoll ∧ base + n ≤ s.cfg.bufCap) :
    Ends (fun t => ¬G ∧ FlagsKept s t) (fun _ t => FlagsKept s t ∧ t.req = .result)
      ((writeOp base n atn talk >>= storeResult) s) := by
  have kept : ∀ {t}, Flags s.ie false s.cfg t → FlagsKept s t := fun ⟨hie, heoi, _⟩ => ⟨hie, fun _ => heoi⟩
  rw [ends_bind]
  refine ends_mono (keeps_writeOp atn talk hG) (fun _ ⟨hng, ht⟩ => ⟨hng, kept ht⟩) fun c t ht => ?_
  simp only [storeResult, setResult, setCollected, setReq, ends_bind, run_line, ends_ok]
  exact ⟨kept ht, trivial⟩

/-- Where the premise `G` holds, a dispatch of `WRITE` neither faults nor hangs (R191). -/
theorem ends_dispatchWriteOp {s : State} (hG : G → 1 ≤ s.cfg.tPoll ∧ (s.req = .write → s.len.toNat ≤ s.cfg.bufCap)) :
    Ends (fun t => ¬G ∧ FlagsKept s t) (fun _ t => FlagsKept s t ∧ (s.req = .write → t.req = .result)) (dispatchWriteOp s) := by
  refine ends_whenReq (fun hr => ?_) fun hn => ⟨⟨rfl, id⟩, fun hr => absurd hr hn⟩
  have fits : G → 1 ≤ s.cfg.tPoll ∧ 0 + s.len.toNat ≤ s.cfg.bufCap := fun g => by
    obtain ⟨hpoll, hlen⟩ := hG g
    have := hlen hr
    exact ⟨hpoll, by omega⟩
  rw [ends_call, ends_bind, run_get, ends_ok]
  exact ends_mono (ends_writeThenStore false false fits) (fun _ h => h) fun _ _ ⟨hkept, hreq⟩ => ⟨hkept, fun _ => hreq⟩

/-- Where the premise `G` holds, a dispatch of `ASYNC` neither faults nor hangs (R192). -/
theorem ends_dispatchAsyncOp {s : State} (hG : G → 1 ≤ s.cfg.tPoll ∧ (s.req = .async → s.len.toNat + 2 ≤ s.cfg.bufCap)) :
    Ends (fun t => ¬G ∧ FlagsKept s t) (fun _ t => FlagsKept s t ∧ (s.req = .async → t.req = .result)) (dispatchAsyncOp s) := by
  refine ends_whenReq (fun hr => ?_) fun hn => ⟨⟨rfl, id⟩, fun hr => absurd hr hn⟩
  have fits : G → 1 ≤ s.cfg.tPoll ∧ 2 + s.len.toNat ≤ s.cfg.bufCap := fun g => by
    obtain ⟨hpoll, hlen⟩ := hG g
    have := hlen hr
    exact ⟨hpoll, by omega⟩
  have flags : G → 1 < s.cfg.bufCap := fun g => Nat.lt_of_lt_of_le (by omega) (fits g).2
  rw [ends_call, ends_bind, ends_memReadByte, ends_bind, ends_memReadByte, ends_bind, run_get, ends_ok]
  refine ⟨fun _ => ⟨fun _ => ?_, fun hcap => ⟨fun g => hcap (flags g), rfl, id⟩⟩,
    fun hcap => ⟨fun g => hcap (Nat.zero_lt_of_lt (flags g)), rfl, id⟩⟩
  exact ends_mono (ends_writeThenStore _ _ fits) (fun _ h => h) fun _ _ ⟨hkept, hreq⟩ => ⟨hkept, fun _ => hreq⟩

/-- The buffer and `LEN` after a dispatch of `READ` are what they may be (R26, R193). -/
theorem ends_dispatchReadOp {s : State} (hG : G → s.req = .read →
      1 ≤ s.len.toNat ∧ s.len.toNat ≤ s.cfg.bufCap ∧ bufferSound s ∧ OnTime s) :
    Ends (fun t => ¬G ∧ t.ie = s.ie)
      (fun _ t => t.ie = s.ie ∧ (G → s.req = .read → Stored t ∧ OnTime t ∧ t.req = .readDone)) (dispatchReadOp s) := by
  refine ends_whenReq (fun hr => ?_) fun hn => ⟨rfl, fun _ hr => absurd hr hn⟩
  rw [ends_call]
  simp only [ends_bind, run_get, ends_ok]
  refine ends_mono (ends_readOp (G := G) fun g => hG g hr) (fun _ ⟨hng, hie, _⟩ => ⟨hng, hie⟩)
    fun c t ⟨⟨hie, hcfg, hsound⟩, hc⟩ => ?_
  simp only [setLen, setReq, run_line, run_drawResult, ends_ok]
  refine ⟨hie, fun g _ => ⟨⟨(hsound g).1, ?_⟩, (hsound g).2, trivial⟩⟩
  have hle := hc g
  obtain ⟨-, hcap, -⟩ := hG g hr
  show (BitVec.ofNat 8 c).toNat ≤ t.cfg.bufCap
  rw [BitVec.toNat_ofNat, Nat.mod_eq_of_lt (by omega), hcfg]
  exact hle.trans hcap

end Sys2Proof.Machine
end

section
/-! PROOFS. What an instruction can come to, and from that the interrupt enable and the EOI flag. -/

namespace Sys2Proof.Machine

variable {α : Type} {may : List Part}

/-- Everything an instruction can do: it changes only its own parts, and then it returns or hangs, or a fault is raised, or the
watchdog resets the engine. -/
theorem exec_cases {i : Instr} {s t : State} (h : exec i s = .next t) :
    ∃ u, Frame (mayChange i) s u ∧ (t = u ∨ (∃ k, t = { u with fault := some k }) ∨ t = watchdogReset u) := by
  obtain ⟨α, m, hm, hexec⟩ := exec_within i
  have hs := hm s
  rw [hexec, finalState] at h
  cases hr : m s with
  | ok a v =>
    rw [hr] at h hs
    cases h
    exact ⟨v, hs, .inl rfl⟩
  | error e v =>
    rw [hr] at h hs
    cases h
    cases e with
    | hung => exact ⟨v, hs, .inl rfl⟩
    | faulted =>
      obtain ⟨u, k, hu, hv⟩ := hs
      exact ⟨u, hu, .inr (.inl ⟨k, hv⟩)⟩
    | watchdog =>
      obtain ⟨u, hu, hv⟩ := hs
      exact ⟨u, hu, .inr (.inr hv)⟩

/-- What holds at every end but a watchdog reset holds of the final state, or it is a watchdog reset's. -/
theorem final_of_ends {P : State → Prop} {m : Op α} {s : State} (hm : Within (Frame may) m) (h : Ends P (fun _ => P) (m s)) :
    P (finalState m s) ∨ ∃ u, Frame may s u ∧ finalState m s = watchdogReset u := by
  have hs := hm s
  unfold finalState
  cases hr : m s with
  | ok a t =>
    rw [hr, ends_ok] at h
    exact .inl h
  | error e t =>
    rw [hr, ends_error] at h
    rw [hr] at hs
    rcases h with rfl | hP
    · exact .inr hs
    · exact .inl hP

/-- The final state of an operation that keeps the interrupt enable, where no watchdog reset has happened. -/
theorem ie_of_ends {m : Op α} {s t : State} (hm : Within (Frame may) m)
    (h : Ends (fun t => t.ie = s.ie) (fun _ t => t.ie = s.ie) (m s)) (ht : answer m s = .next t) (hr : t.resets = s.resets) :
    t.ie = s.ie := by
  cases (answer_eq_next m s t).mp ht
  rcases final_of_ends hm h with hie | ⟨u, hu, e⟩
  · exact hie
  · rw [e, watchdogReset_resets, frame_resets hu] at hr
    omega

/-- Every instruction that no watchdog reset ends leaves the interrupt enable as it was: the atomic sections are closed (R31, R114). -/
theorem exec_keeps_ie {i : Instr} {s t : State} (h : exec i s = .next t) (hr : t.resets = s.resets) : t.ie = s.ie := by
  by_cases hie : Part.ie ∈ mayChange i
  · cases i with
    | sendByte v => exact ie_of_ends (frame_sendByte v) (ends_of_returns (returns_sendByte v s) fun _ _ e => e) h hr
    | receiveByte => exact ie_of_ends frame_receiveByte (ends_of_returns (returns_receiveByte s) fun _ _ e => e) h hr
    | write base n atn talk =>
      have hends := keeps_writeOp (G := False) (base := base) (n := n.toNat) (s := s) atn talk nofun
      exact ie_of_ends (frame_writeOp base n.toNat atn talk) (ends_mono hends (fun _ ⟨_, e, _⟩ => e) fun _ _ ⟨e, _⟩ => e) h hr
    | read n =>
      have hends := ends_readOp (G := False) (maxLen := n.toNat) (s := s) nofun
      exact ie_of_ends (frame_readOp _) (ends_mono hends (fun _ ⟨_, e, _⟩ => e) fun _ _ ⟨⟨e, _⟩, _⟩ => e) h hr
    | dispatchWrite =>
      have hends := ends_dispatchWriteOp (G := False) (s := s) nofun
      exact ie_of_ends frame_dispatchWriteOp (ends_mono hends (fun _ ⟨_, e, _⟩ => e) fun _ _ ⟨⟨e, _⟩, _⟩ => e) h hr
    | dispatchAsync =>
      have hends := ends_dispatchAsyncOp (G := False) (s := s) nofun
      exact ie_of_ends frame_dispatchAsyncOp (ends_mono hends (fun _ ⟨_, e, _⟩ => e) fun _ _ ⟨⟨e, _⟩, _⟩ => e) h hr
    | dispatchRead =>
      have hends := ends_dispatchReadOp (G := False) (s := s) nofun
      exact ie_of_ends frame_dispatchReadOp (ends_mono hends (fun _ ⟨_, e⟩ => e) fun _ _ ⟨e, _⟩ => e) h hr
    | _ => simp [mayChange, commandParts, resetParts] at hie
  · obtain ⟨u, hu, rfl | ⟨k, rfl⟩ | rfl⟩ := exec_cases h
    · exact hu.2 _ hie
    · exact hu.2 _ hie
    · rw [watchdogReset_resets, frame_resets hu] at hr
      omega

/-- An operation that keeps EOI clear leaves it clear, also where the watchdog ends it. -/
theorem eoi_of_ends {m : Op α} {s t : State} (hm : Within (Frame may) m)
    (h : Ends (fun t => t.eoi = false) (fun _ t => t.eoi = false) (m s)) (ht : answer m s = .next t) : t.eoi = false := by
  cases (answer_eq_next m s t).mp ht
  rcases final_of_ends hm h with heoi | ⟨u, -, e⟩
  · exact heoi
  · rw [e, watchdogReset_eoi]

/-- No instruction but a read sets EOI (R24, R158). -/
theorem exec_keeps_eoi_clear {i : Instr} {s t : State} (h : exec i s = .next t) (hs : s.eoi = false)
    (hread : ∀ n, i ≠ .read n) (hdispatch : i ≠ .dispatchRead) : t.eoi = false := by
  by_cases heoi : Part.eoi ∈ mayChange i
  · cases i with
    | write base n atn talk =>
      have hends := keeps_writeOp (G := False) (base := base) (n := n.toNat) (s := s) atn talk nofun
      exact eoi_of_ends (frame_writeOp base n.toNat atn talk)
        (ends_mono hends (fun _ ⟨_, _, e, _⟩ => e) fun _ _ ⟨_, e, _⟩ => e) h
    | read n => exact absurd rfl (hread n)
    | dispatchWrite =>
      have hends := ends_dispatchWriteOp (G := False) (s := s) nofun
      exact eoi_of_ends frame_dispatchWriteOp (ends_mono hends (fun _ ⟨_, _, e⟩ => e hs) fun _ _ ⟨⟨_, e⟩, _⟩ => e hs) h
    | dispatchAsync =>
      have hends := ends_dispatchAsyncOp (G := False) (s := s) nofun
      exact eoi_of_ends frame_dispatchAsyncOp (ends_mono hends (fun _ ⟨_, _, e⟩ => e hs) fun _ _ ⟨⟨_, e⟩, _⟩ => e hs) h
    | dispatchRead => exact absurd rfl hdispatch
    | _ => simp [mayChange, commandParts, resetParts, sendParts, receiveParts] at heoi
  · obtain ⟨u, hu, rfl | ⟨k, rfl⟩ | rfl⟩ := exec_cases h
    · exact (hu.2 _ heoi).trans hs
    · exact (hu.2 _ heoi).trans hs
    · exact watchdogReset_eoi u

end Sys2Proof.Machine
end

section
/-! PROOFS. What a step can be (R197, R253, R255). -/

namespace Sys2Proof.Machine

/-- The state in which the main loop looks for a frame: line 1 has kicked the watchdog, and the host port is up to date. -/
def Polled (s u : State) : Prop := (s.pc = mainAt 1 ∧ u = kicked (deliver s)) ∨ ((s.pc = mainAt 2 ∨ s.pc = mainAt 3) ∧ u = deliver s)

/-- The ways a step can go. -/
inductive StepCase (s t : State) : Prop
  /-- The watchdog has expired (R258). -/
  | watchdog (expired : wdtExpired s = true) (final : t = watchdogReset s)
  /-- No frame is there (R197 line 2). -/
  | idle (u : State) (polled : Polled s u) (final : t = idlePass u)
  /-- A reserved opcode (R92). -/
  | reserved (u : State) (polled : Polled s u) (final : t = { u with fault := some .invalidCommand, pc := mainAt 3 })
  /-- A command (R197 lines 3 and 4). -/
  | command (u v : State) (i : Instr) (rest : List Byte) (polled : Polled s u) (legal : i.legal)
      (run : exec i { u with hin := rest, pc := mainAt 4 } = .next v) (final : t = resume 4 5 v)
  /-- A dispatch (R197 line 5). -/
  | dispatch (v : State) (loc : s.pc = mainAt 5) (run : exec (dispatchInstr s.req) s = .next v) (final : t = resume 5 1 v)
  /-- Back to line 1 (R197 line 6). -/
  | again (loc : s.pc = mainAt 6) (final : t = { s with pc := mainAt 1 })

theorem resumeOutcome_eq_next {j k : Nat} {o : Host.Outcome State Fault Refusal} {t : State} (h : resumeOutcome j k o = .next t) :
    ∃ v, o = .next v ∧ t = resume j k v := by
  cases o with
  | next v =>
    cases h
    exact ⟨v, rfl, rfl⟩
  | fault f => cases h
  | refused r => cases h

theorem takeFrame_cases {s u t : State} (hu : Polled s u) (h : takeFrame u = .next t) : StepCase s t := by
  unfold takeFrame at h
  split at h
  · cases h
    exact .idle u hu rfl
  · cases h
    exact .reserved u hu rfl
  · rename_i i rest hd
    obtain ⟨v, hrun, ht⟩ := resumeOutcome_eq_next h
    exact .command u v i rest hu (decode_legal hd) hrun ht

theorem mainLine_cases {k : Nat} {s t : State} (hk : s.pc = mainAt k) (h : mainLine k s = .next t) : StepCase s t := by
  unfold mainLine at h
  split at h
  · exact takeFrame_cases (.inl ⟨hk, rfl⟩) h
  · exact takeFrame_cases (.inr ⟨.inl hk, rfl⟩) h
  · exact takeFrame_cases (.inr ⟨.inr hk, rfl⟩) h
  · obtain ⟨v, hrun, ht⟩ := resumeOutcome_eq_next h
    exact .dispatch v hk hrun ht
  · cases h
    exact .again hk rfl
  · cases h

/-- A faulted engine answers its fault (R38, R253). -/
theorem step_faulted {s : State} {k : FaultKind} (h : s.fault = some k) : step s = .fault (.stopped k) := by
  simp only [step, stepOnce, h]

/-- Everything a step can do. -/
theorem step_cases {s t : State} (h : step s = .next t) : s.fault = none ∧ StepCase s t := by
  cases hf : s.fault with
  | some k =>
    rw [step_faulted hf] at h
    cases h
  | none =>
    refine ⟨rfl, ?_⟩
    simp only [step, stepOnce, hf, engineStep] at h
    split at h
    · cases h
      exact .watchdog ‹_› rfl
    · split at h
      · rename_i hop
        exact mainLine_cases (k := s.pc.line) (by rw [mainAt, ← hop]) h
      · cases h

end Sys2Proof.Machine
end

section
/-! PROOFS. What every step keeps: parameters, the environment's input and time (R20, R22, R32). -/

namespace Sys2Proof.Machine

variable {s t u : State}

/-- Neither the parameters nor the bus input change, and time does not go back. -/
def WorldKept (s t : State) : Prop := sameWorld s t ∧ s.now ≤ t.now

theorem worldKept_trans (h1 : WorldKept s t) (h2 : WorldKept t u) : WorldKept s u := by
  obtain ⟨⟨hc, hb⟩, hn⟩ := h1
  obtain ⟨⟨hc', hb'⟩, hn'⟩ := h2
  exact ⟨⟨hc'.trans hc, hb'.trans hb⟩, hn.trans hn'⟩

theorem worldKept_of_frame {may : List Part} (h : Frame may s t) : WorldKept s t := by
  obtain ⟨⟨hc, hb, -, -, hn⟩, -⟩ := h
  exact ⟨⟨hc, hb⟩, hn⟩

theorem worldKept_watchdogReset (s : State) : WorldKept s (watchdogReset s) :=
  ⟨⟨watchdogReset_cfg s, watchdogReset_bus s⟩, (watchdogReset_now s).ge⟩

theorem worldKept_resume (j k : Nat) (s : State) : WorldKept s (resume j k s) := by
  unfold resume
  split <;> exact ⟨⟨rfl, rfl⟩, Nat.le_refl _⟩

theorem worldKept_exec {i : Instr} (h : exec i s = .next t) : WorldKept s t := by
  obtain ⟨u, hu, ht⟩ := exec_cases h
  have hw : WorldKept s u := worldKept_of_frame hu
  rcases ht with rfl | ⟨k, rfl⟩ | rfl
  · exact hw
  · exact hw
  · exact worldKept_trans hw (worldKept_watchdogReset u)

theorem worldKept_of_polled (h : Polled s u) : WorldKept s u := by
  rcases h with ⟨-, rfl⟩ | ⟨-, rfl⟩ <;> simp [WorldKept, sameWorld]

theorem worldKept_idlePass (s : State) : WorldKept s (idlePass s) := by
  refine worldKept_trans ?_ (worldKept_resume 2 1 _)
  have hends : Ends (WorldKept s) (fun _ => WorldKept s) (delay s.cfg.tPoll { s with pc := mainAt 2 }) :=
    ends_delay fun n i k hn => ⟨⟨rfl, rfl⟩, hn⟩
  rcases final_of_ends (may := waitParts) (frame_delay s.cfg.tPoll (by decide)) hends with h | ⟨u, hu, e⟩
  · exact h
  · have hu : WorldKept s u := by exact worldKept_of_frame hu
    exact e ▸ worldKept_trans hu (worldKept_watchdogReset u)

/-- No step changes the parameters or the bus input, or goes back in time (R20, R22, R32). -/
theorem worldKept_step (h : step s = .next t) : WorldKept s t := by
  obtain ⟨-, hcase⟩ := step_cases h
  cases hcase with
  | watchdog _ e => exact e ▸ worldKept_watchdogReset s
  | idle u hu e => exact e ▸ worldKept_trans (worldKept_of_polled hu) (worldKept_idlePass u)
  | reserved u hu e =>
    have hw : WorldKept s u := worldKept_of_polled hu
    exact e ▸ hw
  | command u v i rest hu _ hrun e =>
    have hv : WorldKept u v := worldKept_exec (s := { u with hin := rest, pc := mainAt 4 }) hrun
    exact e ▸ worldKept_trans (worldKept_of_polled hu) (worldKept_trans hv (worldKept_resume 4 5 v))
  | dispatch v _ hrun e => exact e ▸ worldKept_trans (worldKept_exec hrun) (worldKept_resume 5 1 v)
  | again _ e => exact e ▸ ⟨⟨rfl, rfl⟩, Nat.le_refl _⟩

end Sys2Proof.Machine
end

section
open Sys2Proof Sys2Proof.Machine

/-- Settles O9: a faulted engine takes no step. -/
theorem faultedEngineTakesNoStep : Obligations.FaultedEngineTakesNoStep := fun _ _ h => step_faulted h

/-- Settles O52: the atomic sections are closed wherever an instruction returns. -/
theorem interruptEnableRestored : Obligations.InterruptEnableRestored := fun _ _ _ h hret => exec_keeps_ie h hret.1

/-- Settles O54, by the cases of a step. -/
theorem stepKeepsWorldAndTime : Obligations.StepKeepsWorldAndTime := fun _ _ h => worldKept_step h

/-- Settles O55: of the instructions that may change EOI, all but the reads only clear it. -/
theorem onlyReadsSetEoi : Obligations.OnlyReadsSetEoi := by
  intro i s t h hs ht
  by_contra hno
  rw [not_or, not_exists] at hno
  obtain ⟨hread, hdispatch⟩ := hno
  rw [exec_keeps_eoi_clear h hs hread hdispatch] at ht
  cases ht
end

section
/-! PROOFS. The machine's invariant (R40): from a line of the main loop every run comes back there sound, or is stopped by a fault
of the host's, or is reset. -/

namespace Sys2Proof.Machine

variable {α : Type} {may : List Part} {P : State → Prop}

/-- What the invariant asks of an engine that is not faulted and stands at line `k` of the main loop. -/
def ReadyAt (k : Nat) (s : State) : Prop :=
  legalParams s.cfg ∧ Stored s ∧ OnTime s ∧ s.fault = none ∧ s.stack = [] ∧ s.ie = true ∧ s.pc = mainAt k

/-- How a run from `s` may end: reset; stopped by a fault of the host's; or returned, sound and with `P`. -/
def Settles (P : State → Prop) (s t : State) : Prop :=
  (∃ u, u.cfg = s.cfg ∧ u.fault = s.fault ∧ t = watchdogReset u) ∨ HostFaulted s t ∨
  (t.cfg = s.cfg ∧ t.fault = s.fault ∧ t.pc = s.pc ∧ t.stack = s.stack ∧ t.ie = s.ie ∧ Stored t ∧ OnTime t ∧ P t)

/-! ### The invariant at the three ends -/

/-- A watchdog reset meets the invariant whatever was before it (R258, R280). -/
theorem machineInvariant_watchdogReset {u : State} (hc : legalParams u.cfg) (hf : u.fault = none) :
    machineInvariant (watchdogReset u) := by
  have hrest : atRest (watchdogReset u) := by simp [atRest, mainAt, reqSettled]
  have hbuf : bufferSound (watchdogReset u) := by simp [bufferSound, Memory.wf]
  have hlen : lengthFits (watchdogReset u) := by simp [lengthFits]
  exact ⟨by simpa using hc, hbuf, hlen, by simp, fun _ => hrest, by simp [hf]⟩

/-- A fault of the host's changes nothing else the invariant speaks of (R253). -/
theorem machineInvariant_of_hostFaulted {s t : State} {k : Nat} (hs : ReadyAt k s) (h : HostFaulted s t) : machineInvariant t := by
  obtain ⟨hc, ⟨hbuf, hlen⟩, htime, -⟩ := hs
  obtain ⟨f, l, st, hf, rfl⟩ := h
  exact ⟨hc, hbuf, hlen, htime, nofun, fun _ e => Option.some.inj e ▸ hf⟩

theorem machineInvariant_of_readyAt {k : Nat} {s : State} (h : ReadyAt k s) (hk : k = 5 ∨ k = 1 ∧ reqSettled s.req = true) :
    machineInvariant s := by
  obtain ⟨hc, ⟨hbuf, hlen⟩, htime, hf, hst, hie, hpc⟩ := h
  refine ⟨hc, hbuf, hlen, htime, fun _ => ⟨hst, hie, ?_⟩, fun _ e => by rw [hf] at e; cases e⟩
  rcases hk with rfl | ⟨rfl, hreq⟩
  · exact .inr hpc
  · exact .inl ⟨hpc, hreq⟩

theorem resume_of_ne {j k : Nat} {t : State} (h : t.fault ≠ none ∨ t.pc ≠ mainAt j) : resume j k t = t :=
  if_neg fun hback => h.elim (· hback.1) (· hback.2)

/-- The main loop goes on from a run that has settled. -/
theorem machineInvariant_resume {j k : Nat} {s t : State} (hj : j ≠ 1) (hs : ReadyAt j s) (h : Settles P s t)
    (hk : k = 5 ∨ k = 1 ∧ ∀ t, P t → reqSettled t.req = true) : machineInvariant (resume j k t) := by
  have ⟨hc, _, _, hf, hst, hie, hpc⟩ := hs
  rcases h with ⟨u, huc, huf, rfl⟩ | hfault | ⟨hc', hf', hpc', hst', hie', hstored, htime, hP⟩
  · rw [resume_of_ne (.inr fun h => hj (congrArg Loc.line ((watchdogReset_pc u).symm.trans h)).symm)]
    exact machineInvariant_watchdogReset (huc ▸ hc) (huf.trans hf)
  · have hinv := machineInvariant_of_hostFaulted hs hfault
    obtain ⟨f, l, st, -, rfl⟩ := hfault
    rwa [resume_of_ne (.inl (by simp))]
  · have back : resume j k t = { t with pc := mainAt k } := if_pos ⟨hf'.trans hf, hpc'.trans hpc⟩
    rw [back]
    exact machineInvariant_of_readyAt
      (s := { t with pc := mainAt k }) ⟨hc' ▸ hc, hstored, htime, hf'.trans hf, hst'.trans hst, hie'.trans hie, rfl⟩
      (hk.imp_right fun h => ⟨h.1, h.2 t hP⟩)

/-- How the run of an operation settles. -/
theorem settles_of_ends {m : Op α} {s : State} (hm : Within (Frame may) m)
    (h : Ends (HostFaulted s) (fun _ t => t.pc = s.pc ∧ t.stack = s.stack ∧ t.ie = s.ie ∧ Stored t ∧ OnTime t ∧ P t) (m s)) :
    Settles P s (finalState m s) := by
  have hs := hm s
  unfold finalState
  cases hr : m s with
  | ok a t =>
    rw [hr] at hs
    rw [hr, ends_ok] at h
    exact .inr (.inr ⟨frame_cfg hs, frame_fault hs, h⟩)
  | error e t =>
    rw [hr] at hs
    rw [hr, ends_error] at h
    rcases h with rfl | hB
    · obtain ⟨u, hu, e⟩ := hs
      exact .inl ⟨u, frame_cfg hu, frame_fault hu, e⟩
    · exact .inr (.inl hB)

/-- A called operation comes back to its caller (R33). -/
theorem ends_call_back {B : State → Prop} {Q : α → State → Prop} {o : OpName} {m : Op α} {s : State}
    (h : Ends B Q (call o m s)) : Ends B (fun a t => t.pc = s.pc ∧ t.stack = s.stack ∧ Q a t) (call o m s) := by
  cases hs : call o m s with
  | ok a t =>
    rw [hs, ends_ok] at h
    rw [ends_ok]
    exact ⟨(call_returns hs).1, (call_returns hs).2, h⟩
  | error e t =>
    rw [hs, ends_error] at h
    rwa [ends_error]

/-! ### The host commands -/

/-- A host command but `BUS_RESET`: all it has to keep itself is the buffer and `LEN`. -/
theorem settles_command {o : OpName} {m : Op Unit} {s : State} (hm : Within (Frame commandParts) (call o m)) (ht : OnTime s)
    (h : Ends (HostFaulted s) (fun _ => Stored) (call o m s)) : Settles (fun _ => True) s (finalState (call o m) s) := by
  refine settles_of_ends hm (ends_mono (ends_within hm (ends_call_back h)) (fun _ h => h) ?_)
  rintro _ t ⟨hf, hpc, hst, hstored⟩
  exact ⟨hpc, hst, hf.2 .ie (by decide), hstored, onTime_of_frame hf (by decide) ht, trivial⟩

theorem settles_busReset {s : State} (hr : 1 ≤ s.cfg.tFbRetry) (hs : Stored s) :
    Settles (fun _ => True) s (finalState busResetCommandOp s) := by
  have hm : Within (Frame resetParts) busResetCommandOp := within_call frame_busResetOp
  have hreturns : Returns (fun _ t => OnTime t) (busResetCommandOp s) := by
    simp only [busResetCommandOp, ends_call]
    exact ends_of_returns (returns_busResetOp (by exact hr)) fun _ _ ht => ht
  refine settles_of_ends hm (ends_of_returns (ends_within hm (ends_call_back hreturns)) ?_)
  rintro _ t ⟨hf, hpc, hst, htime⟩
  have hstored : Stored t := stored_of_eq hs (hf.2 .buf (by decide)) (hf.2 .req (by decide)) (hf.2 .len (by decide)) (frame_cfg hf)
  exact ⟨hpc, hst, hf.2 .ie (by decide), hstored, htime, trivial⟩

/-- Every well-formed host command settles. -/
theorem exec_command_settles {i : Instr} {s t : State} (hi : i.legal) (hc : legalParams s.cfg) (hs : Stored s) (ht : OnTime s)
    (h : exec i s = .next t) : Settles (fun _ => True) s t := by
  obtain ⟨hwf, hcmd⟩ := hi
  obtain ⟨-, -, hpoll, hretry, -⟩ := hc
  cases i with
  | requestRead n =>
    cases h
    exact settles_command (frame_requestReadOp n) ht (ends_requestReadOp hs n)
  | collectRead n =>
    cases h
    exact settles_command (frame_collectReadOp n) ht (ends_collectReadOp hs n)
  | submitWrite n block =>
    cases h
    exact settles_command (frame_submitWriteOp n block) ht (ends_submitWriteOp hs (by simpa [Instr.wellFormed] using hwf))
  | submitAsync a k n payload =>
    cases h
    exact settles_command (frame_submitAsyncOp a k n payload) ht
      (ends_submitAsyncOp hs a k (by simpa [Instr.wellFormed] using hwf))
  | queryResult =>
    cases h
    exact settles_command frame_queryResultOp ht (ends_queryResultOp hs)
  | logicalWait sel state =>
    cases h
    exact settles_command (frame_logicalWaitOp sel state) ht (ends_logicalWaitOp hs hpoll sel state)
  | logicalPoll =>
    cases h
    exact settles_command frame_logicalPollOp ht (ends_logicalPollOp hs)
  | setRelease a r =>
    cases h
    exact settles_command (frame_setReleaseOp a r) ht (ends_setReleaseOp hs a r)
  | busReset =>
    cases h
    exact settles_busReset hretry hs
  | _ => cases hcmd

/-! ### The dispatches -/

/-- A dispatch comes back to the main loop (R33). -/
theorem ends_dispatch_back {B : State → Prop} {Q : Unit → State → Prop} {r : ReqState} {o : OpName} {m : Op Unit} {s : State}
    (h : Ends B Q (whenReq r (call o m) s)) :
    Ends B (fun a t => t.pc = s.pc ∧ t.stack = s.stack ∧ Q a t) (whenReq r (call o m) s) := by
  by_cases hr : s.req = r
  · have hrun : whenReq r (call o m) s = call o m s := if_pos hr
    rw [hrun] at h ⊢
    exact ends_call_back h
  · have hrun : whenReq r (call o m) s = .ok () s := if_neg hr
    rw [hrun, ends_ok] at h ⊢
    exact ⟨rfl, rfl, h⟩

/-- A dispatch of a write settles in `RESULT` (R191, R192). -/
theorem settles_dispatchWrite {r : ReqState} {o : OpName} {m : Op Unit} {s : State}
    (hm : Within (Frame dispatchWriteParts) (whenReq r (call o m))) (hreq : s.req = r) (hs : Stored s) (ht : OnTime s)
    (h : Ends (fun t => ¬True ∧ FlagsKept s t) (fun _ t => FlagsKept s t ∧ (s.req = r → t.req = .result)) (whenReq r (call o m) s)) :
    Settles (fun t => reqSettled t.req = true) s (finalState (whenReq r (call o m)) s) := by
  refine settles_of_ends hm (ends_mono (ends_within hm (ends_dispatch_back h)) (fun _ hB => absurd trivial hB.1) ?_)
  rintro _ t ⟨hf, hpc, hst, ⟨hie, -⟩, hresult⟩
  have hlen : t.len.toNat ≤ t.cfg.bufCap := by
    rw [hf.2 .len (by decide), frame_cfg hf]
    exact lengthFits_le hs.2
  have hstored : Stored t := ⟨bufferSound_of_eq hs.1 (hf.2 .buf (by decide)) (frame_cfg hf),
    lengthFits_of_le hlen (by simp [hresult hreq]) (by simp [hresult hreq])⟩
  exact ⟨hpc, hst, hie, hstored, onTime_of_frame hf (by decide) ht, by simp [hresult hreq, reqSettled]⟩

/-- A dispatch of a read settles in `READ_DONE` (R193). -/
theorem settles_dispatchRead {s : State} (hreq : s.req = .read) (hs : Stored s) (ht : OnTime s) :
    Settles (fun t => reqSettled t.req = true) s (finalState dispatchReadOp s) := by
  have hlen : 1 ≤ s.len.toNat ∧ s.len.toNat ≤ s.cfg.bufCap := by simpa [lengthFits, hreq] using hs.2
  have h := ends_dispatch_back (ends_dispatchReadOp (G := True) (s := s) fun _ _ => ⟨hlen.1, hlen.2, hs.1, ht⟩)
  refine settles_of_ends frame_dispatchReadOp (ends_mono h (fun _ hB => absurd trivial hB.1) ?_)
  rintro _ t ⟨hpc, hst, hie, hread⟩
  obtain ⟨hstored, htime, hdone⟩ := hread trivial hreq
  exact ⟨hpc, hst, hie, hstored, htime, by simp [hdone, reqSettled]⟩

/-- Every dispatch settles, with no request armed (R40, R191 to R194). -/
theorem exec_dispatch_settles {s t : State} (hc : legalParams s.cfg) (hs : Stored s) (ht : OnTime s)
    (h : exec (dispatchInstr s.req) s = .next t) : Settles (fun t => reqSettled t.req = true) s t := by
  obtain ⟨-, -, hpoll, -⟩ := hc
  have idle : reqSettled s.req = true → exec .dispatchNone s = .next t → Settles (fun t => reqSettled t.req = true) s t := by
    intro hreq h
    cases h
    exact .inr (.inr ⟨rfl, rfl, rfl, rfl, rfl, hs, ht, hreq⟩)
  cases hreq : s.req with
  | idle | readDone | result =>
    rw [hreq] at h
    exact idle (by rw [hreq]; rfl) h
  | write =>
    rw [hreq] at h
    cases h
    exact settles_dispatchWrite frame_dispatchWriteOp hreq hs ht (ends_dispatchWriteOp fun _ => ⟨hpoll, fun _ => lengthFits_le hs.2⟩)
  | async =>
    rw [hreq] at h
    cases h
    have hfit : s.len.toNat + 2 ≤ s.cfg.bufCap := by simpa [lengthFits, hreq] using hs.2
    exact settles_dispatchWrite frame_dispatchAsyncOp hreq hs ht (ends_dispatchAsyncOp fun _ => ⟨hpoll, fun _ => hfit⟩)
  | read =>
    rw [hreq] at h
    cases h
    exact settles_dispatchRead hreq hs ht

/-! ### The step -/

/-- Where the main loop looks for a frame, the engine is ready and no request is armed (R40, R197 line 1). -/
theorem readyAt_of_polled {s u : State} (h : machineInvariant s) (hf : s.fault = none) (hu : Polled s u) :
    ReadyAt 1 u ∧ reqSettled u.req = true := by
  obtain ⟨hc, hbuf, hlen, -, hrest, -⟩ := h
  obtain ⟨hst, hie, hloc⟩ := hrest hf
  rcases hu with ⟨hpc, rfl⟩ | ⟨hpc, -⟩
  · have hreq : reqSettled s.req = true := hloc.elim (·.2) fun h => nomatch hpc.symm.trans h
    have hstored : Stored (kicked (deliver s)) := stored_of_eq ⟨hbuf, hlen⟩ (by simp) (by simp) (by simp) (by simp)
    exact ⟨⟨by simpa using hc, hstored, Nat.le_refl _, by simpa using hf, by simpa using hst, by simpa using hie,
      by simpa using hpc⟩, by simpa using hreq⟩
  · rcases hloc with ⟨h, -⟩ | h <;> rcases hpc with hpc | hpc <;> cases hpc.symm.trans h

theorem readyAt_dispatch {s : State} (h : machineInvariant s) (hf : s.fault = none) (hpc : s.pc = mainAt 5) : ReadyAt 5 s := by
  obtain ⟨hc, hbuf, hlen, htime, hrest, -⟩ := h
  obtain ⟨hst, hie, -⟩ := hrest hf
  exact ⟨hc, ⟨hbuf, hlen⟩, htime, hf, hst, hie, hpc⟩

/-- The main loop moves on inside itself, and may take a frame from `HIN`. -/
theorem readyAt_moved {j : Nat} {s : State} (h : ReadyAt j s) (k : Nat) (rest : List Byte) :
    ReadyAt k { s with hin := rest, pc := mainAt k } := by
  obtain ⟨hc, hstored, htime, hf, hst, hie, -⟩ := h
  exact ⟨hc, hstored, htime, hf, hst, hie, rfl⟩

/-- An idle pass ends at line 1 with no request armed, or with a watchdog reset (R197 line 2). -/
theorem machineInvariant_idlePass {u : State} (h : ReadyAt 1 u) (hreq : reqSettled u.req = true) : machineInvariant (idlePass u) := by
  have hready : ReadyAt 2 { u with pc := mainAt 2 } := readyAt_moved h 2 u.hin
  obtain ⟨-, hstored, htime, -⟩ := h
  refine machineInvariant_resume (P := fun t => reqSettled t.req = true) (by decide) hready ?_ (.inr ⟨rfl, fun _ h => h⟩)
  refine settles_of_ends (frame_delay (may := waitParts) _ (by decide)) (ends_delay fun n i k hn => ?_)
  exact ⟨rfl, rfl, rfl, hstored, htime.trans hn, hreq⟩

/-- Every step keeps the invariant (R40). -/
theorem machineInvariant_step {s t : State} (h : machineInvariant s) (hstep : step s = .next t) : machineInvariant t := by
  obtain ⟨hf, hcase⟩ := step_cases hstep
  cases hcase with
  | watchdog _ e =>
    obtain ⟨hc, -⟩ := h
    exact e ▸ machineInvariant_watchdogReset hc hf
  | idle u hu e =>
    obtain ⟨hready, hreq⟩ := readyAt_of_polled h hf hu
    exact e ▸ machineInvariant_idlePass hready hreq
  | reserved u hu e =>
    obtain ⟨hready, -⟩ := readyAt_of_polled h hf hu
    exact e ▸ machineInvariant_of_hostFaulted hready ⟨.invalidCommand, mainAt 3, u.stack, rfl, rfl⟩
  | command u v i rest hu hi hrun e =>
    obtain ⟨hready, -⟩ := readyAt_of_polled h hf hu
    have hready4 := readyAt_moved hready 4 rest
    have ⟨hc, hstored, htime, _⟩ := hready4
    exact e ▸ machineInvariant_resume (by decide) hready4 (exec_command_settles hi hc hstored htime hrun) (.inl rfl)
  | dispatch v hpc hrun e =>
    have hready := readyAt_dispatch h hf hpc
    have ⟨hc, hstored, htime, _⟩ := hready
    exact e ▸ machineInvariant_resume (by decide) hready (exec_dispatch_settles hc hstored htime hrun) (.inr ⟨rfl, fun _ h => h⟩)
  | again hpc _ =>
    obtain ⟨-, -, -, -, hrest, -⟩ := h
    obtain ⟨-, -, ⟨hpc', -⟩ | hpc'⟩ := hrest hf
    · cases hpc.symm.trans hpc'
    · cases hpc.symm.trans hpc'

end Sys2Proof.Machine
end

section
open Sys2Proof Sys2Proof.Machine

/-- Settles O57, by the cases of a step: every run from the main loop comes back there sound, or is stopped by a fault of the
host's, or is reset. -/
theorem stepKeepsTheInvariant : Obligations.StepKeepsTheInvariant := fun _ _ h hstep => machineInvariant_step h hstep
end

section
/-! PROOFS. The decoder takes exactly what the encoder makes (R88, R89), and refuses exactly the reserved opcodes (R92). -/

namespace Sys2Proof

/-! ### A tail of announced length -/

theorem splitBytes_eq_append {n : Nat} {bs front rest : List Byte} (h : splitBytes n bs = some (front, rest)) : bs = front ++ rest := by
  induction n generalizing bs front rest with
  | zero =>
    cases h
    rfl
  | succ n ih =>
    cases bs with
    | nil => cases h
    | cons b bs =>
      simp only [splitBytes] at h
      split at h
      · rename_i hs
        cases h
        rw [ih hs, List.cons_append]
      · cases h

theorem splitBytes_append (front rest : List Byte) : splitBytes front.length (front ++ rest) = some (front, rest) := by
  induction front with
  | nil => rfl
  | cons b front ih => simp [splitBytes, ih]

theorem decodeTail_eq_frame {mk : List Byte → Instr} {n : Byte} {bs rest : List Byte} {i : Instr}
    (h : decodeTail mk n bs = .frame i rest) : ∃ block, i = mk block ∧ bs = block ++ rest := by
  unfold decodeTail at h
  split at h
  · cases h
    exact ⟨_, rfl, splitBytes_eq_append ‹_›⟩
  · cases h

theorem decodeTail_append {n : Byte} {block : List Byte} (hlen : block.length = n.toNat) (mk : List Byte → Instr)
    (rest : List Byte) : decodeTail mk n (block ++ rest) = .frame (mk block) rest := by
  rw [decodeTail, ← hlen, splitBytes_append]

theorem decodeTail_ne_reserved (mk : List Byte → Instr) (n : Byte) (bs : List Byte) (r : Byte) :
    decodeTail mk n bs ≠ .reserved r := by
  unfold decodeTail
  split <;> nofun

/-! ### Whole frames -/

/-- The bytes of a well-formed command decode to it, and what follows them is left (R88, R89, R93). -/
theorem decode_encode_append {i : Instr} {bs : List Byte} (hwf : i.wellFormed = true) (h : encode i = some bs) (rest : List Byte) :
    decode (bs ++ rest) = .frame i rest := by
  cases i with
  | submitWrite n block =>
    cases h
    exact decodeTail_append (by simpa [Instr.wellFormed] using hwf) (.submitWrite n) rest
  | submitAsync a t n payload =>
    cases h
    exact decodeTail_append (by simpa [Instr.wellFormed] using hwf) (.submitAsync a t n) rest
  | requestRead | collectRead | queryResult | logicalWait | logicalPoll | setRelease | busReset =>
    cases h
    rfl
  | sendByte | receiveByte | write | read | reset | dispatchWrite | dispatchAsync | dispatchRead | dispatchNone => cases h

/-- What the decoder takes is the encoding of the command it answers (R88, R89). -/
theorem decode_eq_encode_append {q rest : List Byte} {i : Instr} (h : decode q = .frame i rest) :
    ∃ bs, encode i = some bs ∧ q = bs ++ rest := by
  cases q with
  | nil => cases h
  | cons op q =>
    simp only [decode, decodeOperands] at h
    split at h <;> rename_i hop
    case h_1 | h_2 =>
      cases q <;> cases h
      exact ⟨_, rfl, congrArg (· :: _) (BitVec.eq_of_toNat_eq hop)⟩
    case h_3 =>
      cases q with
      | nil => cases h
      | cons n q =>
        obtain ⟨block, rfl, rfl⟩ := decodeTail_eq_frame h
        exact ⟨_, rfl, congrArg (· :: _) (BitVec.eq_of_toNat_eq hop)⟩
    case h_4 =>
      match q, h with
      | a :: t :: n :: q, h =>
        obtain ⟨payload, rfl, rfl⟩ := decodeTail_eq_frame h
        exact ⟨_, rfl, congrArg (· :: _) (BitVec.eq_of_toNat_eq hop)⟩
    case h_5 | h_7 | h_9 =>
      cases h
      exact ⟨_, rfl, congrArg (· :: _) (BitVec.eq_of_toNat_eq hop)⟩
    case h_6 | h_8 =>
      match q, h with
      | a :: b :: q, h =>
        cases h
        exact ⟨_, rfl, congrArg (· :: _) (BitVec.eq_of_toNat_eq hop)⟩
    case h_10 => cases h

/-! ### Reserved opcodes -/

/-- 0x00 and 0x0A to 0xFF are reserved, whatever follows them (R89). -/
theorem decodeOperands_reserved {op : Byte} (h : op.toNat = 0 ∨ 10 ≤ op.toNat) (rest : List Byte) :
    decodeOperands op rest = .reserved op := by
  unfold decodeOperands
  split
  case h_10 => rfl
  all_goals omega

/-- No other opcode is refused: its operands are there or not (R92). -/
theorem decodeOperands_ne_reserved {op : Byte} (h : 1 ≤ op.toNat ∧ op.toNat < 10) (rest : List Byte) (r : Byte) :
    decodeOperands op rest ≠ .reserved r := by
  unfold decodeOperands
  split
  case h_1 | h_2 => cases rest <;> nofun
  case h_3 =>
    cases rest with
    | nil => nofun
    | cons n rest => exact decodeTail_ne_reserved _ n rest r
  case h_4 =>
    match rest with
    | [] | [_] | [_, _] => nofun
    | a :: t :: n :: rest => exact decodeTail_ne_reserved _ n rest r
  case h_5 | h_7 | h_9 => nofun
  case h_6 | h_8 =>
    match rest with
    | [] | [_] | _ :: _ :: _ => nofun
  case h_10 =>
    simp only [imp_false] at *
    omega

theorem decode_eq_reserved_iff (op r : Byte) (rest : List Byte) :
    decode (op :: rest) = .reserved r ↔ r = op ∧ (op.toNat = 0 ∨ 10 ≤ op.toNat) := by
  rw [decode]
  by_cases h : op.toNat = 0 ∨ 10 ≤ op.toNat
  · simp only [decodeOperands_reserved h, Decoded.reserved.injEq, h, and_true]
    exact eq_comm
  · simp [decodeOperands_ne_reserved (by omega : 1 ≤ op.toNat ∧ op.toNat < 10), h]

end Sys2Proof
end

section
/-! PROOFS. The step at line 1 of the main loop where no command is there (R92, R197), and `QUERY_RESULT` (R217). -/

namespace Sys2Proof.Machine

/-- At line 1 an engine that is neither faulted nor expired kicks the watchdog and looks for a frame (R197). -/
theorem step_at_line1 {s : State} (hf : s.fault = none) (hw : wdtExpired s = false) (hpc : s.pc = mainAt 1) :
    step s = takeFrame (kicked (deliver s)) := by
  simp [step, stepOnce, hf, hw, engineStep, hpc, mainAt, mainLine, commandPass]

theorem takeFrame_reserved {s : State} {op : Byte} (h : decode s.hin = .reserved op) :
    takeFrame s = .next { s with fault := some .invalidCommand, pc := mainAt 3 } := by
  simp only [takeFrame, h]

theorem takeFrame_incomplete {s : State} (h : decode s.hin = .incomplete) : takeFrame s = .next (idlePass s) := by
  simp only [takeFrame, h]

/-- An idle pass that no interrupt lengthens and no watchdog ends takes `T_POLL` and is back at line 1 (R197 line 2). -/
theorem idlePass_quiet {s : State} (hf : s.fault = none) (hq : quietFor 1 s) (hd : s.now + s.cfg.tPoll ≤ deadline s) :
    idlePass s = { passed 1 s.cfg.tPoll s with pc := mainAt 1 } := by
  have hrun : delay s.cfg.tPoll { s with pc := mainAt 2 } = .ok () (passed 1 s.cfg.tPoll { s with pc := mainAt 2 }) :=
    run_delay_quiet hq hd
  rw [idlePass, finalState_ok hrun]
  exact if_pos ⟨hf, rfl⟩

/-- The state `QUERY_RESULT` leaves: the answer, and in `RESULT` the collection of the outcome (R217). -/
def queried (s : State) : State :=
  let u := { s with hout := s.hout ++ [[reqCode s.req, s.result]] }
  if s.req = .result then { u with collected := true, req := if s.cfg.queryClears = true then .idle else .result } else u

theorem run_queryResultOp (s : State) : queryResultOp s = .ok () (queried s) := by
  by_cases hreq : s.req = .result
  · cases hc : s.cfg.queryClears <;>
      simp [queryResultOp, run_call, run_bind, setCollected, setReq, queried, hreq, hc]
  · simp [queryResultOp, run_call, run_bind, queried, hreq]

theorem exec_queryResult (s : State) : exec .queryResult s = .next (queried s) :=
  (answer_eq_next queryResultOp s _).mpr (finalState_ok (run_queryResultOp s))

theorem queried_hout (s : State) : (queried s).hout = s.hout ++ [[reqCode s.req, s.result]] := by
  unfold queried
  split <;> rfl

end Sys2Proof.Machine
end

section
open Sys2Proof Sys2Proof.Machine

/-- Settles O1, by the command's format. -/
theorem decodeOfEncode : Obligations.DecodeOfEncode := fun _ _ rest hwf h => decode_encode_append hwf h rest

/-- Settles O2, by the opcode. -/
theorem decodeTakesExactlyOneFrame : Obligations.DecodeTakesExactlyOneFrame := by
  intro q rest i h
  obtain ⟨hwf, hcommand⟩ := decode_legal h
  exact ⟨hwf, hcommand, decode_eq_encode_append h⟩

/-- Settles O3: opcodes 1 to 9 take operands, every other opcode is reserved. -/
theorem reservedOpcodesAreRefused : Obligations.ReservedOpcodesAreRefused := by
  intro op r rest
  have hzero : op = 0x00 ↔ op.toNat = 0 := BitVec.toNat_inj.symm
  rw [hzero]
  exact decode_eq_reserved_iff op r rest

/-- Settles O4: the decoder run on the eight frames. -/
theorem specFramesDecode : Obligations.SpecFramesDecode := by
  unfold Obligations.SpecFramesDecode
  decide

/-- Settles O7: line 1 kicks the watchdog and line 3 raises the fault. -/
theorem reservedOpcodeFaults : Obligations.ReservedOpcodeFaults := by
  intro s op hf hw hpc hd
  rw [step_at_line1 hf hw hpc]
  exact takeFrame_reserved (s := kicked (deliver s)) hd

/-- Settles O8: the kick of line 1 leaves the poll interval within the watchdog's time, so the idle pass is a plain delay. -/
theorem incompleteFrameWaits : Obligations.IncompleteFrameWaits := by
  intro s hf hw hpc hd hq hpoll
  have hidle : idlePass (kicked (deliver s)) = { passed 1 s.cfg.tPoll (kicked (deliver s)) with pc := mainAt 1 } := by
    have hq' : quietFor 1 (kicked (deliver s)) := by simpa [quietFor] using hq
    have hnow : (kicked (deliver s)).now + (kicked (deliver s)).cfg.tPoll ≤ deadline (kicked (deliver s)) := by
      simpa [deadline] using hpoll
    simpa using idlePass_quiet (s := kicked (deliver s)) (by simpa using hf) hq' hnow
  refine ⟨_, (step_at_line1 hf hw hpc).trans (takeFrame_incomplete (s := kicked (deliver s)) hd), ?_⟩
  rw [hidle]
  simp [passed, sameRequest, sameBuffer, peek, hf]

/-- Settles O18: the codes are the table's, and `QUERY_RESULT` answers the code before the result. -/
theorem requestStateCodes : Obligations.RequestStateCodes := by
  refine ⟨?_, fun s => ⟨queried s, s.result, exec_queryResult s, queried_hout s⟩, rfl, rfl, rfl, rfl, rfl, rfl⟩
  intro r
  cases r <;> decide
end

section
/-! PROOFS. What an instruction that no watchdog reset ends leaves unchanged, read off its frame. -/

namespace Sys2Proof.Machine

variable {s t : State}

/-- Where no watchdog reset has happened, an instruction has kept the parameters, the bus input and every part outside its frame,
also where a fault is raised; and time has not gone back. -/
theorem exec_keeps_parts {i : Instr} (h : exec i s = .next t) (hr : t.resets = s.resets) :
    sameWorld s t ∧ s.now ≤ t.now ∧ ∀ p, p ∉ mayChange i → samePart s t p := by
  obtain ⟨u, hu, rfl | ⟨k, rfl⟩ | rfl⟩ := exec_cases h
  · obtain ⟨⟨hcfg, hbus, -, -, hnow⟩, hparts⟩ := hu
    exact ⟨⟨hcfg, hbus⟩, hnow, hparts⟩
  · obtain ⟨⟨hcfg, hbus, -, -, hnow⟩, hparts⟩ := hu
    exact ⟨⟨hcfg, hbus⟩, hnow, fun p hp => by have := hparts p hp; cases p <;> exact this⟩
  · rw [watchdogReset_resets, frame_resets hu] at hr
    omega

/-- The buffer reads as before where neither its bytes nor its unspecified contents have changed. -/
theorem sameBuffer_of_parts (hbuf : samePart s t .buf) (hepoch : samePart s t .bufEpoch) : sameBuffer s t := by
  intro a
  simp only [samePart] at hbuf hepoch
  simp only [peek, hbuf, hepoch]

/-- A line is unchanged where its bit of `OUT` is. -/
theorem sameLine_of_bit {l : Line} (h : t.out.getLsbD (lineBit l) = s.out.getLsbD (lineBit l)) : sameLine s t l := by
  have key : ∀ a b : Lines, a.getLsbD (lineBit l) = b.getLsbD (lineBit l) → a &&& lineMask l = b &&& lineMask l := by
    cases l <;> decide
  exact key _ _ h

theorem sameRequest_of_parts (h : ∀ p ∈ [Part.len, .req, .result, .collected], samePart s t p) : sameRequest s t :=
  ⟨h .len (by decide), h .req (by decide), h .result (by decide), h .collected (by decide)⟩

theorem samePort_of_parts (h : ∀ p ∈ [Part.hin, .hout, .xfer, .host], samePart s t p) : samePort s t :=
  ⟨h .hin (by decide), h .hout (by decide), h .xfer (by decide), h .host (by decide)⟩

/-- What the bit level leaves unchanged beside the lines: all that `send_byte` and `receive_byte` do not write (R116, R119). -/
theorem bitLevel_keeps (hworld : sameWorld s t) (hnow : s.now ≤ t.now) (hparts : ∀ p, p ∉ sendParts → samePart s t p) :
    t.eoi = s.eoi ∧ sameBuffer s t ∧ sameRequest s t ∧ samePort s t ∧ sameWorld s t ∧ t.wdtLast = s.wdtLast ∧ t.idx = s.idx ∧
      t.cnt = s.cnt ∧ t.t0 = s.t0 ∧ t.trace = s.trace ∧ s.now ≤ t.now :=
  ⟨hparts .eoi (by decide), sameBuffer_of_parts (hparts .buf (by decide)) (hparts .bufEpoch (by decide)),
    sameRequest_of_parts fun p hp => hparts p (by revert p; decide), samePort_of_parts fun p hp => hparts p (by revert p; decide),
    hworld, hparts .wdtLast (by decide), hparts .idx (by decide), hparts .cnt (by decide), hparts .t0 (by decide),
    hparts .trace (by decide), hnow⟩

/-- Where no watchdog reset has happened, an operation that neither faults nor hangs has returned. -/
theorem ok_of_returns {α : Type} {may : List Part} {m : Op α} {Q : α → State → Prop} {s : State} (hm : Within (Frame may) m)
    (h : Returns Q (m s)) (hr : (finalState m s).resets = s.resets) : ∃ a, m s = .ok a (finalState m s) := by
  have hlands := hm s
  unfold finalState at hr ⊢
  cases hs : m s with
  | ok a t => exact ⟨a, rfl⟩
  | error e t =>
    rw [hs] at h hlands hr
    obtain rfl | hfalse := (ends_error ..).mp h
    · obtain ⟨u, hu, rfl⟩ := hlands
      simp only [watchdogReset_resets, frame_resets hu] at hr
      omega
    · exact hfalse.elim

end Sys2Proof.Machine
end

section
/-! PROOFS. `send_byte` and `receive_byte` on an undisturbed bus: exact results (R116, R117, R119). -/

namespace Sys2Proof.Machine

/-! ### `send_byte` -/

/-- The line writes of one undisturbed bit: DATA for a 0, the release of CLOCK, the end of the window (R116 lines 5, 6, 8). -/
def bitWrites (s : State) (bit : Bool) : List LineWrite :=
  (if bit then [] else [⟨s.now + s.cfg.tBitSetup, ⟨s.pc.op, 5⟩, s.out ||| lineMask .data⟩]) ++
    [⟨s.now + s.cfg.tBitSetup, ⟨s.pc.op, 6⟩, bitOut s.out bit⟩,
      ⟨s.now + s.cfg.tBitSetup + s.cfg.tBitHold, ⟨s.pc.op, 8⟩, bitDone s.out⟩]

/-- However the bit has driven DATA, its end leaves CLOCK asserted and DATA released (R116 line 8). -/
theorem bitDone_bitOut (o : Lines) (bit : Bool) : (bitOut o bit ||| lineMask .clock) &&& ~~~lineMask .data = bitDone o := by
  revert o bit; decide

/-- One undisturbed bit of `send_byte` takes setup and hold, and leaves CLOCK asserted, DATA released, the register shifted. -/
theorem run_sendBit_quiet {s : State} {v : Byte} (hv : s.sr = some v) (hq : quietFor 2 s)
    (hd : s.now + (s.cfg.tBitSetup + s.cfg.tBitHold) ≤ deadline s) :
    sendBit s = .ok () { passed 2 (s.cfg.tBitSetup + s.cfg.tBitHold) s with
      out := bitDone s.out, lineLog := s.lineLog ++ bitWrites s (v.getLsbD 0), sr := some (v >>> 1), pc := ⟨s.pc.op, 9⟩ } := by
  simp only [sendBit, run_bind, run_line, run_get]
  rw [run_delay_quiet]
  · simp only [passed, readReg, hv, run_driveBit, run_releaseLines]
    rw [run_delay_quiet]
    · simpa [passed, readReg, hv, bitWrites, bitOut, Nat.add_assoc] using bitDone_bitOut s.out (v.getLsbD 0)
    · exact quietFor_passed (j := 1) hq 0
    · rw [← Nat.add_assoc] at hd
      exact hd
  · exact quietFor_mono (by omega) hq
  · exact Nat.le_trans (Nat.add_le_add_left (Nat.le_add_right _ _) _) hd

theorem bitDone_bitDone (o : Lines) : bitDone (bitDone o) = bitDone o := by
  revert o; decide

/-- The state after the undisturbed bit `b` of `send_byte`, whose byte has been shifted to `v`. -/
def afterBit (b : Nat) (v : Byte) (s : State) : State :=
  { passed 2 (s.cfg.tBitSetup + s.cfg.tBitHold) s with
    out := bitDone s.out
    lineLog := s.lineLog ++ bitWrites s (v.getLsbD 0)
    sr := some (v >>> 1)
    bitn := some b
    pc := ⟨s.pc.op, 9⟩ }

/-- Undisturbed, the loop of `send_byte` goes on to the next bit (R116 lines 3 to 9). -/
theorem run_sendBits_succ {n b : Nat} {s : State} {v : Byte} (hv : s.sr = some v) (hq : quietFor 2 s)
    (hd : s.now + (s.cfg.tBitSetup + s.cfg.tBitHold) ≤ deadline s) :
    sendBits (n + 1) b s = sendBits n (b + 1) (afterBit b v s) := by
  have hbit := run_sendBit_quiet (s := { s with pc := ⟨s.pc.op, 3⟩, bitn := some b }) hv hq hd
  simp only [sendBits, run_bind, run_line, run_setBitn, hbit]
  rfl

/-- Undisturbed, the bits of `send_byte` from the first on take setup and hold each, and leave CLOCK asserted and DATA released. -/
theorem run_sendBits_quiet {n b : Nat} {s : State} {v : Byte} (hv : s.sr = some v) (hq : quietFor (2 * (n + 1)) s)
    (hd : s.now + (n + 1) * (s.cfg.tBitSetup + s.cfg.tBitHold) ≤ deadline s) :
    ∃ log, sendBits (n + 1) b s = .ok () { passed (2 * (n + 1)) ((n + 1) * (s.cfg.tBitSetup + s.cfg.tBitHold)) s with
      out := bitDone s.out, lineLog := log, sr := some (v >>> (n + 1)), bitn := some (b + (n + 1)), pc := ⟨s.pc.op, 9⟩ } := by
  have htime : ∀ n d : Nat, (n + 1) * d = d + n * d := fun n d => by rw [Nat.succ_mul, Nat.add_comm]
  induction n generalizing s v b with
  | zero =>
    rw [run_sendBits_succ hv hq (by simpa using hd)]
    exact ⟨_, by simp [sendBits, afterBit]; rfl⟩
  | succ n ih =>
    rw [htime, ← Nat.add_assoc] at hd
    obtain ⟨log, hlog⟩ := ih (b := b + 1) (s := afterBit b v s) rfl
      (quietFor_passed (j := 2) (by rwa [Nat.mul_succ, Nat.add_comm] at hq) 0) hd
    have hbitn : b + 1 + (n + 1) = b + (n + 1 + 1) := by omega
    have hdelays : 2 + 2 * (n + 1) = 2 * (n + 1 + 1) := by omega
    have hshift : v >>> 1 >>> (n + 1) = v >>> (n + 1 + 1) := by rw [← BitVec.shiftRight_add, Nat.add_comm]
    refine ⟨log, ?_⟩
    rw [run_sendBits_succ hv (quietFor_mono (by omega) hq) (Nat.le_of_add_right_le hd), hlog, hshift, hbitn, htime (n + 1), ← hdelays]
    simp [afterBit, passed, bitDone_bitDone, Nat.add_assoc]

/-- The state in which an undisturbed `send_byte` called from `s` waits for the acknowledgement (R116 line 11). -/
def awaitingAck (s : State) (log : List LineWrite) : State :=
  { passed 16 (bitsTime s.cfg) s with
    out := bitDone s.out
    lineLog := log
    sr := some 0
    bitn := some 8
    ieSaved := s.ie
    pc := ⟨.sendByte, 11⟩
    stack := s.pc :: s.stack }

/-- An undisturbed `send_byte` answers what its wait for the acknowledgement answers (R116). -/
theorem run_sendByte_quiet {s : State} (v : Byte) (hq : quietFor 16 s) (hd : s.now + bitsTime s.cfg ≤ deadline s) :
    ∃ log, ∀ b t, waitUntil (asserted .data) s.cfg.tAck (awaitingAck s log) = .ok b t →
      sendByte v s = .ok b { t with ok := some b, pc := s.pc, stack := s.stack } := by
  obtain ⟨log, hbits⟩ := run_sendBits_quiet (n := 7) (b := 0) (v := v)
    (s := { s with sr := some v, ieSaved := s.ie, ie := false, pc := ⟨.sendByte, 2⟩, stack := s.pc :: s.stack }) rfl hq hd
  refine ⟨log, fun b t hw => ?_⟩
  have hempty : v >>> 8 = 0 := BitVec.ushiftRight_eq_zero (Nat.le_refl 8)
  rw [hempty] at hbits
  simp only [awaitingAck, passed, bitsTime] at hw
  simp only [sendByte, run_call, run_bind, run_setSr, run_line, enterAtomic, hbits, exitAtomic, run_get, passed,
    Nat.reduceAdd, Nat.reduceMul, hw, run_setOk, readReg]

/-- The state an undisturbed `send_byte` from `s` leaves when it returns `b` after `j` polls of the acknowledgement (R116). -/
def sentByte (s : State) (log : List LineWrite) (j : Nat) (b : Bool) : State :=
  { passed (16 + j) (bitsTime s.cfg + j * s.cfg.tPoll) s with
    out := bitDone s.out, lineLog := log, sr := some 0, bitn := some 8, ok := some b, ieSaved := s.ie }

theorem sentByte_of_passed (s : State) (log : List LineWrite) (j : Nat) (b : Bool) :
    { passed j (j * s.cfg.tPoll) (awaitingAck s log) with ok := some b, pc := s.pc, stack := s.stack } = sentByte s log j b := by
  simp [awaitingAck, sentByte, passed, Nat.add_assoc]

theorem returned_sentByte (s : State) (log : List LineWrite) (j : Nat) (b : Bool) : returned s (sentByte s log j b) :=
  ⟨rfl, rfl, rfl, rfl⟩

/-- A listener that holds DATA when the bits end acknowledges at the first sample (R116). -/
theorem run_sendByte_acknowledged {s : State} (v : Byte) (hq : quietFor 16 s) (hd : s.now + bitsTime s.cfg ≤ deadline s)
    (hack : pulled s .data (s.now + bitsTime s.cfg)) : ∃ log, sendByte v s = .ok true (sentByte s log 0 true) := by
  obtain ⟨log, hsend⟩ := run_sendByte_quiet v hq hd
  have hwait : waitUntil (asserted .data) s.cfg.tAck (awaitingAck s log) = .ok true (passed 0 (0 * s.cfg.tPoll) (awaitingAck s log)) :=
    run_waitUntil_hits (busOnly_asserted .data) 0 (one_le_sampleCount _ _) (quietFor_zero _) (by rw [Nat.zero_mul]; exact hd)
      nofun (by simpa using asserted_of_pulled (s := awaitingAck s log) hack)
  exact ⟨log, (hsend _ _ hwait).trans (congrArg _ (sentByte_of_passed ..))⟩

/-- CLOCK asserted and DATA released, the engine does not pull DATA. -/
theorem bitDone_releases_data (o : Lines) : bitDone o &&& lineMask .data = 0 := by
  revert o; decide

/-- A line nobody pulls is not asserted. -/
theorem asserted_of_floats {s : State} {l : Line} (h : floats s l s.now) (ho : s.out &&& lineMask l = 0) :
    asserted l s = false := by
  simpa [released] using released_of_floats h ho

/-- Where no device pulls DATA at any sample of the acknowledgement window, the whole window passes (R111, R116). -/
theorem run_sendByte_nak {s : State} (v : Byte) (hq : quietFor (16 + sampleCount s.cfg.tAck s.cfg.tPoll) s)
    (hd : s.now + bitsTime s.cfg + sampleCount s.cfg.tAck s.cfg.tPoll * s.cfg.tPoll ≤ deadline s)
    (hno : ∀ i, i < sampleCount s.cfg.tAck s.cfg.tPoll → floats s .data (s.now + bitsTime s.cfg + i * s.cfg.tPoll)) :
    ∃ log, sendByte v s = .ok false (sentByte s log (sampleCount s.cfg.tAck s.cfg.tPoll) false) := by
  obtain ⟨log, hsend⟩ := run_sendByte_quiet v (quietFor_mono (by omega) hq) (Nat.le_of_add_right_le hd)
  have hwait := run_waitUntil_misses (busOnly_asserted .data) (T := s.cfg.tAck) (s := awaitingAck s log)
    (quietFor_passed (j := 16) hq 0) hd fun i hi =>
      asserted_of_floats (s := { awaitingAck s log with now := s.now + bitsTime s.cfg + i * s.cfg.tPoll }) (hno i hi)
        (bitDone_releases_data s.out)
  exact ⟨log, (hsend _ _ hwait).trans (congrArg _ (sentByte_of_passed ..))⟩

/-! ### `receive_byte` -/

/-- The talker holds CLOCK at time `u`, releases it one poll later with the bit `x` on DATA, and holds it again after another. -/
def talksBit (s : State) (u : Nat) (x : Bool) : Prop :=
  pulled s .clock u ∧ floats s .clock (u + s.cfg.tPoll) ∧
  (if x then floats s .data (u + s.cfg.tPoll) else pulled s .data (u + s.cfg.tPoll)) ∧
  pulled s .clock (u + s.cfg.tPoll + s.cfg.tPoll)

/-- The bits of a talker that sends a byte: bit `i` starts two polls after the one before it. -/
theorem talksBit_of_talksByte {s : State} {u : Nat} {v : Byte} (h : talksByte s u v) {i : Nat} (hi : i < 8) :
    talksBit s (u + 2 * i * s.cfg.tPoll) (v.getLsbD i) := by
  obtain ⟨hstart, hbits⟩ := h
  have hodd : u + 2 * i * s.cfg.tPoll + s.cfg.tPoll = u + (2 * i + 1) * s.cfg.tPoll := by rw [Nat.succ_mul (2 * i), Nat.add_assoc]
  have heven : u + (2 * i + 1) * s.cfg.tPoll + s.cfg.tPoll = u + (2 * i + 2) * s.cfg.tPoll := by
    rw [Nat.succ_mul (2 * i + 1), Nat.add_assoc]
  obtain ⟨hrelease, hdata, htake⟩ := hbits i hi
  rw [talksBit, hodd, heven]
  refine ⟨?_, hrelease, hdata, htake⟩
  cases i with
  | zero => simpa using hstart
  | succ j =>
    obtain ⟨-, -, hheld⟩ := hbits j (by omega)
    exact hheld

/-- The engine holds neither DATA nor CLOCK. -/
theorem lines_not_held {s : State} (ho : s.out &&& (lineMask .data ||| lineMask .clock) = 0) :
    s.out &&& lineMask .data = 0 ∧ s.out &&& lineMask .clock = 0 := by
  have key : ∀ o : Lines, o &&& (lineMask .data ||| lineMask .clock) = 0 → o &&& lineMask .data = 0 ∧ o &&& lineMask .clock = 0 := by
    decide
  exact key _ ho

theorem not_released_of_pulled {s : State} {l : Line} (h : pulled s l s.now) : released l s = false := by
  simp [released, asserted_of_pulled h]

/-- What the engine samples of DATA is the talker's bit (R86). -/
theorem released_data_of_talksBit {s : State} {x : Bool} (ho : s.out &&& lineMask .data = 0)
    (h : if x then floats s .data s.now else pulled s .data s.now) : released .data s = x := by
  cases x with
  | true => exact released_of_floats h ho
  | false => exact not_released_of_pulled h

/-- An undisturbed wait whose condition is not met now but one poll later takes that poll (R111). -/
theorem run_waitUntil_second {c : State → Bool} (hc : BusOnly c) {T : Nat} {s : State} (hsamples : 2 ≤ sampleCount T s.cfg.tPoll)
    (hq : quietFor 1 s) (hd : s.now + s.cfg.tPoll ≤ deadline s) (hno : c s = false)
    (hyes : c { s with now := s.now + s.cfg.tPoll } = true) : waitUntil c T s = .ok true (passed 1 s.cfg.tPoll s) := by
  have h := run_waitUntil_hits hc 1 (s := s) hsamples hq (by rwa [Nat.one_mul])
    (fun i hi => by rw [← hno]; exact hc _ _ rfl rfl (by simp [Nat.lt_one_iff.mp hi])) (by rwa [Nat.one_mul])
  rwa [Nat.one_mul] at h

/-- The state after the undisturbed bit `b` of `receive_byte`, whose register held `w` before it and whose value is `x`. -/
def afterReceivedBit (b : Nat) (w : Byte) (x : Bool) (s : State) : State :=
  { passed 2 (s.cfg.tPoll + s.cfg.tPoll) s with sr := some (shiftIn w x), bitn := some b, ok := some true, pc := ⟨s.pc.op, 10⟩ }

/-- The loop of `receive_byte` takes one bit from the talker and goes on to the next (R119 lines 5 to 10). -/
theorem run_receiveBits_succ {n b : Nat} {s : State} {w : Byte} {x : Bool} (hw : s.sr = some w)
    (ho : s.out &&& (lineMask .data ||| lineMask .clock) = 0) (hsamples : 2 ≤ sampleCount s.cfg.tRxBit s.cfg.tPoll)
    (hq : quietFor 2 s) (hd : s.now + (s.cfg.tPoll + s.cfg.tPoll) ≤ deadline s) (htalk : talksBit s s.now x) :
    receiveBits (n + 1) b s = receiveBits n (b + 1) (afterReceivedBit b w x s) := by
  obtain ⟨hodata, hoclock⟩ := lines_not_held ho
  obtain ⟨hheld, hfree, hdata, hagain⟩ := htalk
  have hdSecond : s.now + s.cfg.tPoll + s.cfg.tPoll ≤ deadline s := by rwa [Nat.add_assoc]
  have hdFirst : s.now + s.cfg.tPoll ≤ deadline s := Nat.le_of_add_right_le hdSecond
  have hbit : ∀ u : State, u.out = s.out ∧ u.bus = s.bus ∧ u.now = s.now + s.cfg.tPoll → released .data u = x :=
    fun u ⟨hout, hbus, hnow⟩ =>
      (busOnly_released .data u { s with now := s.now + s.cfg.tPoll } hout hbus hnow).trans (released_data_of_talksBit hodata hdata)
  have hrise := run_waitUntil_second (busOnly_released .clock) (s := { s with pc := ⟨s.pc.op, 6⟩, sr := some w, bitn := some b })
    hsamples (quietFor_mono (by omega) hq) hdFirst (not_released_of_pulled hheld) (released_of_floats hfree hoclock)
  simp only [receiveBits, run_bind, run_line, run_setBitn, run_get, hrise, passed, run_setOk, run_setSr, readReg, hw, if_true]
  rw [hbit, run_waitUntil_second (busOnly_asserted .clock)]
  · simp [passed, afterReceivedBit, Nat.add_assoc]
  · exact hsamples
  · exact quietFor_passed (j := 1) hq 0
  · exact hdSecond
  · exact asserted_of_floats hfree hoclock
  · exact asserted_of_pulled hagain
  · exact ⟨rfl, rfl, rfl⟩

/-- The register after the bits of `v` from bit `b` on, `n` of them, have been shifted into it. -/
def shiftedIn (v : Byte) (n b : Nat) (w : Byte) : Byte := (List.range' b n).foldl (fun w i => shiftIn w (v.getLsbD i)) w

/-- Eight bits shifted in, bit 0 first, are the byte (R86). -/
theorem shiftedIn_eight (v : Byte) : shiftedIn v 8 0 0 = v := by
  revert v; decide

/-- Undisturbed, the bits of `receive_byte` from bit `b` of the talker's byte on take two polls each. -/
theorem run_receiveBits_quiet {n b : Nat} {s : State} {w v : Byte} (hw : s.sr = some w) (hok : s.ok = some true)
    (ho : s.out &&& (lineMask .data ||| lineMask .clock) = 0) (hsamples : 2 ≤ sampleCount s.cfg.tRxBit s.cfg.tPoll)
    (hq : quietFor (2 * n) s) (hd : s.now + 2 * n * s.cfg.tPoll ≤ deadline s)
    (htalk : ∀ i, i < n → talksBit s (s.now + 2 * i * s.cfg.tPoll) (v.getLsbD (b + i))) :
    ∃ l, receiveBits n b s = .ok () { passed (2 * n) (2 * n * s.cfg.tPoll) s with
      sr := some (shiftedIn v n b w), bitn := some (b + n), ok := some true, pc := ⟨s.pc.op, l⟩ } := by
  induction n generalizing s w b with
  | zero => exact ⟨s.pc.line, by simp [receiveBits, shiftedIn, hw, hok]⟩
  | succ n ih =>
    have htime : ∀ n, 2 * (n + 1) * s.cfg.tPoll = s.cfg.tPoll + s.cfg.tPoll + 2 * n * s.cfg.tPoll := fun n => by
      rw [Nat.mul_succ, Nat.add_mul, Nat.two_mul s.cfg.tPoll, Nat.add_comm]
    rw [htime, ← Nat.add_assoc] at hd
    have hnext : ∀ i, i < n → talksBit s (s.now + (s.cfg.tPoll + s.cfg.tPoll) + 2 * i * s.cfg.tPoll) (v.getLsbD (b + 1 + i)) := by
      intro i hi
      have h := htalk (i + 1) (by omega)
      rwa [htime, ← Nat.add_assoc, Nat.add_comm i, ← Nat.add_assoc b] at h
    obtain ⟨l, hl⟩ := ih (b := b + 1) (s := afterReceivedBit b w (v.getLsbD b) s) rfl rfl ho hsamples
      (quietFor_passed (j := 2) (by rwa [Nat.mul_succ, Nat.add_comm] at hq) 0) hd hnext
    have hbitn : b + 1 + n = b + (n + 1) := by omega
    have hdelays : 2 + 2 * n = 2 * (n + 1) := by omega
    refine ⟨l, ?_⟩
    rw [run_receiveBits_succ hw ho hsamples (quietFor_mono (by omega) hq) (Nat.le_of_add_right_le hd)
      (by simpa using htalk 0 (by omega)), hl, hbitn, htime, ← hdelays]
    simp [afterReceivedBit, passed, shiftedIn, List.range'_succ, Nat.add_assoc]

/-- The state an undisturbed `receive_byte` from `s` leaves when it returns the byte `v` of a talker (R119, R120). -/
def receivedByte (s : State) (v : Byte) : State :=
  { passed 16 (talkTime s.cfg) s with sr := some v, bitn := some 8, ok := some true, ieSaved := s.ie }

/-- `receive_byte` from a talker that sends `v`, changing CLOCK at every sample (R119, R86). -/
theorem run_receiveByte_quiet {s : State} {v : Byte} (ho : s.out &&& (lineMask .data ||| lineMask .clock) = 0) (hq : quietFor 16 s)
    (hsamples : 2 ≤ sampleCount s.cfg.tRxBit s.cfg.tPoll) (htalk : talksByte s s.now v) (hd : s.now + talkTime s.cfg ≤ deadline s) :
    receiveByte s = .ok (some v) (receivedByte s v) := by
  obtain ⟨l, hbits⟩ := run_receiveBits_quiet (n := 8) (b := 0) (w := 0) (v := v)
    (s := { s with sr := some 0, ok := some true, ieSaved := s.ie, ie := false, pc := ⟨.receiveByte, 4⟩, stack := s.pc :: s.stack })
    rfl rfl ho hsamples hq hd fun i hi => by rw [Nat.zero_add]; exact talksBit_of_talksByte htalk hi
  have ⟨hheld, _⟩ := htalk
  have hstart := run_waitUntil_hits (busOnly_asserted .clock) 0 (T := s.cfg.tRxStart)
    (s := { s with pc := ⟨.receiveByte, 1⟩, stack := s.pc :: s.stack }) (one_le_sampleCount _ _) (quietFor_zero _)
    (by rw [Nat.zero_mul]; exact Nat.le_of_add_right_le hd) nofun
    (asserted_of_pulled (by rw [Nat.zero_mul]; exact hheld))
  rw [shiftedIn_eight] at hbits
  rw [Nat.zero_mul, passed_zero] at hstart
  simp only [receiveByte, run_call, run_bind, run_get, hstart, run_setOk, run_line, readReg, if_true, run_setSr, enterAtomic, hbits,
    exitAtomic, run_pure, passed]
  rfl

end Sys2Proof.Machine
end

section
/-! PROOFS. What a `send_byte` that returns has put on the bus, whatever the interrupts and the devices do (R116, R86, R117). -/

namespace Sys2Proof.Machine

/-- The windows of the bits `bits`, the first set up from time `u` on with the lines at `o`: CLOCK released with the bit on DATA, then
CLOCK asserted with DATA released, each within `T_EPS` of its time (R86, R116, R117). -/
inductive Windows (c : Params) : Lines → Nat → List Bool → (starts ends : List LineWrite) → Prop
  | nil (o : Lines) (u : Nat) : Windows c o u [] [] []
  | cons {o : Lines} {u : Nat} {bit : Bool} {bits : List Bool} {first last : LineWrite} {starts ends : List LineWrite}
      (hfirst : first.out = bitOut o bit) (hlast : last.out = bitDone o)
      (hsetup : u + c.tBitSetup ≤ first.time ∧ first.time ≤ u + c.tBitSetup + c.tEps)
      (hhold : first.time + c.tBitHold ≤ last.time ∧ last.time ≤ first.time + c.tBitHold + c.tEps)
      (rest : Windows c (bitDone o) last.time bits starts ends) : Windows c o u (bit :: bits) (first :: starts) (last :: ends)

variable {c : Params} {o : Lines} {u : Nat} {bits : List Bool} {starts ends : List LineWrite}

/-- A bit leaves DATA released. -/
theorem bitDone_data (o : Lines) : (bitDone o).getLsbD 0 = false := by
  revert o; decide

/-- With DATA released before it, every bit is driven as the first is. -/
theorem bitOut_bitDone (h : o.getLsbD 0 = false) (bit : Bool) : bitOut (bitDone o) bit = bitOut o bit := by
  revert o bit; decide

theorem bitOut_clock (o : Lines) (bit : Bool) : (bitOut o bit).getLsbD 1 = false := by
  revert o bit; decide

/-- DATA is asserted in a window exactly for a 0 (R86). -/
theorem bitOut_data (h : o.getLsbD 0 = false) (bit : Bool) : (bitOut o bit).getLsbD 0 = !bit := by
  revert o bit; decide

theorem bitDone_lines (o : Lines) : bitDone o &&& (lineMask .data ||| lineMask .clock) = lineMask .clock := by
  revert o; decide

/-- What is read off the lines at the starts of the windows. -/
theorem windows_starts_out {β : Type} (f : Lines → β) (h : Windows c o u bits starts ends) (ho : o.getLsbD 0 = false) :
    starts.map (fun w => f w.out) = bits.map fun bit => f (bitOut o bit) := by
  induction h with
  | nil => rfl
  | cons hfirst _ _ _ _ ih =>
    rw [List.map_cons, List.map_cons, hfirst, ih (bitDone_data _)]
    simp only [bitOut_bitDone ho]

/-- What is read off the lines at the ends of the windows. -/
theorem windows_ends_out {β : Type} (f : Lines → β) (h : Windows c o u bits starts ends) :
    ends.map (fun w => f w.out) = List.replicate bits.length (f (bitDone o)) := by
  induction h with
  | nil => rfl
  | cons _ hlast _ _ _ ih => rw [List.map_cons, hlast, ih, bitDone_bitDone, List.length_cons, List.replicate_succ]

/-- Every window lasts the hold time and at most `T_EPS` more (R117). -/
theorem windows_hold (h : Windows c o u bits starts ends) : ∀ w ∈ starts.zip ends,
    w.1.time + c.tBitHold ≤ w.2.time ∧ w.2.time ≤ w.1.time + c.tBitHold + c.tEps := by
  induction h with
  | nil => nofun
  | cons _ _ _ hhold _ ih => exact List.forall_mem_cons.mpr ⟨hhold, ih⟩

/-- From the start of a window to that of the next: a hold and a setup, each at most `T_EPS` longer (R117). -/
theorem windows_pitch (h : Windows c o u bits starts ends) : ∀ w ∈ starts.zip starts.tail,
    w.1.time + (c.tBitSetup + c.tBitHold) ≤ w.2.time ∧ w.2.time ≤ w.1.time + (c.tBitSetup + c.tBitHold) + 2 * c.tEps := by
  induction h with
  | nil => nofun
  | cons _ _ _ hhold rest ih =>
    cases rest with
    | nil => nofun
    | cons _ _ hsetup _ _ => exact List.forall_mem_cons.mpr ⟨by dsimp only; omega, ih⟩

/-- The bits of a byte from bit 0 on, `n` of them. -/
def lowBits (v : Byte) (n : Nat) : List Bool := (List.range n).map v.getLsbD

theorem lowBits_succ (v : Byte) (n : Nat) : lowBits v (n + 1) = v.getLsbD 0 :: lowBits (v >>> 1) n := by
  simp [lowBits, List.range_succ_eq_map, Function.comp_def, Nat.add_comm 1]

/-- The line writes of a log at line `k` of `send_byte`. -/
def sendWrites (k : Nat) (log : List LineWrite) : List LineWrite := log.filter fun w => w.loc == ⟨.sendByte, k⟩

theorem sendWrites_append (k : Nat) (log more : List LineWrite) : sendWrites k (log ++ more) = sendWrites k log ++ sendWrites k more :=
  List.filter_append ..

/-- The drive of DATA at line 5 is no write of another line. -/
theorem sendWrites_drive {k : Nat} {drive : List LineWrite} (h : ∀ w ∈ drive, w.loc = ⟨.sendByte, 5⟩) (hk : 5 ≠ k) :
    sendWrites k drive = [] :=
  List.filter_eq_nil_iff.mpr fun w hw => by simp [h w hw, hk]

/-- Everything the bit loop of `send_byte` that returns has put on the bus: the windows of the register's bits, all from inside
`send_byte`, and no write but theirs at lines 6 and 8. -/
theorem sendBits_returns {n b : Nat} {s t : State} {v : Byte} (hv : s.sr = some v) (hie : s.ie = false) (hop : s.pc.op = .sendByte)
    (h : sendBits n b s = .ok () t) :
    ∃ log, t.lineLog = s.lineLog ++ log ∧ (∀ w ∈ log, w.loc.op = .sendByte) ∧
      Windows s.cfg s.out s.now (lowBits v n) (sendWrites 6 log) (sendWrites 8 log) := by
  induction n generalizing s v b with
  | zero =>
    cases h
    exact ⟨[], (List.append_nil _).symm, nofun, .nil _ _⟩
  | succ n ih =>
    change (sendBit >>= fun _ => sendBits n (b + 1)) { s with pc := ⟨s.pc.op, 3⟩, bitn := some b } = .ok () t at h
    obtain ⟨_, u, hbit, hrest⟩ := bind_returns h
    obtain ⟨first, last, drive, hlog, hdrive, hfirst, hfirst', hlast, hlast', hu⟩ :=
      sendBit_returns (v := v) (by exact hv) (by exact hie) hbit
    simp only [hop] at hlog hdrive
    rw [hu] at hrest
    obtain ⟨more, hmore, hloc, hwindows⟩ := ih (by exact rfl) (by exact hie) (by exact hop) hrest
    refine ⟨drive ++ [⟨first, ⟨.sendByte, 6⟩, bitOut s.out (v.getLsbD 0)⟩, ⟨last, ⟨.sendByte, 8⟩, bitDone s.out⟩] ++ more, ?_, ?_, ?_⟩
    · simp only [hmore, hlog, List.append_assoc]
    · simp only [List.mem_append, List.mem_cons, List.not_mem_nil, or_false]
      rintro w ((hw | rfl | rfl) | hw)
      · rw [hdrive w hw]
      · rfl
      · rfl
      · exact hloc w hw
    · rw [lowBits_succ, sendWrites_append, sendWrites_append, sendWrites_append, sendWrites_append, sendWrites_drive hdrive (by decide),
        sendWrites_drive hdrive (by decide)]
      exact .cons rfl rfl ⟨hfirst, hfirst'⟩ ⟨hlast, hlast'⟩ hwindows

/-- The end of `send_byte`: lines 10 to 12 of R116. -/
def awaitAcknowledge : Op Bool := do
  line 10
  exitAtomic
  line 11
  setOk (← waitUntil (asserted .data) (← get).cfg.tAck)
  line 12
  readReg State.ok

/-- After its bits `send_byte` writes no line. -/
theorem frame_awaitAcknowledge : Within (Frame [.ie, .ok, .now, .irq, .draws]) awaitAcknowledge :=
  frameBind (frame_line _) fun _ => frameBind (frame_exitAtomic (by decide)) fun _ => frameBind (frame_line _) fun _ =>
  frameBind frame_get fun _ => frameBind (within_widen (frame_waitUntil _ _) (by decide)) fun _ =>
  frameBind (frame_setOk _ (by decide)) fun _ => frameBind (frame_line _) fun _ => frame_readReg _

/-- `send_byte` runs its bits from inside the atomic section, and then waits for the acknowledgement (R116). -/
theorem run_sendByte (v : Byte) (s : State) : sendByte v s =
    call .sendByte (fun u => (sendBits 8 0 >>= fun _ => awaitAcknowledge)
      { u with sr := some v, pc := { u.pc with line := 2 }, ieSaved := u.ie, ie := false }) s := rfl

/-- Everything a `send_byte` that returns has put on the bus (R116). -/
theorem sendByte_returns {v : Byte} {s t : State} {b : Bool} (h : sendByte v s = .ok b t) :
    ∃ log, t.lineLog = s.lineLog ++ log ∧ (∀ w ∈ log, w.loc.op = .sendByte) ∧
      Windows s.cfg s.out s.now (lowBits v 8) (sendWrites 6 log) (sendWrites 8 log) := by
  rw [run_sendByte] at h
  obtain ⟨u, hbody, rfl⟩ := call_returns_body h
  obtain ⟨_, x, hbits, hack⟩ := bind_returns hbody
  obtain ⟨log, hlog, hloc, hwindows⟩ := sendBits_returns (v := v) (by exact rfl) (by exact rfl) (by exact rfl) hbits
  have hframe := frame_awaitAcknowledge x
  rw [hack] at hframe
  obtain ⟨-, hparts⟩ := hframe
  have hkept : u.lineLog = x.lineLog := hparts .lineLog (by decide)
  exact ⟨log, hkept.trans hlog, hloc, hwindows⟩

/-- The line writes at a line of `send_byte`, where the log has grown by `log`. -/
theorem writesAt_sendByte {s t : State} {log : List LineWrite} (h : t.lineLog = s.lineLog ++ log) (k : Nat) :
    writesAt s t .sendByte k = sendWrites k log := by
  rw [writesAt, h, List.drop_left, sendWrites]

end Sys2Proof.Machine
end

section
open Sys2Proof Sys2Proof.Machine

/-- Settles O26: the bits end with DATA pulled, so the acknowledgement is met at its first sample. -/
theorem sendByteAcknowledged : Obligations.SendByteAcknowledged := by
  intro s v hq hd hack
  obtain ⟨log, hsend⟩ := run_sendByte_acknowledged v hq hd hack
  exact ⟨_, (answer_eq_next (sendByte v) s _).mpr (finalState_ok hsend), returned_sentByte .., rfl, rfl,
    by simp [sentByte], rfl, rfl⟩

/-- Settles O27: no sample of the acknowledgement window finds DATA pulled. -/
theorem sendByteNak : Obligations.SendByteNak := by
  intro s v hq hd hno
  have hsamples : ∀ i, i < sampleCount s.cfg.tAck s.cfg.tPoll → floats s .data (s.now + bitsTime s.cfg + i * s.cfg.tPoll) :=
    fun i hi => hno _ (Nat.le_add_right _ _) (Nat.add_le_add_left (Nat.mul_le_mul_right _ hi.le) _)
  obtain ⟨log, hsend⟩ := run_sendByte_nak v hq hd hsamples
  exact ⟨_, (answer_eq_next (sendByte v) s _).mpr (finalState_ok hsend), returned_sentByte .., rfl, rfl,
    by simp [sentByte, Nat.add_assoc]⟩

/-- Settles O28: the windows of the byte's bits are all that `send_byte` writes at lines 6 and 8, and the atomic section bounds
each of their delays. -/
theorem sendByteWireEncoding : Obligations.SendByteWireEncoding := by
  intro s t v ho h ⟨hr, _⟩
  cases (answer_eq_next (sendByte v) s t).mp h
  obtain ⟨b, hsend⟩ := ok_of_returns (frame_sendByte v) (returns_sendByte v s) hr
  obtain ⟨log, hlog, -, hwindows⟩ := sendByte_returns hsend
  simp only [wireBits, writesAt_sendByte hlog]
  refine ⟨?_, ?_, ?_, windows_hold hwindows, windows_pitch hwindows⟩
  · rw [windows_starts_out (fun out => out.getLsbD 1) hwindows ho]
    simp only [bitOut_clock]
    rfl
  · rw [windows_starts_out (fun out => out.getLsbD 0) hwindows ho, lowBits, List.map_map]
    simp only [bitOut_data ho]
    rfl
  · rw [windows_ends_out (fun out => out &&& (lineMask .data ||| lineMask .clock)) hwindows, bitDone_lines]
    rfl

/-- Settles O29, by the frame of `send_byte`. -/
theorem sendByteFrame : Obligations.SendByteFrame := by
  intro s t v h hr
  obtain ⟨hworld, hnow, hparts⟩ := exec_keeps_parts h hr
  change ∀ p, p ∉ sendParts → samePart s t p at hparts
  exact ⟨sameLine_of_bit (l := .atn) (hparts .outAtn (by decide)), sameLine_of_bit (l := .reset) (hparts .outReset (by decide)),
    bitLevel_keeps hworld hnow hparts⟩

/-- Settles O30: every wait of `receive_byte` is met, the first at once and the others one poll later. -/
theorem receiveByteFromTalker : Obligations.ReceiveByteFromTalker := fun s v ho hq hsamples htalk hd =>
  ⟨receivedByte s v, (answer_eq_next receiveByte s _).mpr (finalState_ok (run_receiveByte_quiet ho hq hsamples htalk hd)),
    ⟨rfl, rfl, rfl, rfl⟩, rfl, rfl, rfl, rfl, rfl, rfl⟩

/-- Settles O31, by the frame of `receive_byte`, which is within that of `send_byte`. -/
theorem receiveByteFrame : Obligations.ReceiveByteFrame := by
  intro s t h hr
  obtain ⟨hworld, hnow, hparts⟩ := exec_keeps_parts h hr
  have hout : t.out = s.out := lines_eq_of_bits (hparts .outData (by decide)) (hparts .outClock (by decide))
    (hparts .outAtn (by decide)) (hparts .outReset (by decide))
  have hsub : receiveParts ⊆ sendParts := by decide
  exact ⟨hout, hparts .lineLog (by decide), bitLevel_keeps hworld hnow fun p hp => hparts p fun hm => hp (hsub hm)⟩
end

section
/-! PROOFS. What the transactions leave unchanged where no watchdog reset ends them, read off their frames (R140, R164). -/

namespace Sys2Proof.Machine

variable {s t : State}

/-- What an operation that writes neither the buffer, nor the request registers, nor the host port leaves of them. -/
theorem store_kept {may : List Part} (hparts : ∀ p, p ∉ may → samePart s t p)
    (h : ∀ p ∈ [Part.buf, .bufEpoch, .len, .req, .result, .collected, .hin, .hout, .xfer, .host], p ∉ may) :
    sameBuffer s t ∧ sameRequest s t ∧ samePort s t := by
  have kept : ∀ p ∈ [Part.buf, .bufEpoch, .len, .req, .result, .collected, .hin, .hout, .xfer, .host], samePart s t p :=
    fun p hp => hparts p (h p hp)
  exact ⟨sameBuffer_of_parts (kept .buf (by decide)) (kept .bufEpoch (by decide)),
    sameRequest_of_parts fun p hp => kept p (by revert p; decide), samePort_of_parts fun p hp => kept p (by revert p; decide)⟩

/-- Both forms of the bus reset change only what R164 lists. -/
theorem exec_busReset_keeps {i : Instr} (hi : i = .reset ∨ i = .busReset) (h : exec i s = .next t) (hr : t.resets = s.resets) :
    sameWorld s t ∧ s.now ≤ t.now ∧ ∀ p, p ∉ resetParts → samePart s t p := by
  rcases hi with rfl | rfl <;> exact exec_keeps_parts h hr

end Sys2Proof.Machine
end

section
open Sys2Proof Sys2Proof.Machine

/-- Settles O35: a write clears EOI in its first line and sets it nowhere, and a watchdog reset clears it too. -/
theorem writeClearsEoi : Obligations.WriteClearsEoi := by
  intro s t base n atn talk h
  have hends := keeps_writeOp (G := False) (base := base) (n := n.toNat) (s := s) atn talk nofun
  exact eoi_of_ends (frame_writeOp base n.toNat atn talk)
    (ends_mono hends (fun _ ⟨_, _, heoi, _⟩ => heoi) fun _ _ ⟨_, heoi, _⟩ => heoi) h

/-- Settles O36, by the frame of `write`. -/
theorem writeFrame : Obligations.WriteFrame := by
  intro s t base n atn talk h hr
  obtain ⟨hworld, hnow, hparts⟩ := exec_keeps_parts h hr
  change ∀ p, p ∉ writeParts → samePart s t p at hparts
  obtain ⟨hbuf, hrequest, hport⟩ := store_kept hparts (by decide)
  exact ⟨sameLine_of_bit (l := .reset) (hparts .outReset (by decide)), hbuf, hrequest, hport, hworld, hparts .wdtLast (by decide),
    hparts .t0 (by decide), hnow⟩

/-- Settles O44, by the frame of `reset`. -/
theorem resetKeepsProtocolState : Obligations.ResetKeepsProtocolState := by
  intro s t h hr
  obtain ⟨-, -, hparts⟩ := exec_busReset_keeps (.inl rfl) h hr
  obtain ⟨hbuf, hrequest, -⟩ := store_kept hparts (by decide)
  exact ⟨hparts .eoi (by decide), hbuf, hrequest⟩

/-- Settles O45, by the frame of both bus resets. -/
theorem resetFrame : Obligations.ResetFrame := by
  intro s t i hi h hr
  obtain ⟨hworld, hnow, hparts⟩ := exec_busReset_keeps hi h hr
  obtain ⟨hbuf, hrequest, hport⟩ := store_kept hparts (by decide)
  exact ⟨hparts .eoi (by decide), hbuf, hrequest, hport, hworld, hparts .ie (by decide), hparts .ieSaved (by decide),
    hparts .sr (by decide), hparts .bitn (by decide), hparts .idx (by decide), hparts .cnt (by decide), hparts .ok (by decide), hnow⟩
end

section
/-! PROOFS. An operation that is abandoned leaves its caller's location on the call stack (R33, R253, R284), so a state whose stack is
the caller's is one in which it has returned; and what a caller finds of location and stack when a wait or a byte comes back. -/

namespace Sys2Proof.Machine

variable {α : Type} {B : State → Prop}

/-- The engine is inside an operation called from `s`. -/
def Inside (s t : State) : Prop := s.stack.length < t.stack.length

/-- An operation that leaves the engine inside itself where a fault or an endless loop stops it, and is back at its caller, has
returned. -/
theorem ends_of_returned {may : List Part} {m : Op α} {Q : α → State → Prop} {s : State} (hm : Within (Frame may) m)
    (h : Ends (Inside s) Q (m s)) (hr : returned s (finalState m s)) : ∃ a, Q a (finalState m s) := by
  obtain ⟨hresets, -, -, hstack⟩ := hr
  have hlands := hm s
  unfold finalState at hresets hstack ⊢
  cases hs : m s with
  | ok a t =>
    rw [hs, ends_ok] at h
    exact ⟨a, h⟩
  | error e t =>
    rw [hs] at hlands hresets hstack
    rw [hs, ends_error] at h
    rcases h with rfl | hinside
    · obtain ⟨u, hu, rfl⟩ := hlands
      simp only [watchdogReset_resets, frame_resets hu] at hresets
      omega
    · exact absurd (congrArg List.length hstack) (Nat.ne_of_gt hinside)

/-- The loop of `WaitForever` calls nothing: where it runs out of fuel the stack is as it was (R113). -/
theorem ends_foreverLoop_stack {c : State → Bool} {n : Nat} {s : State} {st : List Loc} (hs : s.stack = st) :
    Ends (fun t => t.stack = st) (fun _ _ => True) (foreverLoop c n s) := by
  induction n generalizing s with
  | zero => simpa [foreverLoop] using hs
  | succ n ih =>
    simp only [foreverLoop, ends_bind, run_line, ends_ok, run_get, ends_ite, run_pure, implies_true, true_and]
    exact fun _ => ends_delay fun _ _ _ _ => ih hs

/-- `WaitForever` does not fault, and where it hangs the engine is inside it (R113). -/
theorem ends_waitForever_inside {Q : Unit → State → Prop} {c : State → Bool} {s : State}
    (hB : ∀ t, t.stack = s.pc :: s.stack → B t) (h : ∀ n i k, s.now ≤ n → Q () { s with now := n, irq := i, draws := k }) :
    Ends B Q (waitForever c s) := by
  refine ends_wait (frameBind frame_get fun _ => frame_foreverLoop c _) ?_ fun _ => h
  simp only [ends_call, ends_bind, run_get, ends_ok]
  exact ends_mono (ends_foreverLoop_stack rfl) hB fun _ _ _ => trivial

/-- Everything a caller of `WaitUntilKick` finds when it returns, with the location and the stack (R112). -/
theorem ends_waitUntilKick_back {Q : Bool → State → Prop} {c : State → Bool} {T : Nat} {s : State}
    (h : ∀ b t, Frame kickParts s t → t.pc = s.pc → t.stack = s.stack → Q b t) : Ends B Q (waitUntilKick c T s) :=
  ends_imp (ends_call_back (ends_waitUntilKick (Q := fun _ t => Frame kickParts s t) fun _ _ hf _ => hf))
    fun b t ⟨hpc, hstack, hf⟩ => h b t hf hpc hstack

/-- Everything a caller of `receive_byte` finds when it returns, with the location and the stack (R119). -/
theorem ends_receiveByte_back {Q : Option Byte → State → Prop} {s : State}
    (h : ∀ r t, Frame receiveParts s t → t.pc = s.pc → t.stack = s.stack → Q r t) : Ends B Q (receiveByte s) :=
  ends_imp (ends_call_back (ends_receiveByte (Q := fun _ t => Frame receiveParts s t) fun _ _ hf _ => hf))
    fun r t ⟨hpc, hstack, hf⟩ => h r t hf hpc hstack

/-- Every bit leaves CLOCK asserted and DATA released, so the bits do (R116 line 8). -/
theorem sendBits_returns_out {n b : Nat} {s t : State} {v : Byte} (hn : n ≠ 0) (hv : s.sr = some v) (hie : s.ie = false)
    (h : sendBits n b s = .ok () t) : t.out = bitDone s.out := by
  induction n generalizing s v b with
  | zero => exact absurd rfl hn
  | succ n ih =>
    change (sendBit >>= fun _ => sendBits n (b + 1)) { s with pc := ⟨s.pc.op, 3⟩, bitn := some b } = .ok () t at h
    obtain ⟨_, u, hbit, hrest⟩ := bind_returns h
    obtain ⟨_, _, _, -, -, -, -, -, -, hu⟩ := sendBit_returns (v := v) (by exact hv) (by exact hie) hbit
    rw [hu] at hrest
    by_cases hlast : n = 0
    · subst hlast
      cases hrest
      rfl
    · exact (ih hlast (by exact rfl) (by exact hie) hrest).trans (bitDone_bitDone s.out)

/-- A `send_byte` that returns leaves CLOCK asserted and DATA released, whatever the devices do (R116). -/
theorem sendByte_returns_out {v : Byte} {s t : State} {b : Bool} (h : sendByte v s = .ok b t) : t.out = bitDone s.out := by
  rw [run_sendByte] at h
  obtain ⟨u, hbody, rfl⟩ := call_returns_body h
  obtain ⟨_, x, hbits, hack⟩ := bind_returns hbody
  have hframe := frame_awaitAcknowledge x
  rw [hack] at hframe
  obtain ⟨-, hparts⟩ := hframe
  have hkept : u.out = x.out := lines_eq_of_bits (hparts .outData (by decide)) (hparts .outClock (by decide))
    (hparts .outAtn (by decide)) (hparts .outReset (by decide))
  have hout := sendBits_returns_out (v := v) (by decide) (by exact rfl) (by exact rfl) hbits
  exact hkept.trans hout

/-- Everything a caller of `send_byte` finds when it returns, with the lines, the location and the stack (R116). -/
theorem ends_sendByte_back {Q : Bool → State → Prop} {v : Byte} {s : State}
    (h : ∀ b t, Frame sendParts s t → t.out = bitDone s.out → t.pc = s.pc → t.stack = s.stack → Q b t) :
    Ends B Q (sendByte v s) := by
  have hends := ends_sendByte (B := B) (v := v) (s := s) (Q := fun _ t => Frame sendParts s t) fun _ _ hf _ => hf
  cases hs : sendByte v s with
  | ok b t =>
    rw [hs, ends_ok] at hends
    rw [ends_ok]
    obtain ⟨hpc, hstack⟩ := call_returns hs
    exact h b t hends (sendByte_returns_out hs) hpc hstack
  | error e t =>
    rw [hs] at hends
    rwa [ends_error] at hends ⊢

end Sys2Proof.Machine
end

section
/-! PROOFS. `read` on any bus (R155): what it has counted, stored and left alone wherever it ends, and that with EOI latched it reads
nothing. -/

namespace Sys2Proof.Machine

/-! ### The bytes counted -/

/-- A read that began in `s₀` has counted `c` bytes: nothing is stored from index `c` on, EOI is not cleared, and `IDX` is the index of
the last byte stored, if there is one (R155, R161). -/
def Counted (s₀ : State) (c : Nat) (t : State) : Prop :=
  t.cnt = some c ∧ (∀ a, c ≤ a → peek t a = peek s₀ a) ∧ (s₀.eoi = true → t.eoi = true) ∧
    t.idx = if c = 0 then s₀.idx else some (c - 1)

/-- What `IDX` may be after a read that began in `s₀`, also where storing the last byte overran the buffer. -/
def IndexShown (s₀ t : State) : Prop := t.idx = s₀.idx ∨ ∃ c, t.idx = some c ∧ (t.cnt = some c ∨ t.cnt = some (c + 1))

variable {s₀ s t : State} {c : Nat}

theorem indexShown_of_counted (h : Counted s₀ c s) : IndexShown s₀ s := by
  obtain ⟨hcnt, -, -, hidx⟩ := h
  cases c with
  | zero => exact .inl hidx
  | succ c => exact .inr ⟨c, hidx, .inr hcnt⟩

/-- An operation that neither stores, counts nor clears EOI keeps the count. -/
theorem counted_of_frame {may : List Part} (h : Counted s₀ c s) (hf : Frame may s t)
    (hmay : ∀ p ∈ [Part.cnt, .buf, .bufEpoch, .idx], p ∉ may) (heoi : s.eoi = true → t.eoi = true) : Counted s₀ c t := by
  obtain ⟨hcnt, hpeek, heoi₀, hidx⟩ := h
  obtain ⟨-, hparts⟩ := hf
  have hbuf : sameBuffer s t :=
    sameBuffer_of_parts (hparts _ (hmay .buf (by decide))) (hparts _ (hmay .bufEpoch (by decide)))
  exact ⟨(hparts _ (hmay .cnt (by decide))).trans hcnt, fun a ha => (hbuf a).trans (hpeek a ha), fun h => heoi (heoi₀ h),
    (hparts _ (hmay .idx (by decide))).trans hidx⟩

/-- The EOI detector can only set EOI, and writes no index or count (R155 lines 8 to 10). -/
theorem returns_detectEoi_counted (hs : Counted s₀ c s) (hin : Inside s₀ s) (taken : Bool) :
    Returns (fun _ t => Counted s₀ c t ∧ Inside s₀ t) (detectEoi taken s) := by
  obtain ⟨hcnt, hpeek, -, hidx⟩ := id hs
  simp only [detectEoi, acknowledgeEoi, setEoi, ends_ite, run_pure, ends_ok, ends_bind, run_line, run_assertLines, run_get]
  refine ⟨fun _ => ⟨hs, hin⟩, fun _ => ends_delay fun u i k _ => ?_⟩
  rw [run_releaseLines, ends_ok]
  exact ⟨⟨hcnt, hpeek, fun _ => rfl, hidx⟩, hin⟩

/-- Where the buffer is full, storing a byte faults, with its index in `IDX` and the count as it was (R155 line 13, R66). -/
theorem run_storeByte_full (b : Byte) (hc : s.cnt = some c) (h : s.cfg.bufCap ≤ c) :
    storeByte b s = .error .faulted { s with idx := some c, fault := some .bufferOverrun, pc := ⟨s.pc.op, 13⟩ } := by
  simp [storeByte, run_bind, readReg, hc, memWrite, Nat.not_lt.mpr h]

/-- A byte that finds room is counted; where it finds none, `IDX` alone is written before the fault (R155 line 13, R66). -/
theorem ends_storeByte_counted (hs : Counted s₀ c s) (hin : Inside s₀ s) (b : Byte) :
    Ends (fun t => Inside s₀ t ∧ IndexShown s₀ t) (fun _ t => Counted s₀ (c + 1) t ∧ Inside s₀ t) (storeByte b s) := by
  obtain ⟨hcnt, hpeek, heoi, -⟩ := hs
  rcases Nat.lt_or_ge c s.cfg.bufCap with hroom | hfull
  · rw [run_storeByte b hcnt hroom, ends_ok]
    refine ⟨⟨rfl, fun a ha => ?_, heoi, rfl⟩, hin⟩
    rw [← hpeek a (by omega)]
    simp only [peek, cellAt_cellSet_other s.buf b (show a ≠ c by omega)]
  · rw [run_storeByte_full b hcnt hfull, ends_error]
    exact .inr ⟨hin, .inr ⟨c, rfl, .inl hcnt⟩⟩

/-- Wherever the loop of a read ends, `IDX` is as it may be; where it returns, it has stored no more than it counts, and counts no
more than it was asked for (R155, R161). -/
theorem ends_readLoop_counted {maxLen f : Nat} (hs : Counted s₀ c s) (hin : Inside s₀ s) (hlen : maxLen ≠ 0 → c < maxLen) :
    Ends (fun t => Inside s₀ t ∧ IndexShown s₀ t) (fun _ t => ∃ c, (maxLen ≠ 0 → c ≤ maxLen) ∧ Counted s₀ c t)
      (readLoop maxLen f s) := by
  induction f generalizing s c with
  | zero =>
    simp only [readLoop, run_hang, ends_error]
    exact .inr ⟨hin, indexShown_of_counted hs⟩
  | succ f ih =>
    have stop : ∀ {t : State}, Counted s₀ c t →
        Ends (fun t => Inside s₀ t ∧ IndexShown s₀ t) (fun _ t => ∃ c, (maxLen ≠ 0 → c ≤ maxLen) ∧ Counted s₀ c t) (returnCnt t) :=
      fun h => ends_returnCnt h.1 ⟨c, fun hne => (hlen hne).le, h⟩
    simp only [readLoop, ends_bind, run_line, ends_ok, run_get]
    refine ends_waitUntilKick_back fun b t hf _ hst => ?_
    have ht : Counted s₀ c t := counted_of_frame (by exact hs) hf (by decide) fun h => (hf.2 .eoi (by decide)).trans h
    have hint : Inside s₀ t := by rw [Inside, hst]; exact hin
    simp only [run_setOk, ends_ok, ends_ite, ends_bind, run_line, ends_readReg]
    refine ⟨fun _ => stop (by exact ht), fun _ => ⟨fun ready _ => ⟨fun _ => ?_, fun _ => stop (by exact ht)⟩, nofun⟩⟩
    simp only [run_releaseLines, run_get, ends_ok]
    refine ends_waitUntil fun taken u i k _ => ⟨fun seen _ => ?_, nofun⟩
    refine ends_of_returns (returns_detectEoi_counted (s₀ := s₀) (c := c) (by exact ht) (by exact hint) seen) fun _ v ⟨hv, hinv⟩ => ?_
    refine ends_receiveByte_back fun r w hf _ hst => ?_
    have hw : Counted s₀ c w := counted_of_frame (by exact hv) hf (by decide) fun h => (hf.2 .eoi (by decide)).trans h
    have hinw : Inside s₀ w := by rw [Inside, hst]; exact hinv
    cases r with
    | none =>
      simp only [ends_bind, run_line, ends_ok]
      exact stop (by exact hw)
    | some byte =>
      simp only [ends_bind]
      refine ends_imp (ends_storeByte_counted hw hinw byte) fun _ x ⟨⟨hcx, hx⟩, hinx⟩ => ?_
      simp only [run_line, ends_ok, ends_readReg, run_get, ends_ite, hcx]
      refine ⟨fun m hm => ?_, nofun⟩
      cases hm
      refine ⟨fun _ => ends_returnCnt rfl ⟨c + 1, fun hne => hlen hne, rfl, hx⟩, fun more => ?_⟩
      refine ih (c := c + 1) ⟨rfl, hx⟩ hinx fun hne => ?_
      have := hlen hne
      omega

/-- Wherever a read ends (R155). -/
theorem ends_readOp_counted (maxLen : Nat) (s : State) :
    Ends (fun t => Inside s t ∧ IndexShown s t) (fun _ t => ∃ c, (maxLen ≠ 0 → c ≤ maxLen) ∧ Counted s c t) (readOp maxLen s) := by
  simp only [readOp, ends_call, ends_bind, run_setCnt, run_get, ends_ok]
  exact ends_readLoop_counted (c := 0) ⟨rfl, fun _ _ => rfl, id, rfl⟩ (Nat.lt_succ_self _) Nat.pos_of_ne_zero

/-! ### EOI latched -/

/-- With EOI latched a read ends after its first wait, with nothing changed but what the wait and the count do (R156, R162). -/
theorem returns_readOp_latched (maxLen : Nat) (h : s.eoi = true) :
    Returns (fun _ t => t.cnt = some 0 ∧ t.out = s.out ∧ t.lineLog = s.lineLog ∧ t.eoi = true ∧ sameBuffer s t)
      (readOp maxLen s) := by
  simp only [readOp, readLoop, ends_call, ends_bind, run_setCnt, run_get, ends_ok, run_line]
  refine ends_waitUntilKick fun b t hf _ => ?_
  obtain ⟨-, hparts⟩ := hf
  have heoi : t.eoi = true := (hparts .eoi (by decide)).trans h
  have hcnt : t.cnt = some 0 := hparts .cnt (by decide)
  have hout : t.out = s.out := lines_eq_of_bits (hparts .outData (by decide)) (hparts .outClock (by decide))
    (hparts .outAtn (by decide)) (hparts .outReset (by decide))
  have hbuf : sameBuffer s t := sameBuffer_of_parts (hparts .buf (by decide)) (hparts .bufEpoch (by decide))
  simp only [run_setOk, ends_ok, ends_ite]
  exact ⟨fun _ => ends_returnCnt hcnt ⟨hcnt, hout, hparts .lineLog (by decide), heoi, hbuf⟩, fun hclear => absurd heoi hclear⟩

end Sys2Proof.Machine
end

section
open Sys2Proof Sys2Proof.Machine

/-- Settles O38: the read ends after its first wait, which only kicks and lets time pass. -/
theorem readWithEoiLatched : Obligations.ReadWithEoiLatched := by
  intro s t n heoi h ⟨hr, _⟩
  cases (answer_eq_next (readOp n.toNat) s t).mp h
  have hends := returns_readOp_latched n.toNat heoi
  obtain ⟨m, hread⟩ := ok_of_returns (frame_readOp n.toNat) hends hr
  rw [hread] at hends
  exact (ends_ok ..).mp hends

/-- Settles O39: where the read has returned, the count of its loop is what it has stored. -/
theorem readStoresWhatItCounts : Obligations.ReadStoresWhatItCounts := by
  intro s t n hn h hret
  have ⟨hr, _⟩ := hret
  obtain ⟨-, -, hparts⟩ := exec_keeps_parts h hr
  change ∀ p, p ∉ readParts → samePart s t p at hparts
  cases (answer_eq_next (readOp n.toNat) s t).mp h
  have hends := ends_mono (ends_readOp_counted n.toNat s) (fun _ hB => hB.1) fun _ _ hQ => hQ
  obtain ⟨-, c, hlen, hcnt, hpeek, heoi, hidx⟩ := ends_of_returned (frame_readOp n.toNat) hends hret
  exact ⟨c, hcnt, hlen fun h0 => hn (BitVec.eq_of_toNat_eq h0), hpeek, sameLine_of_bit (l := .clock) (hparts .outClock (by decide)),
    sameLine_of_bit (l := .atn) (hparts .outAtn (by decide)), sameLine_of_bit (l := .reset) (hparts .outReset (by decide)), heoi, hidx⟩

/-- Settles O41, by the frame of `read`, and for `IDX` by the count of its loop. -/
theorem readFrame : Obligations.ReadFrame := by
  intro s t n h hr
  obtain ⟨hworld, hnow, hparts⟩ := exec_keeps_parts h hr
  change ∀ p, p ∉ readParts → samePart s t p at hparts
  have hidx : IndexShown s t := by
    cases (answer_eq_next (readOp n.toNat) s t).mp h
    have hends := ends_mono (ends_readOp_counted n.toNat s) (fun _ hB => hB.2) fun _ _ ⟨_, _, hcounted⟩ => indexShown_of_counted hcounted
    rcases final_of_ends (frame_readOp n.toNat) hends with hshown | ⟨u, hu, e⟩
    · exact hshown
    · rw [e, watchdogReset_resets, frame_resets hu] at hr
      omega
  exact ⟨sameLine_of_bit (l := .clock) (hparts .outClock (by decide)), sameLine_of_bit (l := .atn) (hparts .outAtn (by decide)),
    sameLine_of_bit (l := .reset) (hparts .outReset (by decide)), sameRequest_of_parts fun p hp => hparts p (by revert p; decide),
    samePort_of_parts fun p hp => hparts p (by revert p; decide), hworld, hidx, hparts .t0 (by decide), hnow⟩
end

section
/-! PROOFS. `write` on any bus (R140): between its bytes it holds CLOCK and leaves DATA and RESET alone, so wherever it returns the lines
are those of a row of the exit table (R154). -/

namespace Sys2Proof.Machine

variable {s₀ s : State}

/-- A write that began in `s₀` has claimed the bus: CLOCK asserted, DATA released, RESET as it was; nothing is said of ATN (R140 lines 2
and 3). -/
def Claims (s₀ s : State) : Prop := s.out &&& ~~~lineMask .atn = (s₀.out &&& lineMask .reset) ||| lineMask .clock

/-- A row of the exit table (R154), for a write of `n` bytes that began in `s₀`. -/
def ExitRow (s₀ : State) (n : Nat) (talk : Bool) (t : State) : Prop :=
  (t.cnt = some n ∧ t.out = (s₀.out &&& lineMask .reset) ||| (if talk then lineMask .data else lineMask .clock)) ∨
  (t.cnt = some 0 ∧ t.out = s₀.out &&& lineMask .reset)

/-- A run of a write: it ends in a row of the exit table, or is stopped inside the write. -/
abbrev ExitsInRow {α : Type} (s₀ : State) (n : Nat) (talk : Bool) : EStateM.Result Stop State α → Prop :=
  Ends (Inside s₀) (fun _ => ExitRow s₀ n talk)

/-! ### The lines -/

/-- The claim: DATA released, then CLOCK asserted, with ATN or without. -/
theorem claim_lines (o : Lines) (atn : Bool) :
    (o &&& ~~~lineMask .data ||| (lineMask .clock ||| if atn then lineMask .atn else 0)) &&& ~~~lineMask .atn =
      (o &&& lineMask .reset) ||| lineMask .clock := by
  revert o atn; decide

/-- Giving up the bus leaves RESET alone (R151). -/
theorem release_claim {o r : Lines} (h : o &&& ~~~lineMask .atn = (r &&& lineMask .reset) ||| lineMask .clock) :
    o &&& ~~~(lineMask .clock ||| lineMask .atn) = r &&& lineMask .reset := by
  revert o r; decide

/-- The talk hand-off (R149). -/
theorem handOff_claim {o r : Lines} (h : o &&& ~~~lineMask .atn = (r &&& lineMask .reset) ||| lineMask .clock) :
    (o ||| lineMask .data) &&& ~~~(lineMask .clock ||| lineMask .atn) = (r &&& lineMask .reset) ||| lineMask .data := by
  revert o r; decide

/-- A byte ends with the lines of the claim: CLOCK, released for the listener and asserted again, and DATA released by the last bit. -/
theorem byte_claim {o r : Lines} (h : o &&& ~~~lineMask .atn = (r &&& lineMask .reset) ||| lineMask .clock) :
    bitDone (o &&& ~~~lineMask .clock ||| lineMask .clock) &&& ~~~lineMask .atn = (r &&& lineMask .reset) ||| lineMask .clock := by
  revert o r; decide

/-! ### The ends of a write -/

theorem exitsInRow_deviceAbsent (h : Claims s₀ s) (n : Nat) (talk : Bool) : ExitsInRow s₀ n talk (deviceAbsent s) := by
  simp only [deviceAbsent, returnCount, ends_bind, run_releaseLines, run_log, run_setCnt, run_pure, ends_ok]
  exact .inr ⟨rfl, release_claim h⟩

theorem exitsInRow_writeFails (h : Claims s₀ s) (n : Nat) (talk : Bool) : ExitsInRow s₀ n talk (writeFails s) := by
  simp only [writeFails, returnCount, ends_bind, run_releaseLines, run_setCnt, run_pure, ends_ok]
  exact .inr ⟨rfl, release_claim h⟩

theorem exitsInRow_finishWrite (h : Claims s₀ s) (hin : Inside s₀ s) (n : Nat) (talk : Bool) :
    ExitsInRow s₀ n talk (finishWrite n talk s) := by
  cases talk with
  | false =>
    simp only [finishWrite, handOff, returnCount, ends_bind, run_line, run_releaseLines, run_setCnt, run_pure, ends_ok,
      Bool.false_eq_true, if_false]
    exact .inl ⟨rfl, h⟩
  | true =>
    simp only [finishWrite, handOff, returnCount, ends_bind, run_line, run_setReleaseLines, ends_ok, if_true]
    refine ends_waitForever_inside (fun t ht => ?_) fun _ _ _ _ => ?_
    · rw [Inside, ht]
      exact Nat.lt_succ_of_lt hin
    · simp only [ends_ok, run_setCnt, run_pure]
      exact .inl ⟨rfl, handOff_claim h⟩

/-! ### The bytes -/

/-- Where a wait of a write hangs, the engine is inside the write. -/
theorem ends_waitForever_write_inside {Q : Unit → State → Prop} {c : State → Bool} (hin : Inside s₀ s)
    (h : ∀ n i k, s.now ≤ n → Q () { s with now := n, irq := i, draws := k }) : Ends (Inside s₀) Q (waitForever c s) :=
  ends_waitForever_inside (fun t ht => by rw [Inside, ht]; exact Nat.lt_succ_of_lt hin) h

/-- The EOI handshake writes no line (R146, R147). -/
theorem ends_eoiHandshake_lines (hin : Inside s₀ s) (n : Nat) (atn : Bool) :
    Ends (Inside s₀) (fun _ t => t.out = s.out ∧ Inside s₀ t) (eoiHandshake n atn s) := by
  simp only [eoiHandshake, ends_bind, run_line, ends_ok, ends_readReg, ends_ite, run_pure]
  refine ⟨fun i _ => ⟨fun _ => ?_, fun _ => ⟨trivial, hin⟩⟩, fun _ => hin⟩
  exact ends_waitForever_write_inside hin fun _ _ _ _ => ends_waitForever_write_inside hin fun _ _ _ _ => ⟨rfl, hin⟩

theorem exitsInRow_writeBytes (base n : Nat) (atn talk : Bool) {k i : Nat} (h : Claims s₀ s) (hin : Inside s₀ s) :
    ExitsInRow s₀ n talk (writeBytes base n atn talk k i s) := by
  induction k generalizing s i with
  | zero =>
    simp only [writeBytes, ends_bind, run_setIdx, ends_ok]
    exact exitsInRow_finishWrite (by exact h) (by exact hin) n talk
  | succ k ih =>
    simp only [writeBytes, ends_bind, run_line, ends_ok, run_setIdx, run_get]
    refine ends_delay fun _ _ _ _ => ?_
    simp only [ends_ite, ends_bind, run_line, ends_ok, run_releaseLines]
    refine ⟨fun _ => exitsInRow_deviceAbsent (by exact h) n talk, fun _ => ends_waitForever_write_inside hin fun _ _ _ _ => ?_⟩
    refine ends_imp (ends_eoiHandshake_lines (by exact hin) n atn) fun _ t ⟨hout, hint⟩ => ?_
    simp only [ends_ok, run_assertLines, ends_readReg, ends_memReadByte]
    refine ⟨fun j _ => ⟨fun _ => ends_sendByte_back fun acknowledged u _ hlines _ hst => ?_, fun _ => hint⟩, fun _ => hint⟩
    have hu : Claims s₀ u := by
      rw [Claims, hlines]
      simp only [hout]
      exact byte_claim h
    have hinu : Inside s₀ u := by rw [Inside, hst]; exact hint
    refine ⟨fun _ => ?_, fun _ => exitsInRow_writeFails hu n talk⟩
    simp only [run_statusHook, ends_ok]
    exact ih (by exact hu) (by exact hinu)

/-- Every write that returns leaves the lines of a row of the exit table (R154). -/
theorem exitsInRow_writeOp (base n : Nat) (atn talk : Bool) (s : State) : ExitsInRow s n talk (writeOp base n atn talk s) := by
  simp only [writeOp, ends_call, ends_bind, setEoi, run_line, ends_ok, run_releaseLines, run_assertLines, run_get]
  refine ends_waitUntil fun found m i k _ => ?_
  simp only [run_setOk, ends_ok, ends_readReg, ends_ite]
  refine ⟨fun _ _ => ⟨fun _ => ?_, fun _ => ?_⟩, nofun⟩
  · exact ends_imp (exitsInRow_writeBytes (s₀ := s) base n atn talk (by exact claim_lines s.out atn) (Nat.lt_succ_self _)) fun _ _ h => h
  · exact ends_imp (exitsInRow_deviceAbsent (s₀ := s) (by exact claim_lines s.out atn) n talk) fun _ _ h => h

end Sys2Proof.Machine
end

section
open Sys2Proof Sys2Proof.Machine

/-- Settles O34: a write that has returned is at one of its ends, each of which is a row of the exit table. -/
theorem writeExitLines : Obligations.WriteExitLines := by
  intro s t base n atn talk h hret
  cases (answer_eq_next (writeOp base n.toNat atn talk) s t).mp h
  obtain ⟨-, hrow⟩ := ends_of_returned (frame_writeOp base n.toNat atn talk) (exitsInRow_writeOp base n.toNat atn talk s) hret
  exact hrow
end

section
/-! PROOFS. `reset` on any bus (R164): every probe leaves the four lines released, and every attempt is one kick and one probe. -/

namespace Sys2Proof.Machine

variable {s₀ s t : State}

/-- The trace has grown by kicks, at least one, and at most one `FreeBusTimeout`, the last (R166, R168). -/
def TracedKicks (s t : State) : Prop :=
  ∃ k, 1 ≤ k ∧ (t.trace = s.trace ++ List.replicate k Event.kick ∨ t.trace = s.trace ++ List.replicate k Event.kick ++ [Event.freeBusTimeout])

/-- The bus is free: the four lines released, and time for a probe has passed (R167). -/
def BusFreed (s t : State) : Prop := t.out = 0 ∧ s.now + s.cfg.tProbeSettle ≤ t.now ∧ TracedKicks s t

/-- One attempt before them is one kick more. -/
theorem tracedKicks_after_kick {u : State} (hu : u.trace = s.trace ++ [Event.kick]) (h : TracedKicks u t) : TracedKicks s t := by
  obtain ⟨k, -, ht⟩ := h
  have hcons : s.trace ++ [Event.kick] ++ List.replicate k Event.kick = s.trace ++ List.replicate (k + 1) Event.kick := by
    rw [List.append_assoc, List.replicate_succ, List.singleton_append]
  rw [hu, hcons] at ht
  exact ⟨k + 1, by omega, ht⟩

/-- Everything a probe does whatever it finds: it leaves the lines released, lasts the settle time, and adds nothing to the trace
(R167). -/
theorem returns_probeFree_lines (s : State) :
    Returns (fun _ t => t.out = 0 ∧ s.now + s.cfg.tProbeSettle ≤ t.now ∧ t.trace = s.trace ∧ t.cfg = s.cfg ∧ t.stack = s.stack)
      (probeFree s) := by
  have hall : ∀ o : Lines, o &&& ~~~(lineMask .data ||| lineMask .clock ||| lineMask .atn ||| lineMask .reset) = 0 := by decide
  have hatn : ∀ o : Lines, (o &&& ~~~(lineMask .data ||| lineMask .clock ||| lineMask .atn ||| lineMask .reset) ||| lineMask .atn) &&&
      ~~~lineMask .atn = 0 := by decide
  simp only [probeFree, ends_call, ends_bind, run_releaseLines, run_line, run_get, ends_ok]
  refine ends_delay_lasts fun n _ _ hn => ?_
  have hsettle : s.now + s.cfg.tProbeSettle ≤ n := hn
  simp only [ends_ite, ends_bind, run_line, run_get, ends_ok, run_pure, run_assertLines]
  refine ⟨fun _ => ⟨hall s.out, hsettle, trivial, trivial, trivial⟩, fun _ => ends_delay fun m _ _ hm => ?_⟩
  have hm : n ≤ m := hm
  simp only [ends_ok, run_releaseLines]
  refine ⟨fun _ => ⟨hatn s.out, hsettle.trans hm, trivial, trivial, trivial⟩, fun _ => ends_delay fun l _ _ hl => ?_⟩
  exact ⟨hatn s.out, hsettle.trans (hm.trans hl), rfl, rfl, trivial⟩

/-- The attempts end with the bus free, or the engine is stopped inside the reset (R166). -/
theorem ends_freeBusLoop_freed {f : Nat} (hin : Inside s₀ s) :
    Ends (Inside s₀) (fun _ t => BusFreed s t) (freeBusLoop f s) := by
  induction f generalizing s with
  | zero =>
    simp only [freeBusLoop, run_hang, ends_error]
    exact .inr hin
  | succ f ih =>
    simp only [freeBusLoop, ends_bind, run_line, run_kickWatchdog, ends_ok]
    refine ends_of_returns (returns_probeFree_lines _) fun free t ⟨hout, hnow, htrace, hcfg, hstack⟩ => ?_
    have hint : Inside s₀ t := by rw [Inside, hstack]; exact hin
    dsimp only [kicked] at hnow htrace
    simp only [ends_ite, ends_bind, run_line, run_get, ends_ok, run_pure, run_log, ends_readReg]
    refine ⟨fun _ => ⟨hout, hnow, 1, Nat.le_refl 1, .inl htrace⟩,
      fun _ => ⟨fun _ _ => ⟨fun _ => ⟨hout, hnow, 1, Nat.le_refl 1, .inr (congrArg (· ++ _) htrace)⟩, fun _ => ?_⟩, fun _ => hint⟩⟩
    refine ends_delay fun n i k hn => ends_imp (ih (by exact hint)) fun _ u ⟨hfree, hlast, hkicks⟩ => ?_
    have hn : t.now ≤ n := hn
    have hlast : n + t.cfg.tProbeSettle ≤ u.now := hlast
    exact ⟨hfree, by omega, tracedKicks_after_kick htrace hkicks⟩

/-- A reset that returns has held RESET for its time and then freed the bus (R164 to R168). -/
theorem ends_busResetOp_freed (s : State) :
    Ends (Inside s) (fun _ t => t.out = 0 ∧ s.now + s.cfg.tResetHold + s.cfg.tProbeSettle ≤ t.now ∧ TracedKicks s t) (busResetOp s) := by
  simp only [busResetOp, resetPulse, ends_call, ends_bind, run_releaseLines, run_assertLines, run_line, run_get, ends_ok]
  refine ends_delay_lasts fun n i k hn => ?_
  have hn : s.now + s.cfg.tResetHold ≤ n := hn
  simp only [waitFreeBus, ends_call, ends_bind, run_get, ends_ok, run_setT0]
  refine ends_imp (ends_freeBusLoop_freed (s₀ := s) (by exact Nat.lt_add_of_pos_right Nat.two_pos)) fun _ t ⟨hout, hnow, hkicks⟩ => ?_
  have hnow : n + s.cfg.tProbeSettle ≤ t.now := hnow
  exact ⟨hout, (Nat.add_le_add_right hn _).trans hnow, hkicks⟩

end Sys2Proof.Machine
end

section
open Sys2Proof Sys2Proof.Machine

/-- Settles O43: a reset that has returned has come to the end of its attempts. -/
theorem resetAlwaysReleasesTheBus : Obligations.ResetAlwaysReleasesTheBus := by
  intro s t h hret
  cases (answer_eq_next busResetOp s t).mp h
  obtain ⟨-, hfreed⟩ := ends_of_returned frame_busResetOp (ends_busResetOp_freed s) hret
  exact hfreed
end

section
/-! PROOFS. The line writes at a line of an operation, read off what the log has grown by. -/

namespace Sys2Proof.Machine

variable {o : OpName} {log : List LineWrite}

/-- The writes of a log at line `k` of operation `o`. -/
def logAt (o : OpName) (k : Nat) (log : List LineWrite) : List LineWrite := log.filter fun w => w.loc == ⟨o, k⟩

theorem writesAt_of_log {s t : State} (h : t.lineLog = s.lineLog ++ log) (o : OpName) (k : Nat) : writesAt s t o k = logAt o k log := by
  rw [writesAt, h, List.drop_left, logAt]

@[simp] theorem logAt_nil (o : OpName) (k : Nat) : logAt o k [] = [] := rfl

@[simp] theorem logAt_append (o : OpName) (k : Nat) (log more : List LineWrite) : logAt o k (log ++ more) = logAt o k log ++ logAt o k more :=
  List.filter_append ..

@[simp] theorem logAt_cons (o : OpName) (k : Nat) (w : LineWrite) (log : List LineWrite) :
    logAt o k (w :: log) = if w.loc = ⟨o, k⟩ then w :: logAt o k log else logAt o k log := by
  simp [logAt, List.filter_cons]

/-- The writes of one operation are none of another. -/
theorem logAt_of_op {o' : OpName} (h : ∀ w ∈ log, w.loc.op = o') (hne : o' ≠ o) (k : Nat) : logAt o k log = [] :=
  List.filter_eq_nil_iff.mpr fun w hw => by
    simp only [beq_iff_eq]
    exact fun hloc => hne ((h w hw).symm.trans (congrArg Loc.op hloc))

end Sys2Proof.Machine
end

section
/-! PROOFS. Runs that no interrupt lengthens and no watchdog ends: what a run comes to, from what its parts come to. -/

namespace Sys2Proof.Machine

variable {α β : Type}

/-- The run returns, with `Q`. -/
@[irreducible] def Does (Q : α → State → Prop) : EStateM.Result Stop State α → Prop
  | .ok a t => Q a t
  | .error _ _ => False

variable {Q Q' : α → State → Prop} {s : State}

@[simp] theorem does_ok (a : α) (t : State) : Does Q (.ok a t) ↔ Q a t := by rw [Does]

@[simp] theorem does_error (e : Stop) (t : State) : ¬Does Q (.error e t) := by rw [Does]; exact id

theorem does_iff {x : EStateM.Result Stop State α} : Does Q x ↔ ∃ a t, x = .ok a t ∧ Q a t := by
  cases x with
  | ok a t => simp
  | error e t => simp

theorem does_imp {x : EStateM.Result Stop State α} (h : Does Q x) (hQ : ∀ a t, Q a t → Q' a t) : Does Q' x := by
  obtain ⟨a, t, rfl, hq⟩ := does_iff.mp h
  exact (does_ok ..).mpr (hQ a t hq)

/-- What an operation does is what its meaning answers. -/
theorem answer_of_does {m : Op α} (h : Does Q (m s)) : ∃ t, answer m s = .next t ∧ ∃ a, Q a t := by
  obtain ⟨a, t, hrun, hq⟩ := does_iff.mp h
  exact ⟨t, (answer_eq_next m s t).mpr (finalState_ok hrun), a, hq⟩

@[simp] theorem does_bind (m : Op β) (f : β → Op α) (s : State) :
    Does Q ((m >>= f) s) ↔ Does (fun b t => Does Q (f b t)) (m s) := by
  rw [run_bind]
  cases m s with
  | ok a t => simp
  | error e t => simp

@[simp] theorem does_ite (p : Prop) [Decidable p] (m k : Op α) (s : State) :
    Does Q ((if p then m else k) s) ↔ (p → Does Q (m s)) ∧ (¬p → Does Q (k s)) := by
  split <;> simp [*]

@[simp] theorem does_call (o : OpName) (m : Op α) (s : State) :
    Does Q (call o m s) ↔ Does (fun a t => Q a { t with pc := s.pc, stack := s.stack })
      (m { s with pc := ⟨o, 1⟩, stack := s.pc :: s.stack }) := by
  rw [run_call]
  cases m { s with pc := ⟨o, 1⟩, stack := s.pc :: s.stack } with
  | ok a t => simp
  | error e t => simp

@[simp] theorem does_readReg (g : State → Option α) (s : State) : Does Q (readReg g s) ↔ ∃ a, g s = some a ∧ Q a s := by
  unfold readReg
  cases g s with
  | some a => simp
  | none => simp

@[simp] theorem does_memReadByte {Q : Byte → State → Prop} (i : Nat) (s : State) :
    Does Q (memReadByte i s) ↔ i < s.cfg.bufCap ∧ Q (peek s i) s := by
  unfold memReadByte
  split <;> simp [*]

/-! ### Time and the waits -/

/-- The interrupt sources lengthen none of the next `k` delays, of which `l` says by how much (R256). -/
def Quiet (k : Nat) (l : List Nat) : Prop := ∃ later, l = List.replicate k 0 ++ later

theorem quiet_mono {j k : Nat} {l : List Nat} (h : j ≤ k) (hq : Quiet k l) : Quiet j l := by
  obtain ⟨later, rfl⟩ := hq
  exact ⟨List.replicate (k - j) 0 ++ later, by rw [← List.append_assoc, List.replicate_append_replicate, Nat.add_sub_cancel' h]⟩

theorem quiet_drop {j k : Nat} {l : List Nat} (hq : Quiet (k + j) l) : Quiet k (l.drop j) := by
  obtain ⟨later, rfl⟩ := hq
  exact ⟨later, by simp [List.drop_append, List.drop_replicate]⟩

variable {k : Nat}

/-- A delay takes its length (R110). -/
theorem does_delay {Q : Unit → State → Prop} {d : Nat} (hq : Quiet (k + 1) s.irq) (hd : s.now + d ≤ deadline s)
    (h : ∀ l, Quiet k l → Q () { s with now := s.now + d, irq := l }) : Does Q (delay d s) := by
  rw [run_delay_quiet (quiet_mono (by omega) hq) hd, does_ok]
  exact h _ (quiet_drop hq)

/-- A wait whose condition holds at its first sample takes no time (R111). -/
theorem does_waitUntil_first {Q : Bool → State → Prop} {c : State → Bool} {T : Nat} (hc : BusOnly c) (hd : s.now ≤ deadline s)
    (hyes : c s = true) (h : Q true s) : Does Q (waitUntil c T s) := by
  have hrun := run_waitUntil_hits hc 0 (T := T) (s := s) (one_le_sampleCount _ _) (quietFor_zero s) (by simpa using hd) nofun
    (by simpa using hyes)
  rw [Nat.zero_mul, passed_zero] at hrun
  rwa [hrun, does_ok]

/-- A wait whose condition holds at its second sample takes one poll (R111). -/
theorem does_waitUntil_second {Q : Bool → State → Prop} {c : State → Bool} {T : Nat} (hc : BusOnly c)
    (hsamples : 2 ≤ sampleCount T s.cfg.tPoll) (hq : Quiet (k + 1) s.irq) (hd : s.now + s.cfg.tPoll ≤ deadline s) (hno : c s = false)
    (hyes : c { s with now := s.now + s.cfg.tPoll } = true)
    (h : ∀ l, Quiet k l → Q true { s with now := s.now + s.cfg.tPoll, irq := l }) : Does Q (waitUntil c T s) := by
  rw [run_waitUntil_second hc hsamples (quiet_mono (by omega) hq) hd hno hyes, does_ok]
  exact h _ (quiet_drop hq)

/-- A wait whose condition holds at no sample takes them all (R111). -/
theorem does_waitUntil_misses {Q : Bool → State → Prop} {c : State → Bool} {T : Nat} (hc : BusOnly c)
    (hq : Quiet (k + sampleCount T s.cfg.tPoll) s.irq) (hd : s.now + sampleCount T s.cfg.tPoll * s.cfg.tPoll ≤ deadline s)
    (hno : ∀ i, i < sampleCount T s.cfg.tPoll → c { s with now := s.now + i * s.cfg.tPoll } = false)
    (h : ∀ l, Quiet k l → Q false { s with now := s.now + sampleCount T s.cfg.tPoll * s.cfg.tPoll, irq := l }) :
    Does Q (waitUntil c T s) := by
  rw [run_waitUntil_misses hc (quiet_mono (by omega) hq) hd hno, does_ok]
  exact h _ (quiet_drop hq)

/-- A wait with kicks whose condition holds at its first sample kicks once (R112). -/
theorem does_waitUntilKick_first {Q : Bool → State → Prop} {c : State → Bool} {T : Nat} (hc : BusOnly c) (hyes : c s = true)
    (h : Q true (kicked s)) : Does Q (waitUntilKick c T s) := by
  rwa [run_waitUntilKick_first hc hyes, does_ok]

/-- A wait without a bound whose condition holds at its first sample takes no time (R113). -/
theorem does_waitForever_first {Q : Unit → State → Prop} {c : State → Bool} (hc : BusOnly c) (hd : s.now ≤ deadline s)
    (hyes : c s = true) (h : Q () s) : Does Q (waitForever c s) := by
  have hrun := run_waitForever_hits hc 0 (s := s) (.inl (by decide)) (quietFor_zero s) (by simpa using hd) nofun (by simpa using hyes)
  rw [Nat.zero_mul, passed_zero] at hrun
  rwa [hrun, does_ok]

/-- A wait without a bound whose condition holds at its second sample takes one poll (R113). -/
theorem does_waitForever_second {Q : Unit → State → Prop} {c : State → Bool} (hc : BusOnly c) (hq : Quiet (k + 1) s.irq)
    (hd : s.now + s.cfg.tPoll ≤ deadline s) (hno : c s = false) (hyes : c { s with now := s.now + s.cfg.tPoll } = true)
    (h : ∀ l, Quiet k l → Q () { s with now := s.now + s.cfg.tPoll, irq := l }) : Does Q (waitForever c s) := by
  have hrun := run_waitForever_hits hc 1 (s := s) (.inl (Nat.le_refl 1)) (quiet_mono (by omega) hq) (by rwa [Nat.one_mul])
    (fun i hi => by rw [← hno]; exact hc _ _ rfl rfl (by simp [Nat.lt_one_iff.mp hi])) (by rwa [Nat.one_mul])
  rw [Nat.one_mul] at hrun
  rw [hrun, does_ok]
  exact h _ (quiet_drop hq)

end Sys2Proof.Machine
end

section
/-! PROOFS. `reset` with a drive that answers the first probe (R164 to R167). -/

namespace Sys2Proof.Machine

/-- The drive answers a probe that begins at the present: DATA is free after the settle time, pulled once ATN has been asserted for its
time, and free again when the release time has passed (R167). -/
def Answers (s : State) : Prop :=
  floats s .data (s.now + s.cfg.tProbeSettle) ∧ pulled s .data (s.now + s.cfg.tProbeSettle + s.cfg.tProbeAtn) ∧
  floats s .data (s.now + s.cfg.tProbeSettle + s.cfg.tProbeAtn + s.cfg.tProbeRelease)

/-- A probe that is answered finds the bus free, with every line released (R167). -/
theorem does_probeFree_answered {Q : Bool → State → Prop} {s : State} (hq : Quiet 3 s.irq)
    (hd : s.now + s.cfg.tProbeSettle + s.cfg.tProbeAtn + s.cfg.tProbeRelease ≤ deadline s) (h : Answers s)
    (hQ : ∀ l log, (∀ w ∈ log, w.loc.op = .probeFree) → Q true { s with
      now := s.now + s.cfg.tProbeSettle + s.cfg.tProbeAtn + s.cfg.tProbeRelease
      irq := l
      out := 0
      lineLog := s.lineLog ++ log }) : Does Q (probeFree s) := by
  obtain ⟨hfree, hanswer, hagain⟩ := h
  have hall : ∀ o : Lines, o &&& ~~~(lineMask .data ||| lineMask .clock ||| lineMask .atn ||| lineMask .reset) = 0 := by decide
  have hatn : (0 ||| lineMask .atn) &&& ~~~lineMask .atn = 0 := by decide
  have hnone : (0 : Lines) &&& lineMask .data = 0 := by decide
  have hd2 : s.now + s.cfg.tProbeSettle + s.cfg.tProbeAtn ≤ deadline s := Nat.le_of_add_right_le hd
  simp only [probeFree, does_call, does_bind, run_releaseLines, run_line, run_get, does_ok, hall]
  refine does_delay (k := 2) hq (Nat.le_of_add_right_le hd2) fun l hl => ?_
  simp only [run_line, run_get, does_ok, does_ite, does_bind, run_assertLines, run_pure]
  refine ⟨fun hpulled => ?_, fun _ => does_delay (k := 1) hl hd2 fun l hl => ?_⟩
  · rw [asserted_of_floats hfree hnone] at hpulled
    cases hpulled
  simp only [does_ok, run_releaseLines, hatn]
  refine ⟨fun hmissed => ?_, fun _ => does_delay (k := 0) hl hd fun l hl => ?_⟩
  · rw [not_released_of_pulled hanswer] at hmissed
    cases hmissed
  rw [released_of_floats hagain hnone]
  simpa only [List.append_assoc] using hQ l
    ([⟨s.now, ⟨.probeFree, 1⟩, 0⟩] ++ ([⟨s.now + s.cfg.tProbeSettle, ⟨.probeFree, 4⟩, 0 ||| lineMask .atn⟩] ++
      [⟨s.now + s.cfg.tProbeSettle + s.cfg.tProbeAtn, ⟨.probeFree, 7⟩, 0⟩])) (by simp)

/-- What a reset whose first probe is answered leaves, with the writes `log` of the probe (R164 to R167). -/
def resetDone (s : State) (l : List Nat) (log : List LineWrite) : State :=
  { s with
    now := s.now + s.cfg.tResetHold + s.cfg.tProbeSettle + s.cfg.tProbeAtn + s.cfg.tProbeRelease
    irq := l
    out := 0
    lineLog := s.lineLog ++ ([⟨s.now, ⟨.reset, 1⟩, s.out &&& lineMask .reset⟩,
      ⟨s.now, ⟨.reset, 2⟩, (s.out &&& lineMask .reset) ||| lineMask .reset⟩, ⟨s.now + s.cfg.tResetHold, ⟨.reset, 4⟩, 0⟩] ++ log)
    t0 := some (s.now + s.cfg.tResetHold)
    wdtLast := s.now + s.cfg.tResetHold
    trace := s.trace ++ [Event.kick] }

/-- Where the first probe is answered, that is what a reset leaves (R164 to R167). -/
theorem does_busResetOp_answered {s : State} (hq : Quiet 4 s.irq) (hhold : s.now + s.cfg.tResetHold ≤ deadline s)
    (hprobe : s.cfg.tProbeSettle + s.cfg.tProbeAtn + s.cfg.tProbeRelease ≤ s.cfg.tWdt)
    (h : Answers { s with now := s.now + s.cfg.tResetHold }) :
    Does (fun _ t => ∃ l log, (∀ w ∈ log, w.loc.op = .probeFree) ∧ t = resetDone s l log) (busResetOp s) := by
  have hothers : ∀ o : Lines, o &&& ~~~(lineMask .data ||| lineMask .clock ||| lineMask .atn) = o &&& lineMask .reset := by decide
  have hreset : ∀ o : Lines, (o &&& lineMask .reset ||| lineMask .reset) &&& ~~~lineMask .reset = 0 := by decide
  simp only [busResetOp, resetPulse, does_call, does_bind, run_releaseLines, run_assertLines, run_line, run_get, does_ok, hothers]
  refine does_delay (k := 3) hq hhold fun l hl => ?_
  simp only [waitFreeBus, freeBusLoop, does_call, does_bind, run_line, run_get, run_setT0, run_kickWatchdog, kicked,
    does_ok, hreset]
  refine does_probeFree_answered hl ?_ h fun l log hlog => ?_
  · simp only [deadline]
    omega
  · simp only [run_pure, does_ok, if_true]
    exact ⟨l, log, hlog, by simp [resetDone]⟩

/-- `BUS_RESET` leaves what `reset` leaves (R224). -/
theorem exec_busReset_answered {s : State} {i : Instr} (hi : i = .reset ∨ i = .busReset) (hq : Quiet 4 s.irq)
    (hhold : s.now + s.cfg.tResetHold ≤ deadline s)
    (hprobe : s.cfg.tProbeSettle + s.cfg.tProbeAtn + s.cfg.tProbeRelease ≤ s.cfg.tWdt)
    (h : Answers { s with now := s.now + s.cfg.tResetHold }) :
    ∃ l log, (∀ w ∈ log, w.loc.op = .probeFree) ∧ exec i s = .next (resetDone s l log) := by
  rcases hi with rfl | rfl
  · obtain ⟨t, ht, -, l, log, hlog, rfl⟩ := answer_of_does (does_busResetOp_answered hq hhold hprobe h)
    exact ⟨l, log, hlog, ht⟩
  · have hcall : Does (fun _ t => ∃ l log, (∀ w ∈ log, w.loc.op = .probeFree) ∧ t = resetDone s l log) (busResetCommandOp s) :=
      (does_call ..).mpr (does_imp (does_busResetOp_answered hq hhold hprobe h) fun _ _ ⟨l, log, hlog, e⟩ => ⟨l, log, hlog, by rw [e]; rfl⟩)
    obtain ⟨t, ht, -, l, log, hlog, rfl⟩ := answer_of_does hcall
    exact ⟨l, log, hlog, ht⟩

end Sys2Proof.Machine
end

section
open Sys2Proof Sys2Proof.Machine

/-- Settles O42: of the writes of an answered reset, the first three are its own and the others those of the probe. -/
theorem resetFindsDrive : Obligations.ResetFindsDrive := by
  intro s i hi hq hhold hprobe hfree hanswer hagain
  obtain ⟨l, log, hlog, hrun⟩ := exec_busReset_answered hi hq hhold hprobe ⟨hfree, hanswer, hagain⟩
  have hnone : ∀ k, logAt .reset k log = [] := logAt_of_op hlog (by decide)
  refine ⟨_, hrun, ⟨rfl, rfl, rfl, rfl⟩, rfl, rfl, rfl, rfl, rfl, ?_, ?_⟩
  · rw [writesAt_of_log rfl]
    simp [hnone]
  · rw [writesAt_of_log rfl]
    simp [hnone]
end

section
/-! PROOFS. `write` without a listener, and to a listener that answers every wait (R140): what they do and what they put on the bus. -/

namespace Sys2Proof.Machine

variable {α : Type} {k : Nat} {s₀ s : State}

/-- An operation that is called and returns is back at its caller, with no fault and no reset (R33). -/
theorem does_call_returned {may : List Part} {o : OpName} {m : Op α} {Q : α → State → Prop} (hm : Within (Frame may) (call o m))
    (h : Does Q (call o m s)) : Does (fun a t => returned s t ∧ Q a t) (call o m s) := by
  obtain ⟨a, t, hrun, hq⟩ := does_iff.mp h
  have hframe := hm s
  rw [hrun] at hframe
  obtain ⟨hpc, hstack⟩ := call_returns hrun
  rw [hrun, does_ok]
  exact ⟨⟨frame_resets hframe, frame_fault hframe, hpc, hstack⟩, hq⟩

/-! ### The claim -/

/-- The lines of the claim: DATA released, CLOCK asserted, and ATN where it is asked for (R140 lines 2 and 3). -/
def claimOut (o : Lines) (atn : Bool) : Lines := o &&& ~~~lineMask .data ||| (lineMask .clock ||| if atn then lineMask .atn else 0)

/-- The state in which a write from `s` waits for its listeners (R140 line 4). -/
def claimed (s : State) (atn : Bool) : State :=
  { s with
    eoi := false
    out := claimOut s.out atn
    lineLog := s.lineLog ++ [⟨s.now, ⟨.write, 2⟩, s.out &&& ~~~lineMask .data⟩, ⟨s.now, ⟨.write, 3⟩, claimOut s.out atn⟩]
    pc := ⟨.write, 4⟩
    stack := s.pc :: s.stack }

/-- The bus is claimed (R140 lines 2 and 3). -/
theorem claims_claimed (s : State) (atn : Bool) : Claims s (claimed s atn) := claim_lines s.out atn

/-- A write does what its claim leads to: with a listener its bytes, without one its failure (R140 lines 4 and 5). -/
theorem does_writeOp {Q : Nat → State → Prop} {base n : Nat} {atn talk : Bool}
    (h : Does (fun found u => Does (fun c v => Q c { v with pc := s.pc, stack := s.stack })
        ((if found then writeBytes base n atn talk n 0 else deviceAbsent) { u with ok := some found, pc := ⟨u.pc.op, 5⟩ }))
      (waitUntil (asserted .data) s.cfg.tListenClaim (claimed s atn))) : Does Q (writeOp base n atn talk s) := by
  simp only [writeOp, does_call, does_bind, setEoi, run_line, does_ok, run_releaseLines, run_assertLines, run_get]
  simp only [claimed, claimOut] at h
  refine does_imp (by simpa only [List.append_assoc, List.cons_append, List.nil_append] using h) fun found u hu => ?_
  simpa only [run_setOk, run_line, does_ok, does_readReg, Option.some.injEq, exists_eq_left'] using hu

/-- An engine that has claimed the bus does not pull DATA. -/
theorem claim_frees_data {o r : Lines} (h : o &&& ~~~lineMask .atn = (r &&& lineMask .reset) ||| lineMask .clock) :
    o &&& lineMask .data = 0 := by
  revert o r; decide

/-- Where no device pulls DATA in the claim window, the write fails with one `DeviceAbsent` and nothing sent (R142, R151). -/
theorem does_writeOp_absent {base n : Nat} {atn talk : Bool}
    (hq : quietFor (sampleCount s.cfg.tListenClaim s.cfg.tPoll) s)
    (hd : s.now + sampleCount s.cfg.tListenClaim s.cfg.tPoll * s.cfg.tPoll ≤ deadline s)
    (hno : ∀ i, i < sampleCount s.cfg.tListenClaim s.cfg.tPoll → floats s .data (s.now + i * s.cfg.tPoll)) :
    Does (fun _ t => t.cnt = some 0 ∧ t.eoi = false ∧ t.out = s.out &&& lineMask .reset ∧ t.trace = s.trace ++ [Event.deviceAbsent] ∧
      writesAt s t .sendByte 6 = []) (writeOp base n atn talk s) := by
  have hclaims : Claims s (claimed s atn) := claims_claimed s atn
  refine does_writeOp (does_waitUntil_misses (k := 0) (busOnly_asserted .data) (by rwa [Nat.zero_add]) hd
    (fun i hi => asserted_of_floats (s := { claimed s atn with now := s.now + i * s.cfg.tPoll }) (hno i hi) (claim_frees_data hclaims))
    fun l _ => ?_)
  simp only [Bool.false_eq_true, if_false, deviceAbsent, returnCount, does_bind, run_releaseLines, run_log, run_setCnt, run_pure, does_ok]
  refine ⟨trivial, rfl, release_claim hclaims, rfl, ?_⟩
  rw [writesAt_of_log (List.append_assoc ..)]
  simp [claimed]

end Sys2Proof.Machine
end

section
open Sys2Proof Sys2Proof.Machine

/-- Settles O33: the claim window passes with DATA free, so the write fails before it has sent anything. -/
theorem writeWithoutListener : Obligations.WriteWithoutListener := by
  intro s base n atn talk hfree hq hd
  have hsamples : ∀ i, i < sampleCount s.cfg.tListenClaim s.cfg.tPoll → floats s .data (s.now + i * s.cfg.tPoll) := fun i hi =>
    hfree _ (Nat.le_add_right _ _) (Nat.add_le_add_left (Nat.mul_le_mul_right _ hi.le) _)
  obtain ⟨t, ht, -, hshown⟩ := answer_of_does (does_call_returned (frame_writeOp base n.toNat atn talk) (does_writeOp_absent hq hd hsamples))
  exact ⟨t, ht, hshown⟩
end

section
/-! PROOFS. `write` to a listener that answers every wait (R140 to R149): one byte, all bytes, the hand-off. -/

namespace Sys2Proof.Machine

variable {k : Nat} {s₀ s : State}

/-! ### What a write shows on the bus -/

/-- What a part of a write has put on the bus: the bits of its windows, ATN at `a` in each of them, no claim, and the hand-offs (R140
lines 3, 15, 18). -/
def Shows (bits : List Bool) (a : Bool) (handOffs : List (Nat × Lines)) (log : List LineWrite) : Prop :=
  (logAt .sendByte 6 log).map (fun w => w.out.getLsbD 0) = bits ∧ (∀ w ∈ logAt .sendByte 6 log, w.out.getLsbD 2 = a) ∧
  logAt .write 3 log = [] ∧ (logAt .write 18 log).map (fun w => (w.time, w.out)) = handOffs

theorem shows_append {bits bits' : List Bool} {a : Bool} {hands hands' : List (Nat × Lines)} {log log' : List LineWrite}
    (h : Shows bits a hands log) (h' : Shows bits' a hands' log') : Shows (bits ++ bits') a (hands ++ hands') (log ++ log') := by
  obtain ⟨hbits, hatn, hclaim, hhand⟩ := h
  obtain ⟨hbits', hatn', hclaim', hhand'⟩ := h'
  refine ⟨?_, ?_, ?_, ?_⟩
  · rw [logAt_append, List.map_append, hbits, hbits']
  · rw [logAt_append, List.forall_mem_append]
    exact ⟨hatn, hatn'⟩
  · rw [logAt_append, hclaim, hclaim', List.append_nil]
  · rw [logAt_append, List.map_append, hhand, hhand']

/-- Writes at other lines of `write` show nothing. -/
theorem shows_nothing {log : List LineWrite} (a : Bool) (h : ∀ w ∈ log, w.loc.op = .write ∧ w.loc.line ≠ 3 ∧ w.loc.line ≠ 18) :
    Shows [] a [] log := by
  have hsend : logAt .sendByte 6 log = [] := logAt_of_op (fun w hw => (h w hw).1) (by decide) 6
  have hother : ∀ l, (l = 3 ∨ l = 18) → logAt .write l log = [] := fun l hl => List.filter_eq_nil_iff.mpr fun w hw => by
    obtain ⟨-, h3, h18⟩ := h w hw
    rw [beq_iff_eq]
    intro hloc
    rw [hloc] at h3 h18
    exact hl.elim h3 h18
  exact ⟨by rw [hsend]; rfl, by rw [hsend]; nofun, hother 3 (.inl rfl), by rw [hother 18 (.inr rfl)]; rfl⟩

theorem bitOut_atn (o : Lines) (bit : Bool) : (bitOut o bit).getLsbD 2 = o.getLsbD 2 := by
  revert o bit; decide

/-- The windows of a byte show its bits, bit 0 first, with ATN as it was before them (R86, R116). -/
theorem shows_of_windows {c : Params} {o : Lines} {u : Nat} {v : Byte} {log : List LineWrite} (hop : ∀ w ∈ log, w.loc.op = .sendByte)
    (h : Windows c o u (lowBits v 8) (sendWrites 6 log) (sendWrites 8 log)) (ho : o.getLsbD 0 = false) :
    Shows (byteOnWire v) (o.getLsbD 2) [] log := by
  have hatn := windows_starts_out (fun out => out.getLsbD 2) h ho
  simp only [bitOut_atn] at hatn
  refine ⟨?_, fun w hw => ?_, logAt_of_op hop (by decide) 3, by rw [logAt_of_op hop (by decide) 18]; rfl⟩
  · change (sendWrites 6 log).map (fun w => w.out.getLsbD 0) = byteOnWire v
    rw [windows_starts_out (fun out => out.getLsbD 0) h ho, lowBits, List.map_map]
    simp only [bitOut_data ho]
    rfl
  · have hmem := List.mem_map_of_mem (f := fun w : LineWrite => w.out.getLsbD 2) hw
    change w.out.getLsbD 2 ∈ (sendWrites 6 log).map fun w => w.out.getLsbD 2 at hmem
    rw [hatn, List.mem_map] at hmem
    obtain ⟨_, -, he⟩ := hmem
    exact he.symm

/-! ### One byte -/

/-- The lines of the claim are those that a bit ends with. -/
theorem bitDone_claim {o r : Lines} (h : o &&& ~~~lineMask .atn = (r &&& lineMask .reset) ||| lineMask .clock) : bitDone o = o := by
  revert o r; decide

/-- With CLOCK released for the listener the engine still does not pull DATA, and asserting CLOCK again restores the claim (R140 lines 9
and 14). -/
theorem claim_clock {o r : Lines} (h : o &&& ~~~lineMask .atn = (r &&& lineMask .reset) ||| lineMask .clock) :
    (o &&& ~~~lineMask .clock) &&& lineMask .data = 0 ∧ (o &&& ~~~lineMask .clock) ||| lineMask .clock = o ∧ o.getLsbD 0 = false := by
  revert o r; decide

/-- `send_byte` with the claim's lines, to a listener that holds DATA when the bits end (R116). -/
theorem does_sendByte_claimed {Q : Bool → State → Prop} {v : Byte} (h : Claims s₀ s) (hq : Quiet (k + 16) s.irq)
    (hd : s.now + bitsTime s.cfg ≤ deadline s) (hack : pulled s .data (s.now + bitsTime s.cfg))
    (hQ : ∀ l log, Quiet k l → Shows (byteOnWire v) (s.out.getLsbD 2) [] log → Q true { s with
      now := s.now + bitsTime s.cfg, irq := l, lineLog := s.lineLog ++ log, sr := some 0, bitn := some 8, ok := some true,
      ieSaved := s.ie }) : Does Q (sendByte v s) := by
  obtain ⟨log', hrun⟩ := run_sendByte_acknowledged v (quiet_mono (by omega) hq) hd hack
  obtain ⟨log, hlog, hop, hwindows⟩ := sendByte_returns hrun
  obtain ⟨-, -, hdata⟩ := claim_clock h
  have hlog : log' = s.lineLog ++ log := hlog
  rw [hrun, does_ok, hlog]
  have := hQ _ log (quiet_drop hq) (shows_of_windows hop hwindows hdata)
  simpa [sentByte, passed, bitDone_claim h] using this

/-- A listener that answers the EOI handshake at the engine's second samples: where the byte carries EOI it pulls DATA one poll after the
flow control and frees it another poll later (R146, R147). -/
def Handshakes (s : State) : Prop :=
  floats s .data s.now ∧ pulled s .data (s.now + s.cfg.tPoll) ∧ floats s .data (s.now + 2 * s.cfg.tPoll)

/-- The EOI handshake takes two polls on the last byte that is not under ATN, and no time on the others (R140 lines 11 to 13). -/
theorem does_eoiHandshake {Q : Unit → State → Prop} {n i : Nat} {atn last : Bool} (hidx : s.idx = some i)
    (hlast : i + 1 = n ∧ atn = false ↔ last = true) (ho : s.out &&& lineMask .data = 0) (hq : Quiet (k + 2) s.irq)
    (hd : s.now + (if last then 2 * s.cfg.tPoll else 0) ≤ deadline s) (h : last = true → Handshakes s)
    (hQ : ∀ m l, Quiet k l → Q () { s with
      now := s.now + (if last then 2 * s.cfg.tPoll else 0), irq := l, pc := ⟨s.pc.op, m⟩, idx := some i }) : Does Q (eoiHandshake n atn s) := by
  simp only [eoiHandshake, does_bind, run_line, does_ok, does_readReg, hidx, Option.some.injEq, exists_eq_left', does_ite, run_pure, hlast]
  cases last with
  | false => exact ⟨nofun, fun _ => by simpa using hQ 11 s.irq (quiet_mono (by omega) hq)⟩
  | true =>
    obtain ⟨hfree, hpulled, hagain⟩ := h rfl
    simp only [if_true, Nat.two_mul, ← Nat.add_assoc] at hd hagain
    refine ⟨fun _ => ?_, fun hno => absurd rfl hno⟩
    refine does_waitForever_second (k := k + 1) (busOnly_asserted .data) hq (Nat.le_of_add_right_le hd) (asserted_of_floats hfree ho)
      (asserted_of_pulled hpulled) fun l hl => ?_
    refine does_waitForever_second (k := k) (busOnly_released .data) hl hd (not_released_of_pulled hpulled)
      (released_of_floats hagain ho) fun l hl => ?_
    simpa only [if_true, Nat.two_mul, ← Nat.add_assoc] using hQ 13 l hl

end Sys2Proof.Machine
end

section
/-! PROOFS. `write` to a listener that answers every wait: the loop over its bytes, the hand-off, and the whole write (R140 to R154). -/

namespace Sys2Proof.Machine

variable {k : Nat} {s₀ s : State}

/-- The state after byte `i` of a write, sent from `s` with the line writes `log` (R140 lines 6 to 16). -/
def wroteByte (s : State) (i : Nat) (last : Bool) (l : List Nat) (log : List LineWrite) : State :=
  { s with
    now := byteEnd s.cfg s.now last
    irq := l
    idx := some i
    sr := some 0
    bitn := some 8
    ok := some true
    ieSaved := s.ie
    lineLog := s.lineLog ++ log
    trace := s.trace ++ [Event.status]
    pc := ⟨s.pc.op, 16⟩ }

/-- A listener that answers the waits of one byte from the present on (R142 to R148). -/
def HearsByte (s : State) (last : Bool) : Prop :=
  pulled s .data (s.now + s.cfg.tByteSettle) ∧ floats s .data (s.now + s.cfg.tByteSettle + s.cfg.tPoll) ∧
  (last = true → Handshakes { s with now := s.now + s.cfg.tByteSettle + s.cfg.tPoll }) ∧
  pulled s .data (byteEnd s.cfg s.now last)

/-- Byte `i` of a write to such a listener is sent, and the write goes on to the next (R140 lines 6 to 16). -/
theorem does_writeBytes_succ {Q : Nat → State → Prop} {base n i k' : Nat} {atn talk last : Bool} (hclaims : Claims s₀ s)
    (hop : s.pc.op = .write) (hlast : i + 1 = n ∧ atn = false ↔ last = true) (hcap : base + i < s.cfg.bufCap)
    (hq : Quiet (k + 20) s.irq) (hd : byteEnd s.cfg s.now last ≤ deadline s) (hhears : HearsByte s last)
    (hnext : ∀ l log, Quiet k l → Shows (byteOnWire (peek s (base + i))) (s.out.getLsbD 2) [] log →
      Does Q (writeBytes base n atn talk k' (i + 1) (wroteByte s i last l log))) :
    Does Q (writeBytes base n atn talk (k' + 1) i s) := by
  obtain ⟨hheld, hfree, hshake, hack⟩ := hhears
  obtain ⟨hdata, hrestored, -⟩ := claim_clock hclaims
  simp only [byteEnd] at hd hack
  have hd3 : s.now + s.cfg.tByteSettle + s.cfg.tPoll + (if last then 2 * s.cfg.tPoll else 0) ≤ deadline s := Nat.le_of_add_right_le hd
  have hd2 : s.now + s.cfg.tByteSettle + s.cfg.tPoll ≤ deadline s := Nat.le_of_add_right_le hd3
  simp only [writeBytes, does_bind, run_line, does_ok, run_setIdx, run_get]
  refine does_delay (k := k + 19) hq (Nat.le_of_add_right_le hd2) fun l hl => ?_
  simp only [does_ite, does_bind, run_line, does_ok, run_releaseLines]
  refine ⟨fun hgone => ?_, fun _ => ?_⟩
  · rw [not_released_of_pulled hheld] at hgone
    cases hgone
  refine does_waitForever_second (k := k + 18) (busOnly_released .data) hl hd2 (not_released_of_pulled hheld)
    (released_of_floats hfree hdata) fun l hl => ?_
  refine does_eoiHandshake (k := k + 16) (i := i) rfl hlast hdata hl hd3 hshake fun m l hl => ?_
  simp only [does_ok, run_assertLines, does_readReg, Option.some.injEq, exists_eq_left', does_memReadByte, hrestored, hop]
  refine ⟨hcap, does_sendByte_claimed (s₀ := s₀) (k := k) (by exact hclaims) hl hd hack fun l log hl hlog => ?_⟩
  simp only [run_statusHook, does_ok, forall_const, not_true_eq_false, false_imp_iff, and_true]
  have hshows : Shows (byteOnWire (peek s (base + i))) (s.out.getLsbD 2) []
      ([⟨s.now + s.cfg.tByteSettle, ⟨.write, 9⟩, s.out &&& ~~~lineMask .clock⟩] ++
        [⟨s.now + s.cfg.tByteSettle + s.cfg.tPoll + (if last then 2 * s.cfg.tPoll else 0), ⟨.write, 14⟩, s.out⟩] ++ log) :=
    shows_append (shows_nothing _ (by simp)) hlog
  simpa only [wroteByte, byteEnd, hop, List.append_assoc] using hnext l _ hl hshows

/-- ATN in the claim's lines: where it is asked for, or was asserted before (R140 line 3). -/
theorem claimOut_atn (o : Lines) (atn : Bool) : (claimOut o atn).getLsbD 2 = (atn || o.getLsbD 2) := by
  revert o atn; decide

/-! ### The end of the write -/

/-- The line write of the hand-off, where there is one: it asserts DATA and releases CLOCK and ATN (R149). -/
def handOffs (s₀ : State) (talk : Bool) (u : Nat) : List (Nat × Lines) :=
  if talk then [(u, (s₀.out &&& lineMask .reset) ||| lineMask .data)] else []

/-- What is left to do of a write of `n` bytes that began in `s₀`, done from `s` to `t`: its last `k` bytes, with the bits `bits`, and its
end at time `u` (R140, R154). -/
def Finishes (s₀ : State) (n : Nat) (talk : Bool) (u k : Nat) (bits : List Bool) (s t : State) : Prop :=
  t.cnt = some n ∧ t.eoi = s.eoi ∧ t.trace = s.trace ++ List.replicate k Event.status ∧ t.now = u ∧
  t.out = (s₀.out &&& lineMask .reset) ||| (if talk then lineMask .data else lineMask .clock) ∧
  ∃ log, t.lineLog = s.lineLog ++ log ∧ Shows bits (s.out.getLsbD 2) (handOffs s₀ talk u) log

/-- The hand-off to a talker that holds CLOCK, or the release of ATN, and the count (R140 lines 17 to 22). -/
theorem does_finishWrite {n : Nat} {talk : Bool} (hclaims : Claims s₀ s) (hop : s.pc.op = .write) (hd : s.now ≤ deadline s)
    (hclock : talk = true → pulled s .clock s.now) :
    Does (fun _ t => Finishes s₀ n talk s.now 0 [] s t) (finishWrite n talk s) := by
  cases talk with
  | false =>
    simp only [finishWrite, handOff, returnCount, does_bind, run_line, run_releaseLines, run_setCnt, run_pure, does_ok,
      Bool.false_eq_true, if_false]
    exact ⟨rfl, rfl, (List.append_nil _).symm, rfl, hclaims, _, rfl, shows_nothing _ (by simp [hop])⟩
  | true =>
    simp only [finishWrite, handOff, returnCount, does_bind, run_line, run_setReleaseLines, run_setCnt, run_pure, does_ok, if_true]
    refine does_waitForever_first (busOnly_asserted .clock) hd (asserted_of_pulled (hclock rfl)) ?_
    refine ⟨rfl, rfl, (List.append_nil _).symm, rfl, handOff_claim hclaims, _, rfl, ?_⟩
    rw [handOff_claim hclaims, hop]
    exact ⟨rfl, nofun, rfl, rfl⟩

/-- A write does not end before its present byte. -/
theorem le_listenEnd (c : Params) (eoi : Bool) (u k : Nat) : u ≤ listenEnd c eoi u k := by
  induction k generalizing u with
  | zero => exact Nat.le_refl u
  | succ k ih =>
    refine Nat.le_trans ?_ (ih (byteEnd c u (eoi && k == 0)))
    simp only [byteEnd, Nat.add_assoc]
    exact Nat.le_add_right _ _

/-- What a listener does is fixed by the parameters and the bus input. -/
theorem listens_of_eq {t : State} {eoi : Bool} {u : Nat} (h : listens s eoi u k) (hc : t.cfg = s.cfg) (hb : t.bus = s.bus) :
    listens t eoi u k := by
  induction k generalizing u with
  | zero =>
    simp only [listens, pulled, hb] at h ⊢
    exact h
  | succ k ih =>
    obtain ⟨hheld, hpulled, hfree, hshake, hrest⟩ := h
    simp only [listens, pulled, floats, hc, hb]
    exact ⟨hheld, hpulled, hfree, hshake, ih hrest⟩

/-- A listener for `k` bytes pulls DATA at the present. -/
theorem pulled_of_listens {eoi : Bool} {u k : Nat} (h : listens s eoi u k) : pulled s .data u := by
  cases k with
  | zero => exact h
  | succ k =>
    obtain ⟨hheld, -⟩ := h
    exact hheld

/-- A listener for `k + 1` bytes hears the present one. -/
theorem hearsByte_of_listens {eoi : Bool} (h : listens s eoi s.now (k + 1)) : HearsByte s (eoi && k == 0) := by
  obtain ⟨-, hheld, hfree, hshake, hrest⟩ := h
  have hpoll : ∀ u m : Nat, u + (m + 1) * s.cfg.tPoll = u + s.cfg.tPoll + m * s.cfg.tPoll := fun u m => by
    rw [Nat.succ_mul, Nat.add_assoc, Nat.add_comm (m * _)]
  refine ⟨hheld, hfree, fun hlast => ⟨hfree, ?_, ?_⟩, pulled_of_listens hrest⟩
  · simpa [hpoll, pulled] using (hshake hlast).1
  · simpa [hpoll, floats] using (hshake hlast).2

/-- The bits of the bytes of a write from index `i` on, `k` of them. -/
def bitsFrom (s : State) (base i k : Nat) : List Bool := (List.range' i k).flatMap fun j => byteOnWire (peek s (base + j))

/-- All bytes of a write to a listener that answers every wait, and its end (R140 lines 6 to 22). -/
theorem does_writeBytes_listened {base n i : Nat} {atn talk : Bool} (hclaims : Claims s₀ s) (hop : s.pc.op = .write) (hik : i + k = n)
    (hcap : base + n ≤ s.cfg.bufCap) (hq : Quiet (20 * k) s.irq) (hlistens : listens s (!atn) s.now k)
    (hd : listenEnd s.cfg (!atn) s.now k ≤ deadline s)
    (hclock : talk = true → pulled s .clock (listenEnd s.cfg (!atn) s.now k)) :
    Does (fun _ t => Finishes s₀ n talk (listenEnd s.cfg (!atn) s.now k) k (bitsFrom s base i k) s t)
      (writeBytes base n atn talk k i s) := by
  induction k generalizing s i with
  | zero =>
    simp only [writeBytes, does_bind, run_setIdx, does_ok]
    exact does_imp (does_finishWrite (by exact hclaims) (by exact hop) hd hclock) fun _ _ h => h
  | succ k ih =>
    have hlast : i + 1 = n ∧ atn = false ↔ (!atn && k == 0) = true := by
      simp only [Bool.and_eq_true, Bool.not_eq_true', beq_iff_eq, and_comm (b := atn = false)]
      refine and_congr_right fun _ => ?_
      omega
    refine does_writeBytes_succ (k := 20 * k) (last := !atn && k == 0) hclaims hop hlast (by omega) (by rwa [Nat.mul_succ] at hq)
      ((le_listenEnd ..).trans hd) (hearsByte_of_listens hlistens) fun l log hl hlog => ?_
    obtain ⟨-, -, -, -, hrest⟩ := hlistens
    refine does_imp (ih (s := wroteByte s i (!atn && k == 0) l log) (by exact hclaims) (by exact hop) (by omega) (by exact hcap) hl
      (listens_of_eq hrest rfl rfl) hd hclock) fun _ t ⟨hcnt, heoi, htrace, hnow, hout, more, hmore, hshows⟩ => ?_
    refine ⟨hcnt, heoi, ?_, hnow, hout, log ++ more, ?_, ?_⟩
    · rw [htrace, List.replicate_succ]
      simp [wroteByte]
    · rw [hmore]
      simp [wroteByte]
    · rw [bitsFrom, List.range'_succ, List.flatMap_cons]
      exact shows_append hlog hshows

/-- A whole write to a listener that answers every wait (R140 to R154). -/
theorem does_writeOp_listened {base n : Nat} {atn talk : Bool} (hcap : base + n ≤ s.cfg.bufCap) (hlistens : listens s (!atn) s.now n)
    (hq : Quiet (20 * n) s.irq) (hd : listenEnd s.cfg (!atn) s.now n ≤ deadline s)
    (hclock : talk = true → pulled s .clock (listenEnd s.cfg (!atn) s.now n)) :
    Does (fun _ t => Finishes s n talk (listenEnd s.cfg (!atn) s.now n) n (bitsFrom s base 0 n) (claimed s atn) t)
      (writeOp base n atn talk s) := by
  have hheld : pulled s .data s.now := pulled_of_listens hlistens
  refine does_writeOp (does_waitUntil_first (busOnly_asserted .data) ((le_listenEnd ..).trans hd)
    (asserted_of_pulled (s := claimed s atn) hheld) ?_)
  rw [if_pos rfl]
  exact does_imp (does_writeBytes_listened (s₀ := s) (by exact claims_claimed s atn) (by exact rfl) (Nat.zero_add n) hcap hq
    (listens_of_eq hlistens rfl rfl) hd hclock) fun _ _ h => h

end Sys2Proof.Machine
end

section
open Sys2Proof Sys2Proof.Machine

/-- Settles O32: the claim, then the bytes one by one, then the hand-off. -/
theorem writeToListener : Obligations.WriteToListener := by
  intro s base n atn talk hcap hlistens hq hd hclock
  obtain ⟨t, ht, -, hret, hcnt, heoi, htrace, hnow, hout, log, hlog, hbits, hatn, hclaim, hhand⟩ := answer_of_does
    (does_call_returned (frame_writeOp base n.toNat atn talk) (does_writeOp_listened hcap hlistens hq hd hclock))
  have hwhole : t.lineLog = s.lineLog ++ ([⟨s.now, ⟨.write, 2⟩, s.out &&& ~~~lineMask .data⟩,
      ⟨s.now, ⟨.write, 3⟩, claimOut s.out atn⟩] ++ log) := hlog.trans (List.append_assoc ..)
  have hatnClaimed : (claimOut s.out atn).getLsbD 2 = (atn || s.out.getLsbD 2) := claimOut_atn s.out atn
  refine ⟨t, ht, hret, hcnt, heoi, htrace, hnow, hout, ?_, ?_, ?_, ?_⟩
  · rw [writesAt_of_log hwhole, logAt_append, hclaim]
    simp [claimOut, BitVec.or_assoc]
  · rw [wireBits, writesAt_of_log hwhole, logAt_append, List.map_append, hbits, List.range_eq_range']
    rfl
  · rw [writesAt_of_log hwhole, logAt_append, List.forall_mem_append]
    exact ⟨by simp, fun w hw => (hatn w hw).trans hatnClaimed⟩
  · rw [writesAt_of_log hwhole, logAt_append, List.map_append, hhand]
    rfl
end

section
/-! PROOFS. The steps of a read on an undisturbed bus: the wait for the talker, the EOI window, one received byte (R155 to R161). -/

namespace Sys2Proof.Machine

variable {k : Nat} {s : State}

/-! ### Waiting for the talker -/

/-- CLOCK is free at time `u`, which is now, or the next sample and not before. -/
def ClockFreed (s : State) (u : Nat) : Prop := floats s .clock u ∧ (u = s.now ∨ u = s.now + s.cfg.tPoll ∧ pulled s .clock s.now)

/-- The wait for the talker kicks at each of its samples, the last at the instant at which CLOCK is free (R112, R155 line 3). -/
theorem does_waitUntilKick_freed {Q : Bool → State → Prop} {T u : Nat} (h : ClockFreed s u) (ho : s.out &&& lineMask .clock = 0)
    (hsamples : 2 ≤ sampleCount T s.cfg.tPoll) (hq : Quiet (k + 1) s.irq) (hd : s.cfg.tPoll ≤ s.cfg.tWdt)
    (hQ : ∀ l m, Quiet k l → Q true { s with
      now := u, irq := l, wdtLast := u, trace := s.trace ++ List.replicate m Event.kick }) :
    Does Q (waitUntilKick (released .clock) T s) := by
  obtain ⟨hfree, rfl | ⟨rfl, hpulled⟩⟩ := h
  · exact does_waitUntilKick_first (busOnly_released .clock) (released_of_floats hfree ho) (hQ s.irq 1 (quiet_mono (by omega) hq))
  · obtain ⟨n, hn⟩ : ∃ n, sampleCount T s.cfg.tPoll = n + 2 := ⟨sampleCount T s.cfg.tPoll - 2, by omega⟩
    simp only [waitUntilKick, does_call, does_bind, run_get, does_ok, hn, pollLoop, kickIf, if_true, run_line, run_kickWatchdog, kicked,
      does_ite, run_pure]
    refine ⟨fun hearly => absurd hearly (Bool.eq_false_iff.mp (not_released_of_pulled (by exact hpulled))),
      fun _ => does_delay (k := k) hq (Nat.add_le_add_left hd _) fun l hl => ?_⟩
    refine ⟨fun _ => ?_, fun hlate => absurd (released_of_floats (by exact hfree) (by exact ho)) hlate⟩
    rw [List.append_assoc]
    exact hQ l 2 hl

/-! ### The EOI window -/

/-- When the talker takes CLOCK, if it is ready at time `u`: at the next sample, or after the EOI window and the pulse (R155 lines 7 to
10). -/
def takeTime (c : Params) (u : Nat) (last : Bool) : Nat := if last then u + eoiWait c + c.tEoiPulse else u + c.tPoll

/-- The pulse of the EOI detector on DATA, where the lines without it are `o` (R155 line 10). -/
def eoiPulse (c : Params) (u : Nat) (o : Lines) (last : Bool) : List (Nat × Lines) :=
  if last then [(u + eoiWait c, o ||| lineMask .data), (u + eoiWait c + c.tEoiPulse, o &&& ~~~lineMask .data)] else []

/-- How many delays the EOI window takes, and the pulse (R155 lines 7 to 10). -/
def windowDelays (c : Params) (last : Bool) : Nat := if last then sampleCount c.tEoiWindow c.tPoll + 1 else 1

/-- The EOI window, with CLOCK free at its start: a talker that takes CLOCK at the second sample ends it; where CLOCK stays free, EOI is
set and the detector pulses DATA (R155 lines 7 to 10, R158). -/
theorem does_eoiWindow {Q : Unit → State → Prop} {T : Nat} {last : Bool} (hT : T = s.cfg.tEoiWindow) (heoi : s.eoi = false)
    (hclock : s.out &&& lineMask .clock = 0) (hdata : s.out &&& lineMask .data = 0)
    (hq : Quiet (k + windowDelays s.cfg last) s.irq) (hd : takeTime s.cfg s.now last ≤ deadline s) (hfree : floats s .clock s.now)
    (hwindow : last = true → ∀ i, i < sampleCount s.cfg.tEoiWindow s.cfg.tPoll → floats s .clock (s.now + i * s.cfg.tPoll))
    (htaken : last = false → 2 ≤ sampleCount s.cfg.tEoiWindow s.cfg.tPoll ∧ pulled s .clock (s.now + s.cfg.tPoll))
    (hQ : ∀ l m, Quiet k l → Q () { s with
      now := takeTime s.cfg s.now last
      irq := l
      eoi := last
      lineLog := s.lineLog ++ (eoiPulse s.cfg s.now s.out last).map (fun w => ⟨w.1, ⟨s.pc.op, 10⟩, w.2⟩)
      ok := some !last
      pc := ⟨s.pc.op, m⟩ }) :
    Does (fun b t => Does Q (detectEoi b { t with ok := some b, pc := ⟨t.pc.op, 8⟩ }))
      (waitUntil (asserted .clock) T s) := by
  subst hT
  cases last with
  | false =>
    obtain ⟨hsamples, hpulled⟩ := htaken rfl
    refine does_waitUntil_second (k := k) (busOnly_asserted .clock) hsamples hq hd (asserted_of_floats hfree hclock)
      (asserted_of_pulled hpulled) fun l hl => ?_
    simp only [detectEoi, if_true, run_pure, does_ok]
    simpa [takeTime, eoiPulse, heoi] using hQ l 8 hl
  | true =>
    have hpulse : ∀ o : Lines, o &&& lineMask .data = 0 →
        (o ||| lineMask .data) &&& ~~~lineMask .data = o ∧ o &&& ~~~lineMask .data = o := by decide
    obtain ⟨hback, hsame⟩ := hpulse s.out hdata
    have hdWindow : s.now + sampleCount s.cfg.tEoiWindow s.cfg.tPoll * s.cfg.tPoll ≤ deadline s := Nat.le_of_add_right_le hd
    refine does_waitUntil_misses (k := k + 1) (busOnly_asserted .clock) (quiet_mono (by simp only [windowDelays, if_true]; omega) hq)
      hdWindow (fun i hi => asserted_of_floats (s := { s with now := s.now + i * s.cfg.tPoll }) (hwindow rfl i hi) hclock) fun l hl => ?_
    simp only [detectEoi, acknowledgeEoi, setEoi, Bool.false_eq_true, if_false, does_bind, run_line, run_assertLines, run_get, does_ok]
    refine does_delay (k := k) hl hd fun l hl => ?_
    simp only [run_releaseLines, does_ok, hback]
    simpa [takeTime, eoiPulse, eoiWait, hsame] using hQ l 10 hl

/-! ### The byte -/

/-- `receive_byte` from a talker that sends `v` (R119). -/
theorem does_receiveByte {Q : Option Byte → State → Prop} {v : Byte} (ho : s.out &&& (lineMask .data ||| lineMask .clock) = 0)
    (hq : Quiet (k + 16) s.irq) (hsamples : 2 ≤ sampleCount s.cfg.tRxBit s.cfg.tPoll) (htalk : talksByte s s.now v)
    (hd : s.now + talkTime s.cfg ≤ deadline s)
    (hQ : ∀ l, Quiet k l → Q (some v) { s with
      now := s.now + talkTime s.cfg, irq := l, sr := some v, bitn := some 8, ok := some true, ieSaved := s.ie }) :
    Does Q (receiveByte s) := by
  rw [run_receiveByte_quiet ho (quiet_mono (by omega) hq) hsamples htalk hd, does_ok]
  exact hQ _ (quiet_drop hq)

/-- `receive_byte` where no device takes CLOCK in the start window (R119 line 1). -/
theorem does_receiveByte_absent {Q : Option Byte → State → Prop} (ho : s.out &&& lineMask .clock = 0)
    (hq : Quiet (k + sampleCount s.cfg.tRxStart s.cfg.tPoll) s.irq)
    (hd : s.now + sampleCount s.cfg.tRxStart s.cfg.tPoll * s.cfg.tPoll ≤ deadline s)
    (hno : ∀ i, i < sampleCount s.cfg.tRxStart s.cfg.tPoll → floats s .clock (s.now + i * s.cfg.tPoll))
    (hQ : ∀ l, Quiet k l → Q none { s with
      now := s.now + sampleCount s.cfg.tRxStart s.cfg.tPoll * s.cfg.tPoll, irq := l, ok := some false }) :
    Does Q (receiveByte s) := by
  simp only [receiveByte, does_call, does_bind, run_get, does_ok]
  refine does_waitUntil_misses (k := k) (busOnly_asserted .clock) hq hd
    (fun i hi => asserted_of_floats (s := { s with now := s.now + i * s.cfg.tPoll }) (hno i hi) ho) fun l hl => ?_
  simp only [run_setOk, run_line, does_ok, does_readReg, Option.some.injEq, exists_eq_left', Bool.false_eq_true, if_false, run_pure]
  exact hQ l hl

end Sys2Proof.Machine
end

section
/-! PROOFS. A read whose talker sets EOI and sends no byte (R158, R159). -/

namespace Sys2Proof.Machine

variable {k : Nat} {s : State}

/-- The lines with DATA released: nothing of DATA, and CLOCK as it was. -/
theorem data_released (o : Lines) (h : o &&& lineMask .clock = 0) :
    o &&& ~~~lineMask .data &&& lineMask .data = 0 ∧ o &&& ~~~lineMask .data &&& lineMask .clock = 0 ∧
      o &&& ~~~lineMask .data &&& (lineMask .data ||| lineMask .clock) = 0 := by
  revert o; decide

/-- Where CLOCK stays free through the window, the pulse and the start window of `receive_byte`, the read sets EOI and returns 0 (R155
lines 3 to 12). -/
theorem does_readOp_silent {maxLen : Nat} (heoi : s.eoi = false) (hclock : s.out &&& lineMask .clock = 0)
    (hq : Quiet (sampleCount s.cfg.tRxStart s.cfg.tPoll + windowDelays s.cfg true) s.irq)
    (hd : eoiWait s.cfg + s.cfg.tEoiPulse + sampleCount s.cfg.tRxStart s.cfg.tPoll * s.cfg.tPoll ≤ s.cfg.tWdt)
    (hwindow : ∀ i, i < sampleCount s.cfg.tEoiWindow s.cfg.tPoll → floats s .clock (s.now + i * s.cfg.tPoll))
    (hstart : ∀ i, i < sampleCount s.cfg.tRxStart s.cfg.tPoll → floats s .clock (takeTime s.cfg s.now true + i * s.cfg.tPoll)) :
    Does (fun _ t => t.cnt = some 0 ∧ t.eoi = true ∧ sameBuffer s t ∧ t.out = s.out &&& ~~~lineMask .data ∧
      t.trace = s.trace ++ [Event.kick]) (readOp maxLen s) := by
  have hfree : floats s .clock s.now := by simpa using hwindow 0 (one_le_sampleCount _ _)
  obtain ⟨hdata, hclock', -⟩ := data_released s.out hclock
  simp only [readOp, readLoop, does_call, does_bind, run_setCnt, run_get, does_ok, run_line]
  refine does_waitUntilKick_first (busOnly_released .clock) (released_of_floats hfree hclock) ?_
  simp only [kicked, run_setOk, does_ok, run_line, does_ite, heoi, Bool.false_eq_true, false_imp_iff, not_false_eq_true, true_imp_iff,
    true_and, does_readReg, Option.some.injEq, exists_eq_left', run_releaseLines, does_bind, run_get]
  refine ⟨?_, fun hmissed => absurd trivial hmissed⟩
  refine does_eoiWindow (last := true) (by exact rfl) (by exact rfl) (by exact hclock') (by exact hdata)
    hq ?_ hfree (fun _ => hwindow) nofun fun l m hl => ?_
  · simp only [takeTime, deadline, if_true]
    omega
  refine does_receiveByte_absent (k := 0) (by exact hclock') (by rwa [Nat.zero_add]) ?_ hstart fun l _ => ?_
  · simp only [takeTime, deadline, if_true]
    omega
  simp only [does_bind, run_line, does_ok, returnCnt, does_readReg, Option.some.injEq, exists_eq_left']
  exact ⟨trivial, trivial, fun _ => rfl, trivial, trivial⟩

end Sys2Proof.Machine
end

section
open Sys2Proof Sys2Proof.Machine

/-- Settles O40: CLOCK is free at every sample of the two windows, so EOI is set and no byte comes. -/
theorem readEoiWithoutByte : Obligations.ReadEoiWithoutByte := by
  intro s n heoi hclock hfree hq hd
  have hsample : ∀ N i : Nat, i < N → i * s.cfg.tPoll ≤ N * s.cfg.tPoll := fun N i hi => Nat.mul_le_mul_right _ hi.le
  have hwindow : ∀ i, i < sampleCount s.cfg.tEoiWindow s.cfg.tPoll → floats s .clock (s.now + i * s.cfg.tPoll) := fun i hi => by
    have := hsample _ i hi
    exact hfree _ (by omega) (by omega)
  have hstart : ∀ i, i < sampleCount s.cfg.tRxStart s.cfg.tPoll → floats s .clock (takeTime s.cfg s.now true + i * s.cfg.tPoll) :=
    fun i hi => by
      have := hsample _ i hi
      simp only [takeTime, eoiWait, if_true]
      exact hfree _ (by omega) (by omega)
  have hq' : Quiet (sampleCount s.cfg.tRxStart s.cfg.tPoll + windowDelays s.cfg true) s.irq :=
    quiet_mono (by simp only [windowDelays, if_true]; omega) hq
  obtain ⟨t, ht, -, hshown⟩ := answer_of_does
    (does_call_returned (frame_readOp n.toNat) (does_readOp_silent heoi hclock hq' hd hwindow hstart))
  exact ⟨t, ht, hshown⟩
end

section
/-! PROOFS. A read from a talker (R155 to R161): one byte of it, with or without EOI. -/

namespace Sys2Proof.Machine

variable {k : Nat} {s : State}

/-- The parameters allow a read from a talker that answers at the engine's samples: windows of two samples, and a byte, with the EOI
window before it where `eoi`, within the watchdog's time. -/
def Timely (c : Params) (eoi : Bool) : Prop :=
  2 ≤ sampleCount c.tRxBit c.tPoll ∧ 2 ≤ sampleCount c.tEoiWindow c.tPoll ∧ 2 ≤ sampleCount c.tReadClk c.tPoll ∧
  18 * c.tPoll ≤ c.tWdt ∧ (eoi = true → eoiWait c + c.tEoiPulse + talkTime c ≤ c.tWdt)

/-- A talker that is ready at time `u` and sends `v`, with EOI where it is the last byte of a message that ends with it (R87, R158). -/
def SendsByte (s : State) (u : Nat) (last : Bool) (v : Byte) : Prop :=
  (last = true → ∀ i, i < sampleCount s.cfg.tEoiWindow s.cfg.tPoll → floats s .clock (u + i * s.cfg.tPoll)) ∧
  talksByte s (takeTime s.cfg u last) v

/-- The byte is over within the watchdog's time from its kick at `u` (R158, R258). -/
theorem takeTime_le_of_timely {c : Params} {last : Bool} (h : Timely c last) (u : Nat) :
    takeTime c u last + talkTime c ≤ u + c.tWdt := by
  obtain ⟨-, -, -, hpolls, hwindow⟩ := h
  cases last with
  | false =>
    simp only [takeTime, talkTime, Bool.false_eq_true, if_false]
    omega
  | true =>
    have := hwindow rfl
    simp only [takeTime, if_true]
    omega

theorem timely_false {c : Params} {eoi : Bool} (h : Timely c eoi) : Timely c false := by
  obtain ⟨hbits, hwindow, hclk, hpolls, -⟩ := h
  exact ⟨hbits, hwindow, hclk, hpolls, nofun⟩

/-- What a part of a read has put on the bus: `n` acknowledgements, with the lines otherwise at `o`, and the pulses of the EOI detector
(R155 lines 10 and 14). -/
def ShowsRead (n : Nat) (pulses : List (Nat × Lines)) (o : Lines) (log : List LineWrite) : Prop :=
  (logAt .read 14 log).map (fun w => w.out) = List.replicate n (o ||| lineMask .data) ∧
  (logAt .read 10 log).map (fun w => (w.time, w.out)) = pulses

theorem showsRead_append {n n' : Nat} {pulses pulses' : List (Nat × Lines)} {o : Lines} {log log' : List LineWrite}
    (h : ShowsRead n pulses o log) (h' : ShowsRead n' pulses' o log') : ShowsRead (n + n') (pulses ++ pulses') o (log ++ log') := by
  obtain ⟨hacks, hpulses⟩ := h
  obtain ⟨hacks', hpulses'⟩ := h'
  refine ⟨?_, ?_⟩
  · rw [logAt_append, List.map_append, hacks, hacks', List.replicate_append_replicate]
  · rw [logAt_append, List.map_append, hpulses, hpulses']

/-- The line writes of one byte of a read: DATA released at time `u`, the EOI pulse where there is one, DATA asserted at time `e` (R155
lines 6, 10, 14). -/
def readWrites (c : Params) (u e : Nat) (o : Lines) (last : Bool) : List LineWrite :=
  [⟨u, ⟨.read, 6⟩, o &&& ~~~lineMask .data⟩] ++ ((eoiPulse c u o last).map (fun w => ⟨w.1, ⟨.read, 10⟩, w.2⟩) ++
    [⟨e, ⟨.read, 14⟩, o ||| lineMask .data⟩])

theorem showsRead_readWrites (c : Params) (u e : Nat) (o : Lines) (last : Bool) :
    ShowsRead 1 (eoiPulse c u o last) o (readWrites c u e o last) := by
  cases last with
  | false => exact ⟨rfl, rfl⟩
  | true => exact ⟨rfl, rfl⟩

/-- The pulse and the acknowledgement do not depend on whether DATA was asserted before. -/
theorem assert_released_data (o : Lines) : o &&& ~~~lineMask .data ||| lineMask .data = o ||| lineMask .data := by
  revert o; decide

theorem assert_asserted_data (o : Lines) :
    o ||| lineMask .data ||| lineMask .data = o ||| lineMask .data ∧
      (o ||| lineMask .data) &&& ~~~lineMask .data = o &&& ~~~lineMask .data := by
  revert o; decide

theorem asserted_data_clock (o : Lines) : (o ||| lineMask .data) &&& lineMask .clock = o &&& lineMask .clock := by
  revert o; decide

theorem eoiPulse_released_data (c : Params) (u : Nat) (o : Lines) (last : Bool) :
    eoiPulse c u (o &&& ~~~lineMask .data) last = eoiPulse c u o last := by
  have key : ∀ o : Lines, o &&& ~~~lineMask .data &&& ~~~lineMask .data = o &&& ~~~lineMask .data := by decide
  simp only [eoiPulse, assert_released_data, key]

/-- The state after byte `c` of a read, whose value is `v`, from a talker ready at time `u` (R155 lines 3 to 16). -/
def tookByte (s : State) (c u : Nat) (v : Byte) (last : Bool) (l : List Nat) (m : Nat) : State :=
  { s with
    now := takeTime s.cfg u last + talkTime s.cfg
    irq := l
    wdtLast := u
    eoi := last
    buf := cellSet s.buf c v
    idx := some c
    cnt := some (c + 1)
    out := s.out ||| lineMask .data
    lineLog := s.lineLog ++ readWrites s.cfg u (takeTime s.cfg u last + talkTime s.cfg) s.out last
    trace := s.trace ++ (List.replicate m Event.kick ++ [Event.status])
    sr := some v
    bitn := some 8
    ok := some true
    ieSaved := s.ie
    pc := ⟨s.pc.op, 16⟩ }

/-- A byte that the buffer holds is stored, acknowledged and reported (R155 lines 13 to 15). -/
theorem does_storeByte {Q : Unit → State → Prop} {v : Byte} {c : Nat} (hcnt : s.cnt = some c) (hroom : c < s.cfg.bufCap)
    (hQ : Q () { s with
      buf := cellSet s.buf c v
      idx := some c
      cnt := some (c + 1)
      out := s.out ||| lineMask .data
      lineLog := s.lineLog ++ [⟨s.now, ⟨s.pc.op, 14⟩, s.out ||| lineMask .data⟩]
      trace := s.trace ++ [Event.status]
      pc := ⟨s.pc.op, 15⟩ }) : Does Q (storeByte v s) := by
  rwa [run_storeByte v hcnt hroom, does_ok]

/-- One round of the loop of a read takes a byte from the talker; it is the last one where the count is reached or EOI is set (R155). -/
theorem does_readLoop_succ {Q : Nat → State → Prop} {maxLen f c u : Nat} {v : Byte} {last : Bool} (hop : s.pc.op = .read)
    (heoi : s.eoi = false) (hclock : s.out &&& lineMask .clock = 0) (hcnt : s.cnt = some c) (hroom : c < s.cfg.bufCap)
    (htimely : Timely s.cfg last) (hready : ClockFreed s u) (hsends : SendsByte s u last v)
    (hq : Quiet (k + 16 + windowDelays s.cfg last + 1) s.irq)
    (hnext : ∀ l m, Quiet k l →
      Does Q ((if c + 1 = maxLen ∨ last = true then pure (c + 1) else readLoop maxLen f) (tookByte s c u v last l m))) :
    Does Q (readLoop maxLen (f + 1) s) := by
  have hend := takeTime_le_of_timely htimely u
  obtain ⟨hbits, hwindow, hclk, hpolls, -⟩ := htimely
  have hpoll : s.cfg.tPoll ≤ s.cfg.tWdt := by omega
  obtain ⟨hfree, htalk⟩ := hsends
  have ⟨hfreeNow, _⟩ := hready
  have ⟨hheld, _⟩ := htalk
  obtain ⟨hdata, hclock', hlines⟩ := data_released s.out hclock
  simp only [readLoop, does_bind, run_line, run_get, does_ok]
  refine does_waitUntilKick_freed (k := k + 16 + windowDelays s.cfg last) hready hclock hclk hq hpoll fun l m hl => ?_
  simp only [run_setOk, does_ok, run_line, does_ite, heoi, Bool.false_eq_true, false_imp_iff, not_false_eq_true, true_imp_iff,
    true_and, does_readReg, Option.some.injEq, exists_eq_left', run_releaseLines, does_bind, run_get]
  refine ⟨?_, fun hmissed => absurd trivial hmissed⟩
  refine does_eoiWindow (k := k + 16) (last := last) (by exact rfl) (by exact rfl) (by exact hclock') (by exact hdata) hl
    (Nat.le_of_add_right_le hend) hfreeNow hfree (fun hlast => ⟨hwindow, ?_⟩) fun l p hl => ?_
  · rw [hlast] at hheld
    exact hheld
  refine does_receiveByte (k := k) (by exact hlines) hl hbits htalk hend fun l hl => ?_
  simp only [does_bind]
  refine does_storeByte (by exact hcnt) (by exact hroom) ?_
  simp only [run_line, does_ok, does_readReg, Option.some.injEq, exists_eq_left', run_get]
  have hstep := hnext l m hl
  simp only [tookByte, readWrites, ← hop, does_ite, run_pure, does_ok] at hstep
  simpa only [does_ite, returnCnt, does_readReg, Option.some.injEq, exists_eq_left', eoiPulse_released_data, assert_released_data,
    List.append_assoc] using hstep

/-! ### The whole read -/

/-- A talker with bytes left is ready, and sends the next one. -/
theorem sendsByte_of_talks {eoi : Bool} {u : Nat} {v : Byte} {bs : List Byte} (h : talks s eoi u (v :: bs)) :
    floats s .clock u ∧ SendsByte s u (eoi && bs.isEmpty) v ∧
      talks s eoi (takeTime s.cfg u (eoi && bs.isEmpty) + talkTime s.cfg + s.cfg.tPoll) bs := by
  obtain ⟨hfree, hwindow, hbyte, hrest⟩ := h
  exact ⟨hfree, ⟨hwindow, hbyte⟩, hrest⟩

/-- What a talker does is fixed by the parameters and the bus input. -/
theorem talks_of_eq {t : State} {eoi : Bool} {u : Nat} {bs : List Byte} (h : talks s eoi u bs) (hc : t.cfg = s.cfg) (hb : t.bus = s.bus) :
    talks t eoi u bs := by
  induction bs generalizing u with
  | nil => trivial
  | cons v bs ih =>
    obtain ⟨hfree, hwindow, hbyte, hrest⟩ := h
    simp only [talks, talksByte, pulled, floats, hc, hb]
    exact ⟨hfree, hwindow, hbyte, ih hrest⟩

/-- A byte without EOI takes eighteen polls, from CLOCK released to CLOCK released. -/
theorem nextReady (c : Params) (u : Nat) : takeTime c u false + talkTime c + c.tPoll = u + 18 * c.tPoll := by
  simp only [takeTime, talkTime, Bool.false_eq_true, if_false]
  omega

/-- After a byte without EOI, the talker releases CLOCK for the next one a poll later. -/
theorem clockFreed_tookByte {c u m : Nat} {v : Byte} {l : List Nat} (h : talksByte s (takeTime s.cfg u false) v)
    (hnext : floats s .clock (u + 18 * s.cfg.tPoll)) : ClockFreed (tookByte s c u v false l m) (u + 18 * s.cfg.tPoll) := by
  obtain ⟨-, hbits⟩ := h
  obtain ⟨-, -, hheld⟩ := hbits 7 (by decide)
  exact ⟨hnext, .inr ⟨(nextReady s.cfg u).symm, hheld⟩⟩

/-- What a read has done from `s` to `t` that took the bytes `bs` to index `c` and on, from a talker ready at time `u` (R155 to R161). -/
def Took (eoi : Bool) (u c : Nat) (bs : List Byte) (s t : State) : Prop :=
  t.cnt = some (c + bs.length) ∧ t.eoi = eoi ∧ t.buf = pokeBytes s.buf c bs ∧ t.bufEpoch = s.bufEpoch ∧
  t.out = s.out ||| lineMask .data ∧
  (∃ log, t.lineLog = s.lineLog ++ log ∧
    ShowsRead bs.length (eoiPulse s.cfg (u + 18 * s.cfg.tPoll * (bs.length - 1)) s.out eoi) s.out log) ∧
  ∃ events, t.trace = s.trace ++ events ∧ events.filter (· == Event.status) = List.replicate bs.length Event.status

/-- The events of one byte: kicks, and one `Status`. -/
theorem filter_status_kicks (m : Nat) :
    (List.replicate m Event.kick ++ [Event.status]).filter (· == Event.status) = [Event.status] := by
  simp

/-- The lines of a byte do not depend on whether the byte before it was acknowledged. -/
theorem showsRead_asserted {n : Nat} {p : Params} {u : Nat} {last : Bool} {o : Lines} {log : List LineWrite}
    (h : ShowsRead n (eoiPulse p u (o ||| lineMask .data) last) (o ||| lineMask .data) log) :
    ShowsRead n (eoiPulse p u o last) o log := by
  obtain ⟨hagain, hback⟩ := assert_asserted_data o
  simpa only [ShowsRead, eoiPulse, hagain, hback] using h

/-- The last byte. -/
theorem took_one (c u m : Nat) (v : Byte) (last : Bool) (l : List Nat) : Took last u c [v] s (tookByte s c u v last l m) :=
  ⟨rfl, rfl, rfl, rfl, rfl, ⟨_, rfl, showsRead_readWrites ..⟩, _, rfl, filter_status_kicks m⟩

/-- A byte, and the bytes after it. -/
theorem took_cons {eoi : Bool} {c u m : Nat} {v w : Byte} {bs : List Byte} {l : List Nat} {t : State}
    (h : Took eoi (u + 18 * s.cfg.tPoll) (c + 1) (w :: bs) (tookByte s c u v false l m) t) : Took eoi u c (v :: w :: bs) s t := by
  obtain ⟨hcnt, heoi, hbuf, hepoch, hout, ⟨log, hlog, hshows⟩, events, hevents, hstatus⟩ := h
  obtain ⟨hagain, -⟩ := assert_asserted_data s.out
  have hlen : (v :: w :: bs).length = 1 + (w :: bs).length := Nat.add_comm ..
  have hlast : u + 18 * s.cfg.tPoll + 18 * s.cfg.tPoll * ((w :: bs).length - 1) = u + 18 * s.cfg.tPoll * ((v :: w :: bs).length - 1) := by
    simp only [List.length_cons, Nat.add_sub_cancel, Nat.mul_succ]
    omega
  have hwhole := showsRead_append (showsRead_readWrites s.cfg u (takeTime s.cfg u false + talkTime s.cfg) s.out false)
    (showsRead_asserted hshows)
  refine ⟨?_, heoi, hbuf, hepoch, hout.trans hagain, ⟨_, hlog.trans (List.append_assoc ..), ?_⟩, _,
    hevents.trans (List.append_assoc ..), ?_⟩
  · rw [hcnt, hlen, Nat.add_assoc]
  · rw [← hlast, hlen]
    exact hwhole
  · rw [List.filter_append, filter_status_kicks, hstatus, hlen, ← List.replicate_append_replicate]
    rfl

/-- The delays of the last byte, with its window. -/
theorem delays_le (c : Params) (eoi : Bool) : 0 + 16 + windowDelays c eoi + 1 ≤ 18 * 1 + sampleCount c.tEoiWindow c.tPoll + 1 := by
  cases eoi with
  | false =>
    simp only [windowDelays, Bool.false_eq_true, if_false]
    omega
  | true =>
    simp only [windowDelays, if_true]
    omega

/-- All bytes of a read from such a talker (R155). -/
theorem does_readLoop_talked {eoi : Bool} {maxLen f c u : Nat} {bs : List Byte} (hne : bs ≠ []) (hop : s.pc.op = .read)
    (heoi : s.eoi = false) (hclock : s.out &&& lineMask .clock = 0) (hcnt : s.cnt = some c) (hroom : c + bs.length ≤ s.cfg.bufCap)
    (hmost : c + bs.length ≤ maxLen) (hall : eoi = false → c + bs.length = maxLen) (hf : bs.length ≤ f) (htimely : Timely s.cfg eoi)
    (hready : ClockFreed s u) (htalks : talks s eoi u bs)
    (hq : Quiet (18 * bs.length + sampleCount s.cfg.tEoiWindow s.cfg.tPoll + 1) s.irq) :
    Does (fun _ t => Took eoi u c bs s t) (readLoop maxLen f s) := by
  induction bs generalizing s c u f with
  | nil => exact absurd rfl hne
  | cons v bs ih =>
    obtain ⟨f, rfl⟩ : ∃ f', f = f' + 1 := Nat.exists_eq_succ_of_ne_zero fun hzero => by simp [hzero] at hf
    have hnow : c < s.cfg.bufCap := lt_of_lt_of_le (by simp) hroom
    obtain ⟨-, hsends, hrest⟩ := sendsByte_of_talks htalks
    cases bs with
    | nil =>
      rw [List.isEmpty_nil, Bool.and_true] at hsends
      have hend : c + 1 = maxLen ∨ eoi = true := (Bool.eq_false_or_eq_true eoi).symm.imp hall id
      refine does_readLoop_succ (k := 0) hop heoi hclock hcnt hnow htimely hready hsends
        (quiet_mono (delays_le s.cfg eoi) hq) fun l m _ => ?_
      rw [if_pos hend, run_pure, does_ok]
      exact took_one ..
    | cons w bs =>
      rw [List.isEmpty_cons, Bool.and_false] at hsends hrest
      rw [nextReady] at hrest
      simp only [List.length_cons] at hroom hmost hall hf hq ih
      obtain ⟨hfree, -⟩ := sendsByte_of_talks hrest
      have ⟨_, hbyte⟩ := hsends
      have hshift : c + 1 + (bs.length + 1) = c + (bs.length + 1 + 1) := by omega
      have hmore : ¬(c + 1 = maxLen ∨ false = true) := by simp; omega
      refine does_readLoop_succ (k := 18 * (bs.length + 1) + sampleCount s.cfg.tEoiWindow s.cfg.tPoll + 1) hop heoi hclock hcnt hnow
        (timely_false htimely) hready hsends (quiet_mono (by simp [windowDelays]; omega) hq) fun l m hl => ?_
      rw [if_neg hmore]
      exact does_imp (ih (s := tookByte s c u v false l m) (List.cons_ne_nil w bs) (by exact hop) rfl
        (by exact (asserted_data_clock s.out).trans hclock) rfl (hshift.trans_le hroom) (hshift.trans_le hmost)
        (fun h => hshift.trans (hall h)) (Nat.le_of_succ_le_succ hf) (by exact htimely) (clockFreed_tookByte hbyte hfree)
        (talks_of_eq hrest rfl rfl) hl) fun _ _ => took_cons

/-- A whole read from a talker (R155 to R161). -/
theorem does_readOp_talked {eoi : Bool} {maxLen : Nat} {bs : List Byte} (hne : bs ≠ []) (heoi : s.eoi = false)
    (hclock : s.out &&& lineMask .clock = 0) (hroom : bs.length ≤ s.cfg.bufCap) (hmost : bs.length ≤ maxLen)
    (hall : eoi = false → bs.length = maxLen) (htimely : Timely s.cfg eoi) (htalks : talks s eoi s.now bs)
    (hq : Quiet (18 * bs.length + sampleCount s.cfg.tEoiWindow s.cfg.tPoll + 1) s.irq) :
    Does (fun _ t => Took eoi s.now 0 bs s t) (readOp maxLen s) := by
  obtain ⟨v, bs, rfl⟩ := List.exists_cons_of_ne_nil hne
  obtain ⟨hfree, -⟩ := sendsByte_of_talks htalks
  simp only [readOp, does_call, does_bind, run_setCnt, run_get, does_ok]
  exact does_imp (does_readLoop_talked (u := s.now) hne rfl (by exact heoi) (by exact hclock) (by exact rfl) (by simpa using hroom)
    (by simpa using hmost) (by simpa using hall) (Nat.le_succ_of_le hroom) (by exact htimely) ⟨by exact hfree, .inl rfl⟩
    (talks_of_eq htalks rfl rfl) hq) fun _ _ h => h

end Sys2Proof.Machine
end

section
open Sys2Proof Sys2Proof.Machine

/-- Settles O37: by induction on the bytes that the talker sends, each of which is one round of the loop. -/
theorem readFromTalker : Obligations.ReadFromTalker := by
  intro s n bs eoi hsome hmost hall hroom heoi hclock htalks hq hpolls hpulse hbits hwindow hclk
  have hne : bs ≠ [] := List.ne_nil_of_length_pos hsome
  obtain ⟨t, ht, -, hret, hcnt, heoi', hbuf, hepoch, hout, ⟨log, hlog, hacks, hpulses⟩, events, hevents, hstatus⟩ := answer_of_does
    (does_call_returned (frame_readOp n.toNat)
      (does_readOp_talked hne heoi hclock hroom hmost hall ⟨hbits, hwindow, hclk, hpolls, hpulse⟩ htalks hq))
  refine ⟨t, ht, hret, hcnt.trans (by rw [Nat.zero_add]), heoi', fun k hk => ?_, fun a ha => ?_, hout, ?_, ?_, ?_⟩
  · have hcell := cellAt_pokeBytes_inside s.buf 0 bs hk
    rw [Nat.zero_add] at hcell
    rw [peek, hbuf, hcell, Option.getD_some]
  · rw [peek, hbuf, hepoch, cellAt_pokeBytes_outside s.buf 0 bs (.inr (by omega)), peek]
  · rw [writesAt_of_log hlog, hacks]
  · rw [hevents, List.drop_left, hstatus]
  · rw [writesAt_of_log hlog, hpulses]
    rfl
end

section
/-! PROOFS. The step from a line of the main loop: the command that has arrived, the dispatch, and that there always is one (R197). -/

namespace Sys2Proof.Machine

variable {s : State}

/-- A frame that has arrived is taken, and its command runs at line 4 (R197 lines 3 and 4). -/
theorem takeFrame_frame {i : Instr} {rest : List Byte} (h : decode s.hin = .frame i rest) :
    takeFrame s = resumeOutcome 4 5 (exec i { s with hin := rest, pc := mainAt 4 }) := by
  simp only [takeFrame, h]

/-- At line 5 an engine that is neither faulted nor expired dispatches (R197). -/
theorem step_at_line5 (hf : s.fault = none) (hw : wdtExpired s = false) (hpc : s.pc = mainAt 5) : step s = dispatchPass s := by
  simp [step, stepOnce, hf, hw, engineStep, hpc, mainAt, mainLine]

/-- Every instruction answers a next state. -/
theorem exec_next (i : Instr) (s : State) : ∃ t, exec i s = .next t := by
  obtain ⟨_, m, -, hexec⟩ := exec_within i
  exact ⟨finalState m s, hexec s⟩

theorem resumeOutcome_next {o : Host.Outcome State Fault Refusal} (h : ∃ t, o = .next t) (j k : Nat) :
    ∃ t, resumeOutcome j k o = .next t := by
  obtain ⟨t, rfl⟩ := h
  exact ⟨resume j k t, rfl⟩

/-- Whatever has arrived, the main loop goes on from looking for a frame (R197 lines 2 to 4). -/
theorem takeFrame_next (s : State) : ∃ t, takeFrame s = .next t := by
  cases hd : decode s.hin with
  | incomplete => exact ⟨_, takeFrame_incomplete hd⟩
  | reserved op => exact ⟨_, takeFrame_reserved hd⟩
  | frame i rest =>
    rw [takeFrame_frame hd]
    exact resumeOutcome_next (exec_next i _) 4 5

/-- An engine at rest that is not faulted takes a step (R197, R258). -/
theorem step_next (hf : s.fault = none) (hrest : atRest s) : ∃ t, step s = .next t := by
  cases hw : wdtExpired s with
  | true => exact ⟨watchdogReset s, by simp [step, stepOnce, hf, hw]⟩
  | false =>
    obtain ⟨-, -, ⟨hpc, -⟩ | hpc⟩ := hrest
    · rw [step_at_line1 hf hw hpc]
      exact takeFrame_next _
    · rw [step_at_line5 hf hw hpc]
      exact resumeOutcome_next (exec_next _ s) 5 1

end Sys2Proof.Machine
end

section
open Sys2Proof Sys2Proof.Machine

/-- Settles O5: line 1 kicks the watchdog, and the frame that is there is taken. -/
theorem stepRunsTheDecodedCommand : Obligations.StepRunsTheDecodedCommand := by
  intro s i rest hf hw hpc hd
  rw [step_at_line1 hf hw hpc]
  exact takeFrame_frame (s := kicked (deliver s)) hd

/-- Settles O6: line 5 is the dispatch. -/
theorem stepRunsTheDispatch : Obligations.StepRunsTheDispatch := fun _ hf hw hpc => step_at_line5 hf hw hpc

/-- Settles O50: the three states share the row that does nothing. -/
theorem dispatchWithoutRequest : Obligations.DispatchWithoutRequest := by
  rintro s (hreq | hreq | hreq)
  all_goals
    rw [hreq]
    exact ⟨rfl, rfl⟩

/-- Settles O59: an engine at rest takes a step, and every step keeps the invariant, which says where it rests. -/
theorem engineNeverHangs : Obligations.EngineNeverHangs := by
  intro s hinv hf
  have ⟨_, _, _, _, hrest, _⟩ := hinv
  obtain ⟨t, hstep⟩ := step_next hf (hrest hf)
  have hinv' : machineInvariant t := machineInvariant_step hinv hstep
  have ⟨_, _, _, _, hrest', _⟩ := hinv'
  exact ⟨t, hstep, hinv', hrest'⟩
end

section
/-! PROOFS. The moves of the request state (R190): the setters, the collection, the query and the dispatches make those of the table,
and nothing else writes it but a watchdog reset. And what a dispatch of `READ` leaves in `IDX` (R193). -/

namespace Sys2Proof.Machine

variable {α : Type} {may : List Part} {s t : State}

/-- Of an operation that keeps to a frame, all that is outside it is kept, also where a fault or an endless loop ends it. -/
theorem ends_parts {m : Op α} (hm : Within (Frame may) m) (s : State) :
    Ends (fun t => ∀ p, p ∉ may → samePart s t p) (fun _ t => ∀ p, p ∉ may → samePart s t p) (m s) := by
  have hlands := hm s
  cases hs : m s with
  | ok a t =>
    rw [hs] at hlands
    rw [ends_ok]
    exact hlands.2
  | error e t =>
    rw [hs] at hlands
    rw [ends_error]
    cases e with
    | watchdog => exact .inl rfl
    | hung => exact .inr hlands.2
    | faulted =>
      obtain ⟨u, k, hu, rfl⟩ := hlands
      exact .inr fun p hp => by have := hu.2 p hp; cases p <;> exact this

/-- The table's moves (R190): from `s` the instruction may leave `REQ` at `r`. -/
def Moves (s : State) (r : ReqState) : Instr → Prop
  | .requestRead _ => setterReady s = true ∧ r = .read
  | .submitWrite _ _ => setterReady s = true ∧ r = .write
  | .submitAsync _ _ _ _ => setterReady s = true ∧ r = .async
  | .collectRead _ => s.req = .readDone ∧ r = .idle
  | .queryResult => s.req = .result ∧ s.cfg.queryClears = true ∧ r = .idle
  | .dispatchWrite => s.req = .write ∧ r = .result
  | .dispatchAsync => s.req = .async ∧ r = .result
  | .dispatchRead => s.req = .read ∧ r = .readDone
  | _ => False

/-- A run that returns with `REQ` as it was or at a state that meets `P`, and is stopped with `REQ` as it was. -/
abbrev MovesReq (s : State) (P : ReqState → Prop) : EStateM.Result Stop State α → Prop :=
  Ends (fun t => t.req = s.req) (fun _ t => t.req = s.req ∨ P t.req)

/-! ### The host commands -/

theorem movesReq_requestReadOp (n : Byte) : MovesReq s (Moves s · (.requestRead n)) (requestReadOp n s) := by
  simp only [requestReadOp, setLen, setReq, ends_call, ends_bind, ends_requireHost, run_line, ends_ok]
  exact ⟨fun hready => ⟨fun _ => .inr ⟨hready, rfl⟩, fun _ => trivial⟩, fun _ => trivial⟩

theorem movesReq_collectReadOp (n : Byte) : MovesReq s (Moves s · (.collectRead n)) (collectReadOp n s) := by
  simp only [collectReadOp, writeBlock, ends_call, ends_bind, ends_requireHost, run_line, ends_ok, run_get, ends_memRead,
    decide_eq_true_eq]
  refine ⟨fun hdone => ⟨fun _ => ends_takeXfer fun _ _ _ => ?_, fun _ => trivial⟩, fun _ => trivial⟩
  simp only [setReq, ends_ok, ends_ite, ends_bind, run_line, run_respond]
  exact ⟨fun _ => .inr ⟨hdone, rfl⟩, fun _ => .inr ⟨hdone, rfl⟩⟩

theorem movesReq_submitWriteOp (n : Byte) (block : List Byte) :
    MovesReq s (Moves s · (.submitWrite n block)) (submitWriteOp n block s) := by
  simp only [submitWriteOp, readBlock, ends_call, ends_bind, ends_requireHost, run_line, ends_ok]
  refine ⟨fun hready => ⟨fun _ => ends_takeXfer fun delivered _ _ => ?_, fun _ => trivial⟩, fun _ => trivial⟩
  cases delivered with
  | false =>
    simp only [freeBytes, Bool.false_eq_true, if_false, run_pure, run_line, ends_ok, ends_bind, ends_memWrite, run_respond]
    exact ⟨fun _ => .inl trivial, fun _ => trivial⟩
  | true =>
    simp only [setLen, setReq, if_true, run_pure, run_line, ends_ok, ends_bind, ends_memWrite, run_respond]
    exact ⟨fun _ => .inr ⟨hready, rfl⟩, fun _ => trivial⟩

theorem movesReq_submitAsyncOp (a k n : Byte) (payload : List Byte) :
    MovesReq s (Moves s · (.submitAsync a k n payload)) (submitAsyncOp a k n payload s) := by
  simp only [submitAsyncOp, setLen, setReq, ends_call, ends_bind, ends_requireHost, run_line, ends_ok, ends_memWrite]
  exact ⟨fun hready => ⟨fun _ => ⟨fun _ => ⟨fun _ => ⟨fun _ => .inr ⟨hready, rfl⟩, fun _ => trivial⟩, fun _ => trivial⟩,
    fun _ => trivial⟩, fun _ => trivial⟩, fun _ => trivial⟩

theorem movesReq_queryResultOp : MovesReq s (Moves s · .queryResult) (queryResultOp s) := by
  simp only [run_queryResultOp, ends_ok]
  by_cases hreq : s.req = .result
  · cases hclears : s.cfg.queryClears with
    | false => exact .inl (by simp [queried, hreq, hclears])
    | true => exact .inr ⟨hreq, hclears, by simp [queried, hreq, hclears]⟩
  · exact .inl (by simp [queried, hreq])

theorem movesReq_logicalWaitOp (sel state : Byte) : MovesReq s (fun _ => False) (logicalWaitOp sel state s) := by
  simp only [logicalWaitOp, ends_call]
  cases selectedLine sel with
  | none =>
    simp only [run_raise, ends_error]
    exact .inr trivial
  | some l =>
    simp only [ends_ite, ends_bind, run_line, ends_ok]
    exact ⟨fun _ => ends_waitForever (fun _ hf _ => hf.2 .req (by decide)) fun _ _ _ _ => .inl rfl,
      fun _ => ends_waitForever (fun _ hf _ => hf.2 .req (by decide)) fun _ _ _ _ => .inl rfl⟩

theorem movesReq_logicalPollOp : MovesReq s (fun _ => False) (logicalPollOp s) := by
  simp only [logicalPollOp, ends_call, ends_bind, run_get, run_respond, ends_ok]
  exact .inl trivial

theorem movesReq_setReleaseOp (a r : Byte) : MovesReq s (fun _ => False) (setReleaseOp a r s) := by
  simp only [setReleaseOp, ends_call, ends_bind, ends_requireOperand, run_line, run_setReleaseLines, ends_ok]
  exact ⟨fun _ => .inl trivial, fun _ => trivial⟩

/-! ### The dispatches -/

/-- A write leaves `REQ` to the storing of its count, which sets it to `RESULT` (R191, R192 line 4). -/
theorem ends_writeThenStore_req (base n : Nat) (atn talk : Bool) (s : State) :
    Ends (fun t => t.req = s.req) (fun _ t => t.req = .result) ((writeOp base n atn talk >>= storeResult) s) := by
  rw [ends_bind]
  refine ends_mono (ends_parts (frame_writeOp base n atn talk) s) (fun t ht => ht .req (by decide)) fun c t _ => ?_
  simp only [storeResult, setResult, setCollected, setReq, ends_bind, run_line, ends_ok]

theorem movesReq_dispatchWriteOp : MovesReq s (Moves s · .dispatchWrite) (dispatchWriteOp s) := by
  refine ends_whenReq (fun hreq => ?_) fun _ => .inl rfl
  rw [ends_call, ends_bind, run_get, ends_ok]
  exact ends_mono (ends_writeThenStore_req ..) (fun _ ht => ht) fun _ _ ht => .inr ⟨hreq, ht⟩

theorem movesReq_dispatchAsyncOp : MovesReq s (Moves s · .dispatchAsync) (dispatchAsyncOp s) := by
  refine ends_whenReq (fun hreq => ?_) fun _ => .inl rfl
  rw [ends_call, ends_bind, ends_memReadByte, ends_bind, ends_memReadByte, ends_bind, run_get, ends_ok]
  refine ⟨fun _ => ⟨fun _ => ?_, fun _ => rfl⟩, fun _ => rfl⟩
  exact ends_mono (ends_writeThenStore_req ..) (fun _ ht => ht) fun _ _ ht => .inr ⟨hreq, ht⟩

theorem movesReq_dispatchReadOp : MovesReq s (Moves s · .dispatchRead) (dispatchReadOp s) := by
  refine ends_whenReq (fun hreq => ?_) fun _ => .inl rfl
  rw [ends_call]
  simp only [ends_bind, run_get, ends_ok]
  refine ends_mono (ends_parts (frame_readOp _) _) (fun t ht => ht .req (by decide)) fun c t _ => ?_
  simp only [setLen, setReq, run_line, run_drawResult, ends_ok]
  exact .inr ⟨hreq, rfl⟩

/-! ### Every instruction -/

/-- The move that an operation makes where no watchdog reset ends it. -/
theorem req_of_movesReq {P : ReqState → Prop} {m : Op α} (hm : Within (Frame may) m) (h : MovesReq s P (m s))
    (ht : answer m s = .next t) (hr : t.resets = s.resets) : t.req = s.req ∨ P t.req := by
  cases (answer_eq_next m s t).mp ht
  rcases final_of_ends hm (ends_mono h (fun _ hkept => .inl hkept) fun _ _ hmoved => hmoved) with hmoved | ⟨u, hu, e⟩
  · exact hmoved
  · rw [e, watchdogReset_resets, frame_resets hu] at hr
    omega

/-- An instruction that no watchdog reset ends leaves `REQ`, or makes a move of the table (R190). -/
theorem exec_moves_req {i : Instr} (h : exec i s = .next t) (hr : t.resets = s.resets) : t.req = s.req ∨ Moves s t.req i := by
  by_cases hreq : Part.req ∈ mayChange i
  · cases i with
    | requestRead n => exact req_of_movesReq (frame_requestReadOp n) (movesReq_requestReadOp n) h hr
    | collectRead n => exact req_of_movesReq (frame_collectReadOp n) (movesReq_collectReadOp n) h hr
    | submitWrite n block => exact req_of_movesReq (frame_submitWriteOp n block) (movesReq_submitWriteOp n block) h hr
    | submitAsync a k n payload => exact req_of_movesReq (frame_submitAsyncOp a k n payload) (movesReq_submitAsyncOp a k n payload) h hr
    | queryResult => exact req_of_movesReq frame_queryResultOp movesReq_queryResultOp h hr
    | logicalWait sel state => exact req_of_movesReq (frame_logicalWaitOp sel state) (movesReq_logicalWaitOp sel state) h hr
    | logicalPoll => exact req_of_movesReq frame_logicalPollOp movesReq_logicalPollOp h hr
    | setRelease a r => exact req_of_movesReq (frame_setReleaseOp a r) (movesReq_setReleaseOp a r) h hr
    | dispatchWrite => exact req_of_movesReq frame_dispatchWriteOp movesReq_dispatchWriteOp h hr
    | dispatchAsync => exact req_of_movesReq frame_dispatchAsyncOp movesReq_dispatchAsyncOp h hr
    | dispatchRead => exact req_of_movesReq frame_dispatchReadOp movesReq_dispatchReadOp h hr
    | _ => simp [mayChange, resetParts, sendParts, receiveParts, writeParts, readParts] at hreq
  · obtain ⟨-, -, hparts⟩ := exec_keeps_parts h hr
    exact .inl (hparts .req hreq)

/-- The setter precondition in the words of R196. -/
theorem setterReady_iff (s : State) : setterReady s = true ↔ s.req = .idle ∨ (s.req = .result ∧ s.collected = true) := by
  unfold setterReady
  cases s.req <;> simp

/-! ### The index of a read -/

/-- Wherever a dispatch of `READ` ends, `IDX` is as a read leaves it (R193, R155). -/
theorem ends_dispatchReadOp_index (s : State) : Ends (IndexShown s) (fun _ => IndexShown s) (dispatchReadOp s) := by
  refine ends_whenReq (fun _ => ?_) fun _ => .inl rfl
  rw [ends_call]
  simp only [ends_bind, run_get, ends_ok]
  refine ends_mono (ends_readOp_counted _ _) (fun _ hB => hB.2) fun c t ⟨_, _, hcounted⟩ => ?_
  have hshown : IndexShown s t := indexShown_of_counted hcounted
  simp only [setLen, setReq, run_line, run_drawResult, ends_ok]
  exact hshown

theorem exec_dispatchRead_index (h : exec .dispatchRead s = .next t) (hr : t.resets = s.resets) : IndexShown s t := by
  cases (answer_eq_next dispatchReadOp s t).mp h
  rcases final_of_ends frame_dispatchReadOp (ends_dispatchReadOp_index s) with hshown | ⟨u, hu, e⟩
  · exact hshown
  · rw [e, watchdogReset_resets, frame_resets hu] at hr
    omega

end Sys2Proof.Machine
end

section
open Sys2Proof Sys2Proof.Machine

/-- Settles O51: each instruction leaves `REQ` or makes its own moves of the table. -/
theorem requestStateTransitions : Obligations.RequestStateTransitions := by
  intro i s t h hr
  rcases exec_moves_req h hr with hkept | hmoved
  · exact .inl hkept
  refine .inr ?_
  cases i with
  | requestRead n =>
    obtain ⟨hready, hreq⟩ := hmoved
    exact .inl ⟨(setterReady_iff s).mp hready, .inl ⟨n, rfl, hreq⟩⟩
  | submitWrite n block =>
    obtain ⟨hready, hreq⟩ := hmoved
    exact .inl ⟨(setterReady_iff s).mp hready, .inr (.inl ⟨n, block, rfl, hreq⟩)⟩
  | submitAsync a k n payload =>
    obtain ⟨hready, hreq⟩ := hmoved
    exact .inl ⟨(setterReady_iff s).mp hready, .inr (.inr ⟨a, k, n, payload, rfl, hreq⟩)⟩
  | dispatchAsync => exact .inr (.inl ⟨rfl, hmoved⟩)
  | dispatchWrite => exact .inr (.inr (.inl ⟨rfl, hmoved⟩))
  | dispatchRead => exact .inr (.inr (.inr (.inl ⟨rfl, hmoved⟩)))
  | collectRead n => exact .inr (.inr (.inr (.inr (.inl ⟨⟨n, rfl⟩, hmoved⟩))))
  | queryResult => exact .inr (.inr (.inr (.inr (.inr ⟨rfl, hmoved⟩))))
  | _ => exact hmoved.elim

/-- Settles O49, by the frames of the dispatches, and for `IDX` by the count of the read. -/
theorem dispatchFrame : Obligations.DispatchFrame := by
  intro s t i hi h hr
  obtain ⟨hworld, hnow, hparts⟩ := exec_keeps_parts h hr
  have hcommon : ∀ p ∈ [Part.outReset, .hin, .hout, .xfer, .host, .t0], p ∉ mayChange i := by
    rcases hi with rfl | rfl | rfl <;> decide
  refine ⟨sameLine_of_bit (l := .reset) (hparts .outReset (hcommon _ (by decide))),
    samePort_of_parts fun p hp => hparts p (hcommon p (by revert p; decide)), hworld, hparts .t0 (hcommon _ (by decide)), hnow,
    fun hne => ?_, ?_⟩
  · have hwrite : ∀ p ∈ [Part.buf, .bufEpoch, .len, .wdtLast], p ∉ mayChange i := by
      rcases hi with rfl | rfl | rfl
      · decide
      · decide
      · exact absurd rfl hne
    exact ⟨sameBuffer_of_parts (hparts .buf (hwrite _ (by decide))) (hparts .bufEpoch (hwrite _ (by decide))),
      hparts .len (hwrite _ (by decide)), hparts .wdtLast (hwrite _ (by decide))⟩
  · rintro rfl
    exact ⟨hparts .collected (by decide), sameLine_of_bit (l := .clock) (hparts .outClock (by decide)),
      sameLine_of_bit (l := .atn) (hparts .outAtn (by decide)), exec_dispatchRead_index h hr⟩
end

section
/-! PROOFS. The count that a write or a read returns is the one it leaves in `CNT` (R34). -/

namespace Sys2Proof.Machine

variable {α : Type} {s t : State} {c : Nat}

/-- Wherever the operation returns a count, `CNT` holds it (R34). Only how an operation ends matters, so in a sequence only its last
part does. -/
def ReturnsCnt (m : Op Nat) : Prop := ∀ s, Ends (fun _ => True) (fun c t => t.cnt = some c) (m s)

theorem returnsCnt_bind {m : Op α} {f : α → Op Nat} (hf : ∀ a, ReturnsCnt (f a)) : ReturnsCnt (m >>= f) := by
  intro s
  rw [ends_bind]
  cases m s with
  | ok a t => exact (ends_ok ..).mpr (hf a t)
  | error e t => exact (ends_error ..).mpr (.inr trivial)

theorem returnsCnt_ite {p : Prop} [Decidable p] {m k : Op Nat} (hm : ReturnsCnt m) (hk : ReturnsCnt k) :
    ReturnsCnt (if p then m else k) := by
  split
  · exact hm
  · exact hk

theorem returnsCnt_call {o : OpName} {m : Op Nat} (hm : ReturnsCnt m) : ReturnsCnt (call o m) := fun _ => (ends_call ..).mpr (hm _)

theorem returnsCnt_returnCount (c : Nat) : ReturnsCnt (returnCount c) := fun _ => by
  simp only [returnCount, ends_bind, run_setCnt, run_pure, ends_ok]

theorem returnsCnt_deviceAbsent : ReturnsCnt deviceAbsent :=
  returnsCnt_bind fun _ => returnsCnt_bind fun _ => returnsCnt_returnCount 0

theorem returnsCnt_writeFails : ReturnsCnt writeFails := returnsCnt_bind fun _ => returnsCnt_returnCount 0

theorem returnsCnt_finishWrite (n : Nat) (talk : Bool) : ReturnsCnt (finishWrite n talk) :=
  returnsCnt_bind fun _ => returnsCnt_bind fun _ => returnsCnt_bind fun _ => returnsCnt_returnCount n

theorem returnsCnt_writeBytes (base n : Nat) (atn talk : Bool) (k i : Nat) : ReturnsCnt (writeBytes base n atn talk k i) := by
  induction k generalizing i with
  | zero => exact returnsCnt_bind fun _ => returnsCnt_finishWrite n talk
  | succ k ih =>
    repeat refine returnsCnt_bind fun _ => ?_
    refine returnsCnt_ite returnsCnt_deviceAbsent ?_
    repeat refine returnsCnt_bind fun _ => ?_
    refine returnsCnt_ite ?_ returnsCnt_writeFails
    repeat refine returnsCnt_bind fun _ => ?_
    exact ih (i + 1)

theorem returnsCnt_writeOp (base n : Nat) (atn talk : Bool) : ReturnsCnt (writeOp base n atn talk) := by
  refine returnsCnt_call ?_
  repeat refine returnsCnt_bind fun _ => ?_
  exact returnsCnt_ite (returnsCnt_writeBytes base n atn talk n 0) returnsCnt_deviceAbsent

theorem returnsCnt_returnCnt : ReturnsCnt returnCnt := fun _ =>
  (ends_readReg ..).mpr ⟨fun _ hcnt => hcnt, fun _ => trivial⟩

theorem returnsCnt_readLoop (maxLen f : Nat) : ReturnsCnt (readLoop maxLen f) := by
  induction f with
  | zero => exact fun _ => (ends_error ..).mpr (.inr trivial)
  | succ f ih =>
    repeat refine returnsCnt_bind fun _ => ?_
    refine returnsCnt_ite returnsCnt_returnCnt ?_
    repeat refine returnsCnt_bind fun _ => ?_
    refine returnsCnt_ite ?_ returnsCnt_returnCnt
    repeat refine returnsCnt_bind fun _ => ?_
    split
    · exact returnsCnt_bind fun _ => returnsCnt_returnCnt
    · repeat refine returnsCnt_bind fun _ => ?_
      exact returnsCnt_ite returnsCnt_returnCnt ih

theorem returnsCnt_readOp (maxLen : Nat) : ReturnsCnt (readOp maxLen) :=
  returnsCnt_call <| returnsCnt_bind fun _ => returnsCnt_bind fun _ => returnsCnt_readLoop maxLen _

/-- A count that is returned is the one in `CNT`. -/
theorem cnt_of_ok {m : Op Nat} (hm : ReturnsCnt m) (h : m s = .ok c t) : t.cnt = some c := by
  have hends := hm s
  rwa [h, ends_ok] at hends

end Sys2Proof.Machine
end

section
/-! PROOFS. A dispatch is the transaction run from inside it, and the storing of its count (R191 to R193): what holds of the write or the
read that it calls holds of it. -/

namespace Sys2Proof.Machine

variable {α : Type} {B : State → Prop} {s t u : State} {o : OpName}

/-! ### The call of a transaction -/

/-- The state in which an operation called from `s` starts (R33). -/
def entered (s : State) (o : OpName) : State := { s with pc := ⟨o, 1⟩, stack := s.pc :: s.stack }

/-- The state `u` back at the location and the stack of `s` (R33). -/
def backAt (s u : State) : State := { u with pc := s.pc, stack := s.stack }

theorem call_ok {m : Op α} {a : α} (h : m (entered s o) = .ok a u) : call o m s = .ok a (backAt s u) := by
  rw [entered] at h
  rw [run_call, h]
  rfl

theorem call_congr {m k : Op α} (h : m (entered s o) = k (entered s o)) : call o m s = call o k s := by
  rw [entered] at h
  rw [run_call, run_call, h]

theorem ends_call_entered {Q : α → State → Prop} {m : Op α} :
    Ends B Q (call o m s) ↔ Ends B (fun a t => Q a (backAt s t)) (m (entered s o)) := ends_call ..

theorem returned_backAt (hresets : u.resets = s.resets) (hfault : u.fault = s.fault) : returned s (backAt s u) :=
  ⟨hresets, hfault, rfl, rfl⟩

/-- A call that answers a value has returned. -/
theorem returned_of_ok {may : List Part} {m : Op α} {a : α} (hm : Within (Frame may) (call o m)) (h : call o m s = .ok a t) :
    returned s t := by
  have hframe := hm s
  rw [h] at hframe
  obtain ⟨hpc, hstack⟩ := call_returns h
  exact ⟨frame_resets hframe, frame_fault hframe, hpc, hstack⟩

theorem ends_self {Q : α → State → Prop} {m : Op α} (h : Ends B Q (m s)) : Ends B (fun a t => m s = .ok a t) (m s) := by
  cases hs : m s with
  | ok a t => exact (ends_ok ..).mpr rfl
  | error e t =>
    rw [hs, ends_error] at h
    exact (ends_error ..).mpr h

/-- An operation that has returned has answered a value, where a fault or an endless loop leaves the engine inside it. -/
theorem ok_of_returned {may : List Part} {Q : α → State → Prop} {m : Op α} (hm : Within (Frame may) m) (hin : Ends (Inside s) Q (m s))
    (h : answer m s = .next t) (hret : returned s t) : ∃ a, m s = .ok a t := by
  cases (answer_eq_next ..).mp h
  exact ends_of_returned hm (ends_self hin) hret

/-- A call of `m` and of an `f` that always returns does `f`'s part after `m`'s. -/
theorem answer_call_bind {m : Op α} {f : α → Op Unit} {g : α → State → State} {a : α} (hf : ∀ a v, f a v = .ok () (g a v))
    (h : m (entered s o) = .ok a u) : answer (call o (m >>= f)) s = .next (backAt s (g a u)) :=
  (answer_eq_next ..).mpr (finalState_ok (call_ok (by rw [run_bind_ok h, hf])))

/-- Where such a call has returned, `m` has. -/
theorem call_bind_of_returned {may : List Part} {m : Op α} {f : α → Op Unit} {g : α → State → State} {Q : α → State → Prop}
    (hf : ∀ a v, f a v = .ok () (g a v)) (hm : Within (Frame may) (call o (m >>= f)))
    (hin : Ends (Inside (entered s o)) Q (m (entered s o))) (h : answer (call o (m >>= f)) s = .next t) (hret : returned s t) :
    ∃ a u, m (entered s o) = .ok a u ∧ t = backAt s (g a u) := by
  cases (answer_eq_next ..).mp h
  have hends : Ends (Inside s) (fun _ t => ∃ a u, m (entered s o) = .ok a u ∧ t = backAt s (g a u)) (call o (m >>= f) s) := by
    rw [ends_call_entered, ends_bind]
    refine ends_mono (ends_self hin) (fun _ hinside => (Nat.lt_succ_self _).trans hinside) fun a u hrun => ?_
    rw [hf, ends_ok]
    exact ⟨a, u, hrun, rfl⟩
  obtain ⟨-, hran⟩ := ends_of_returned hm hends hret
  exact hran

theorem answer_congr {m k : Op α} (h : m s = k s) : answer m s = answer k s := by
  simp only [answer, finalState, h]

/-! ### The dispatches of a write -/

/-- The state in which `RESULT` holds the count of a write, not yet collected (R191, R192 lines 2 to 4). -/
def resultStored (c : Nat) (u : State) : State :=
  { u with result := BitVec.ofNat 8 c, collected := false, req := .result, pc := ⟨u.pc.op, 4⟩ }

theorem run_storeResult (c : Nat) (u : State) : storeResult c u = .ok () (resultStored c u) := rfl

/-- A write and the storing of its count, called as one (R191, R192). -/
def writeAndStore (o : OpName) (base n : Nat) (atn talk : Bool) : Op Unit := call o (writeOp base n atn talk >>= storeResult)

theorem frame_writeAndStore (o : OpName) (base n : Nat) (atn talk : Bool) :
    Within (Frame dispatchWriteParts) (writeAndStore o base n atn talk) :=
  within_call <| frameBind (within_widen (frame_writeOp _ _ _ _) (by decide)) fun _ => frame_storeResult _

variable {base : Nat} {n : Byte} {atn talk : Bool}

/-- To a listener that answers every wait: what `write` does on the bus, and the length as `RESULT` (R140, R191, R192). -/
theorem writeAndStore_listened (o : OpName) (hcap : base + n.toNat ≤ s.cfg.bufCap) (hlistens : listens s (!atn) s.now n.toNat)
    (hq : quietFor (20 * n.toNat) s) (hd : listenEnd s.cfg (!atn) s.now n.toNat ≤ deadline s)
    (hclock : talk = true → pulled s .clock (listenEnd s.cfg (!atn) s.now n.toNat)) :
    ∃ t, answer (writeAndStore o base n.toNat atn talk) s = .next t ∧ returned s t ∧ t.result = n ∧ t.req = .result ∧
      t.collected = false ∧ t.eoi = false ∧ t.len = s.len ∧ sameBuffer s t ∧
      t.out = (s.out &&& lineMask .reset) ||| (if talk then lineMask .data else lineMask .clock) ∧
      sends s t base n.toNat atn talk (listenEnd s.cfg (!atn) s.now n.toNat) := by
  obtain ⟨u, hu, hret, hcnt, heoi, -, -, hout, hsends⟩ :=
    writeToListener (entered s o) base n atn talk hcap (listens_of_eq hlistens rfl rfl) hq hd hclock
  have ⟨hresets, hfault, _⟩ := hret
  obtain ⟨-, hbuf, ⟨hlen, -⟩, -⟩ := writeFrame _ _ _ _ _ _ hu hresets
  obtain ⟨c, hrun⟩ := ok_of_returned (frame_writeOp base n.toNat atn talk) (exitsInRow_writeOp base n.toNat atn talk _) hu hret
  cases (cnt_of_ok (returnsCnt_writeOp base n.toNat atn talk) hrun).symm.trans hcnt
  exact ⟨_, answer_call_bind run_storeResult hrun, returned_backAt hresets hfault, BitVec.ofNat_toNat 8 n, rfl, rfl, heoi, hlen, hbuf,
    hout, hsends⟩

/-- On any bus, where it has returned: a row of the exit table, with its count as `RESULT` (R154, R191, R192). -/
theorem writeAndStore_returned (h : answer (writeAndStore o base n.toNat atn talk) s = .next t) (hret : returned s t) :
    t.req = .result ∧ t.collected = false ∧ t.len = s.len ∧ sameBuffer s t ∧
    ((t.cnt = some n.toNat ∧ t.result = n ∧
      t.out = (s.out &&& lineMask .reset) ||| (if talk then lineMask .data else lineMask .clock)) ∨
     (t.cnt = some 0 ∧ t.result = 0 ∧ t.out = s.out &&& lineMask .reset)) := by
  obtain ⟨c, u, hrun, rfl⟩ := call_bind_of_returned run_storeResult (frame_writeAndStore o base n.toNat atn talk)
    (exitsInRow_writeOp base n.toNat atn talk _) h hret
  have hu : exec (.write base n atn talk) (entered s o) = .next u := (answer_eq_next ..).mpr (finalState_ok hrun)
  have hwritten : returned (entered s o) u := returned_of_ok (frame_writeOp base n.toNat atn talk) hrun
  have ⟨hresets, _⟩ := hwritten
  have hcnt : u.cnt = some c := cnt_of_ok (returnsCnt_writeOp base n.toNat atn talk) hrun
  obtain ⟨-, hbuf, ⟨hlen, -⟩, -⟩ := writeFrame _ _ _ _ _ _ hu hresets
  refine ⟨rfl, rfl, hlen, hbuf, ?_⟩
  rcases writeExitLines _ _ _ _ _ _ hu hwritten with ⟨hcount, hout⟩ | ⟨hcount, hout⟩
  · cases hcnt.symm.trans hcount
    exact .inl ⟨hcount, BitVec.ofNat_toNat 8 n, hout⟩
  · cases hcnt.symm.trans hcount
    exact .inr ⟨hcount, rfl, hout⟩

/-- The dispatch of `WRITE` is a write of `BUF[0]` on, without ATN and hand-off (R191). -/
theorem exec_dispatchWrite (hreq : s.req = .write) :
    exec .dispatchWrite s = answer (writeAndStore .dispatchWrite 0 s.len.toNat false false) s := by
  refine answer_congr ((if_pos hreq).trans (call_congr ?_))
  rw [run_bind_ok (run_get _)]
  rfl

/-- The dispatch of `ASYNC` is a write of the payload, with the ATN and the hand-off that its first two bytes ask for (R192, R27). -/
theorem exec_dispatchAsync (hreq : s.req = .async) (hcap : 1 < s.cfg.bufCap) :
    exec .dispatchAsync s = answer (writeAndStore .dispatchAsync 2 s.len.toNat (byteIsTrue (peek s 0)) (byteIsTrue (peek s 1))) s := by
  have hatn := run_memReadByte 0 (entered s .dispatchAsync) (Nat.zero_lt_of_lt hcap)
  have htalk := run_memReadByte 1 (entered s .dispatchAsync) hcap
  refine answer_congr ((if_pos hreq).trans (call_congr ?_))
  rw [run_bind_ok hatn, run_bind_ok htalk, run_bind_ok (run_get _)]
  rfl

/-- A dispatch of `ASYNC` that returns has found room for the two bytes before the payload (R66, R192). -/
theorem dispatchAsync_returned_cap (hreq : s.req = .async) (h : exec .dispatchAsync s = .next t) (hret : returned s t) :
    1 < s.cfg.bufCap := by
  by_contra hcap
  cases (answer_eq_next ..).mp h
  have hends : Ends (Inside s) (fun _ _ => False) (dispatchAsyncOp s) := by
    refine ends_whenReq (fun _ => ?_) fun hother => hother hreq
    rw [ends_call, ends_bind, ends_memReadByte, ends_bind, ends_memReadByte]
    exact ⟨fun _ => ⟨fun hroom => absurd hroom hcap, fun _ => Nat.lt_succ_self _⟩, fun _ => Nat.lt_succ_self _⟩
  obtain ⟨-, hfalse⟩ := ends_of_returned frame_dispatchAsyncOp hends hret
  exact hfalse

/-! ### The dispatch of a read -/

/-- The state in which `LEN` holds the count of a read, and `RESULT` any byte (R193 lines 2 to 4). -/
def lengthStored (c : Nat) (u : State) : State :=
  { u with len := BitVec.ofNat 8 c, result := Config.freeByte u.draws, draws := u.draws + 1, req := .readDone, pc := ⟨u.pc.op, 4⟩ }

/-- Lines 2 to 4 of R193. -/
def storeLength (c : Nat) : Op Unit := do
  line 2
  setLen (BitVec.ofNat 8 c)
  line 3
  drawResult
  line 4
  setReq .readDone

theorem run_storeLength (c : Nat) (u : State) : storeLength c u = .ok () (lengthStored c u) := rfl

/-- A read and the storing of its count, called as one (R193). -/
def readAndStore (n : Nat) : Op Unit := call .dispatchRead (readOp n >>= storeLength)

theorem exec_dispatchRead (hreq : s.req = .read) : exec .dispatchRead s = answer (readAndStore s.len.toNat) s := by
  refine answer_congr ((if_pos hreq).trans (call_congr ?_))
  rw [run_bind_ok (run_get _)]
  rfl

theorem frame_readAndStore (n : Nat) : Within (Frame dispatchReadParts) (readAndStore n) :=
  within_call <| frameBind (within_widen (frame_readOp n) (by decide)) fun _ => frameBind (frame_line _) fun _ =>
  frameBind (frame_setLen _ (by decide)) fun _ => frameBind (frame_line _) fun _ =>
  frameBind (frame_drawResult (by decide) (by decide)) fun _ => frameBind (frame_line _) fun _ => frame_setReq _ (by decide)

/-- A fault or an endless loop leaves the engine inside the read (R33, R155). -/
theorem readOp_inside (n : Nat) (s : State) : Ends (Inside s) (fun _ _ => True) (readOp n s) :=
  ends_mono (ends_readOp_counted n s) (fun _ hB => hB.1) fun _ _ _ => trivial

/-- From a talker that sends the bytes asked for, or fewer with EOI on the last: what `read` stores, and their number as `LEN` (R155,
R193). -/
theorem readAndStore_talked {n : Byte} {bs : List Byte} {eoi : Bool} (hsome : 1 ≤ bs.length) (hmost : bs.length ≤ n.toNat)
    (hall : eoi = false → bs.length = n.toNat) (hroom : bs.length ≤ s.cfg.bufCap) (heoi : s.eoi = false)
    (hclock : s.out &&& lineMask .clock = 0) (htimely : Timely s.cfg eoi) (htalks : talks s eoi s.now bs)
    (hq : quietFor (18 * bs.length + sampleCount s.cfg.tEoiWindow s.cfg.tPoll + 1) s) :
    ∃ t, answer (readAndStore n.toNat) s = .next t ∧ returned s t ∧ t.len = BitVec.ofNat 8 bs.length ∧ t.req = .readDone ∧
      t.collected = s.collected ∧ t.eoi = eoi ∧ ∀ k, (h : k < bs.length) → peek t k = bs[k] := by
  obtain ⟨hbits, hwindow, hclk, hpolls, hpulse⟩ := htimely
  obtain ⟨u, hu, hret, hcnt, heoi', hbytes, -⟩ := readFromTalker (entered s .dispatchRead) n bs eoi hsome hmost hall hroom heoi hclock
    (talks_of_eq htalks rfl rfl) hq hpolls hpulse hbits hwindow hclk
  have ⟨hresets, hfault, _⟩ := hret
  obtain ⟨-, -, -, ⟨-, -, -, hcollected⟩, -⟩ := readFrame _ _ _ hu hresets
  obtain ⟨c, hrun⟩ := ok_of_returned (frame_readOp n.toNat) (readOp_inside _ _) hu hret
  cases (cnt_of_ok (returnsCnt_readOp n.toNat) hrun).symm.trans hcnt
  exact ⟨_, answer_call_bind run_storeLength hrun, returned_backAt hresets hfault, rfl, rfl, hcollected, heoi', hbytes⟩

/-- On any bus, where it has returned: the count of the read as `LEN`, and nothing stored from it on (R161, R193). -/
theorem readAndStore_returned {n : Byte} (hn : n ≠ 0) (h : answer (readAndStore n.toNat) s = .next t) (hret : returned s t) :
    t.req = .readDone ∧ t.collected = s.collected ∧
      ∃ c, t.cnt = some c ∧ c ≤ n.toNat ∧ t.len = BitVec.ofNat 8 c ∧ ∀ a, c ≤ a → peek t a = peek s a := by
  obtain ⟨c, u, hrun, rfl⟩ := call_bind_of_returned run_storeLength (frame_readAndStore n.toNat) (readOp_inside _ _) h hret
  have hu : exec (.read n) (entered s .dispatchRead) = .next u := (answer_eq_next ..).mpr (finalState_ok hrun)
  have hread : returned (entered s .dispatchRead) u := returned_of_ok (frame_readOp n.toNat) hrun
  have ⟨hresets, _⟩ := hread
  obtain ⟨-, -, -, ⟨-, -, -, hcollected⟩, -⟩ := readFrame _ _ _ hu hresets
  obtain ⟨c', hcnt, hle, hkept, -⟩ := readStoresWhatItCounts _ _ _ hn hu hread
  cases (cnt_of_ok (returnsCnt_readOp n.toNat) hrun).symm.trans hcnt
  exact ⟨rfl, hcollected, c, hcnt, hle, rfl, hkept⟩

end Sys2Proof.Machine
end

section
open Sys2Proof Sys2Proof.Machine

/-- Settles O46: the write of the dispatch, and the storing of its count. -/
theorem dispatchWriteStoresTheCount : Obligations.DispatchWriteStoresTheCount := by
  refine ⟨fun s hreq hcap hlistens hq hd => ?_, fun s t hreq h hret => ?_⟩
  · rw [exec_dispatchWrite hreq]
    exact writeAndStore_listened .dispatchWrite (by rwa [Nat.zero_add]) hlistens hq hd nofun
  · rw [exec_dispatchWrite hreq] at h
    exact writeAndStore_returned h hret

/-- Settles O47: the write of the dispatch, with what the bytes before the payload ask for, and the storing of its count. -/
theorem dispatchAsyncStoresTheCount : Obligations.DispatchAsyncStoresTheCount := by
  have htalk : ∀ s : State, (if peek s 1 ≠ 0 then lineMask .data else lineMask .clock) =
      if byteIsTrue (peek s 1) then lineMask .data else lineMask .clock := fun s => by simp [byteIsTrue]
  refine ⟨fun s hreq hcap hlistens hq hd hclock => ?_, fun s t hreq h hret => ?_⟩
  · have hatn : (peek s 0 == 0) = !byteIsTrue (peek s 0) := by simp [byteIsTrue, bne]
    rw [hatn] at hlistens hd hclock ⊢
    rw [exec_dispatchAsync hreq (by omega), htalk]
    exact writeAndStore_listened .dispatchAsync hcap hlistens hq hd fun htrue => hclock (by simpa [byteIsTrue] using htrue)
  · rw [exec_dispatchAsync hreq (dispatchAsync_returned_cap hreq h hret)] at h
    rw [htalk]
    exact writeAndStore_returned h hret

/-- Settles O48: the read of the dispatch, and the storing of its count. -/
theorem dispatchReadStoresTheLength : Obligations.DispatchReadStoresTheLength := by
  refine ⟨fun s bs eoi hreq hsome hmost hall hroom heoi hclock htalks hq hpolls hpulse hbits hwindow hclk => ?_,
    fun s t hreq hlen h hret => ?_⟩
  · rw [exec_dispatchRead hreq]
    exact readAndStore_talked hsome hmost hall hroom heoi hclock ⟨hbits, hwindow, hclk, hpolls, hpulse⟩ htalks hq
  · rw [exec_dispatchRead hreq] at h
    exact readAndStore_returned hlen h hret
end

section
/-! PROOFS. The host commands that do not wait (R210 to R216, R221 to R223), run from line 1: where a check fails, and what is done where
none does. -/

namespace Sys2Proof.Machine

variable {s v u : State} {o : OpName} {k : Nat}

/-! ### Numbered lines and checks -/

/-- The state `s` as seen at line `k` of an operation called from it (R33). -/
def atLine (s : State) (o : OpName) (k : Nat) : State := { entered s o with pc := ⟨o, k⟩ }

theorem backAt_atLine (hpc : v.pc = s.pc) (hstack : v.stack = s.stack) : backAt s (atLine v o k) = v := by
  rw [backAt, ← hpc, ← hstack]
  rfl

theorem run_line_atLine (j : Nat) : line k (atLine s o j) = .ok () (atLine s o k) := rfl

theorem run_requireHost_fails {p : State → Bool} (h : p (atLine s o k) = false) :
    requireHost p (atLine s o k) = .error .faulted (faultedAt s o k .hostPrecondition) := by
  rw [requireHost, if_neg (by simp [h])]
  rfl

theorem run_requireOperand_fails {p : Bool} (h : p = false) :
    requireOperand p (atLine s o k) = .error .faulted (faultedAt s o k .invalidOperand) := by
  rw [requireOperand, if_neg (by simp [h])]
  rfl

/-- A command whose body comes from the state `s` to the state `v` answers `v`. -/
theorem answer_call_ok {m : Op Unit} (h : m (atLine s o 1) = .ok () (atLine v o k)) (hpc : v.pc = s.pc) (hstack : v.stack = s.stack) :
    answer (call o m) s = .next v := by
  rw [answer_eq_next, finalState_ok (call_ok h), backAt_atLine hpc hstack]

theorem call_error {α : Type} {m : Op α} {e : Stop} (h : m (entered s o) = .error e u) : call o m s = .error e u := by
  rw [entered] at h
  rw [run_call, h]

/-- A command whose body is abandoned answers the state that leaves. -/
theorem answer_call_error {m : Op Unit} {e : Stop} (h : m (atLine s o 1) = .error e u) : answer (call o m) s = .next u :=
  (answer_eq_next ..).mpr (finalState_error (call_error h))

/-! ### The setters -/

/-- What the three setters have in common (R196, R210, R213, R215): line 1 needs a request state that may be left, line 2 operands that
meet `p`, and `m` is done from line 3 on. `exec` of each of the three unfolds to this
shape, so the lemmas below apply to it as it stands. -/
def setter (o : OpName) (p : State → Bool) (m : Op Unit) : Op Unit := call o do
  requireHost setterReady
  line 2
  requireHost p
  line 3
  m

section setter
variable {p : State → Bool} {m : Op Unit}

theorem setter_unready (h : ¬(s.req = .idle ∨ (s.req = .result ∧ s.collected = true))) :
    answer (setter o p m) s = .next (faultedAt s o 1 .hostPrecondition) := by
  rw [← setterReady_iff, Bool.not_eq_true] at h
  exact answer_call_error (run_bind_error (run_requireHost_fails h) _)

variable (h : s.req = .idle ∨ (s.req = .result ∧ s.collected = true))
include h

theorem setter_passes_line1 (f : Unit → Op Unit) : (requireHost setterReady >>= f) (atLine s o 1) = f () (atLine s o 1) :=
  run_bind_ok (run_requireHost (s := atLine s o 1) ((setterReady_iff s).mpr h)) f

theorem setter_refuses (hp : p (atLine s o 2) = false) :
    answer (setter o p m) s = .next (faultedAt s o 2 .hostPrecondition) := by
  refine answer_call_error (e := .faulted) ?_
  rw [setter_passes_line1 h, run_bind_ok (run_line_atLine 1), run_bind_error (run_requireHost_fails hp)]

theorem setter_runs (hp : p (atLine s o 2) = true) (hm : m (atLine s o 3) = .ok () (atLine v o k)) (hpc : v.pc = s.pc)
    (hstack : v.stack = s.stack) : answer (setter o p m) s = .next v := by
  refine answer_call_ok (k := k) ?_ hpc hstack
  rw [setter_passes_line1 h, run_bind_ok (run_line_atLine 1), run_bind_ok (run_requireHost hp), run_bind_ok (run_line_atLine 2), hm]

omit h in
/-- A setter in its three cases: `bad` says which operands line 2 refuses, and `Q` what is left where it passes. -/
theorem setter_meaning {bad Q : Prop} [Decidable bad] (hbad : bad → p (atLine s o 2) = false)
    (hgood : (s.req = .idle ∨ (s.req = .result ∧ s.collected = true)) → ¬bad → Q) :
    if ¬(s.req = .idle ∨ (s.req = .result ∧ s.collected = true)) then
      answer (setter o p m) s = .next (faultedAt s o 1 .hostPrecondition)
    else if bad then answer (setter o p m) s = .next (faultedAt s o 2 .hostPrecondition) else Q := by
  split
  case isTrue hunready => exact setter_unready hunready
  case isFalse hready =>
    split
    case isTrue hb => exact setter_refuses (not_not.mp hready) (hbad hb)
    case isFalse hb => exact hgood (not_not.mp hready) hb

end setter

/-! ### The transport and the buffer -/

/-- Where the transport decides, only its own input changes (R266). -/
theorem xferTaken_eq (s : State) : xferTaken s = { s with xfer := (xferTaken s).xfer, draws := (xferTaken s).draws } := by
  unfold xferTaken
  split <;> rfl

@[simp] theorem xferTaken_buf (s : State) : (xferTaken s).buf = s.buf := by rw [xferTaken_eq]
@[simp] theorem xferTaken_bufEpoch (s : State) : (xferTaken s).bufEpoch = s.bufEpoch := by rw [xferTaken_eq]
@[simp] theorem xferTaken_hout (s : State) : (xferTaken s).hout = s.hout := by rw [xferTaken_eq]
@[simp] theorem xferTaken_cfg (s : State) : (xferTaken s).cfg = s.cfg := by rw [xferTaken_eq]
@[simp] theorem xferTaken_req (s : State) : (xferTaken s).req = s.req := by rw [xferTaken_eq]
@[simp] theorem xferTaken_pc (s : State) : (xferTaken s).pc = s.pc := by rw [xferTaken_eq]
@[simp] theorem xferTaken_stack (s : State) : (xferTaken s).stack = s.stack := by rw [xferTaken_eq]

/-- The transport decides the same wherever the engine is. -/
theorem run_takeXfer_atLine : takeXfer (atLine s o k) = .ok (xferChoice s) (atLine (xferTaken s) o k) := by
  have htaken : xferTaken (atLine s o k) = atLine (xferTaken s) o k := by
    simp only [xferTaken, atLine, entered]
    split <;> rfl
  rw [run_takeXfer, htaken]
  rfl

theorem run_readBlock_atLine (block : List Byte) :
    readBlock block (atLine s o k) = .ok (if xferChoice s then some block else none) (atLine (xferTaken s) o k) := by
  rw [readBlock, run_bind_ok run_takeXfer_atLine]
  split <;> rfl

theorem run_memRead_atLine {i n : Nat} (h : i + n ≤ s.cfg.bufCap) :
    memRead i n (atLine s o k) = .ok (peekBytes s i n) (atLine s o k) := run_memRead i n (atLine s o k) h

/-- The state with the bytes `bs` stored from index `i` on (R12). -/
def poked (s : State) (i : Nat) (bs : List Byte) : State := { s with buf := pokeBytes s.buf i bs }

theorem run_memWrite_atLine {i : Nat} {bs : List Byte} (h : i + bs.length ≤ s.cfg.bufCap) :
    memWrite i bs (atLine s o k) = .ok () (atLine (poked s i bs) o k) :=
  run_memWrite i bs (atLine s o k) h

/-- After a write of `n` bytes from index 0 on, these read back, and the rest of the buffer reads as before. -/
theorem peek_poked {t : State} {bs : List Byte} {n : Nat} (hbuf : t.buf = pokeBytes s.buf 0 bs) (hepoch : t.bufEpoch = s.bufEpoch)
    (hn : bs.length = n) : (∀ k, (h : k < bs.length) → peek t k = bs[k]) ∧ ∀ a, n ≤ a → peek t a = peek s a := by
  refine ⟨fun k h => ?_, fun a ha => ?_⟩
  · have hcell := cellAt_pokeBytes_inside s.buf 0 bs h
    rw [Nat.zero_add] at hcell
    rw [peek, hbuf, hcell, Option.getD_some]
  · have hcell := cellAt_pokeBytes_outside s.buf 0 bs (j := a) (.inr (by omega))
    rw [peek, hbuf, hcell, hepoch, peek]

/-! ### What the setters leave -/

/-- `SUBMIT_WRITE` with its block received (R213 lines 5 to 8). -/
def writeArmed (s : State) (n : Byte) (block : List Byte) : State :=
  { s with buf := pokeBytes s.buf 0 block, len := n, req := .write, hout := s.hout ++ [[n]] }

/-- The unspecified bytes that a failed transfer leaves (R214, U13). -/
def lostBytes (s : State) (n : Nat) : List Byte := (List.range n).map fun k => Config.freeByte (s.draws + k)

/-- `SUBMIT_WRITE` with its block lost (R213 line 4, R214). -/
def blockLost (s : State) (n : Byte) : State :=
  { s with buf := pokeBytes s.buf 0 (lostBytes s n.toNat), draws := s.draws + n.toNat, hout := s.hout ++ [[0x00]] }

/-- `SUBMIT_ASYNC` (R215 lines 3 to 7). -/
def asyncArmed (s : State) (a t n : Byte) (payload : List Byte) : State :=
  { s with buf := pokeBytes s.buf 0 (a :: t :: payload), len := n, req := .async }

section commands
variable {n : Byte} {block : List Byte} (h : s.req = .idle ∨ (s.req = .result ∧ s.collected = true))
include h

theorem exec_submitWrite_succeeds (hlen : block.length = n.toNat) (hcap : n.toNat ≤ s.cfg.bufCap) (hx : xferChoice s = true) :
    exec (.submitWrite n block) s = .next (writeArmed (xferTaken s) n block) := by
  refine setter_runs h (k := 8) (decide_eq_true hcap) ?_ (xferTaken_pc s) (xferTaken_stack s)
  have hfits : 0 + block.length ≤ (xferTaken s).cfg.bufCap := by simpa [hlen] using hcap
  rw [run_bind_ok (run_readBlock_atLine block), hx]
  change (line 5 >>= fun _ => memWrite 0 block >>= _) _ = _
  rw [run_bind_ok (run_line_atLine 3), run_bind_ok (run_memWrite_atLine hfits)]
  rfl

theorem exec_submitWrite_fails (hcap : n.toNat ≤ s.cfg.bufCap) (hx : xferChoice s = false) :
    exec (.submitWrite n block) s = .next (blockLost (xferTaken s) n) := by
  refine setter_runs h (k := 4) (decide_eq_true hcap) ?_ (xferTaken_pc s) (xferTaken_stack s)
  have hfits : 0 + (lostBytes (xferTaken s) n.toNat).length ≤ (xferTaken s).cfg.bufCap := by simpa [lostBytes] using hcap
  have hdrawn : freeBytes n.toNat (atLine (xferTaken s) .submitWrite 4) = .ok (lostBytes (xferTaken s) n.toNat)
      (atLine { xferTaken s with draws := (xferTaken s).draws + n.toNat } .submitWrite 4) := rfl
  rw [run_bind_ok (run_readBlock_atLine block), hx]
  change (line 4 >>= fun _ => freeBytes n.toNat >>= fun bs => memWrite 0 bs >>= _) _ = _
  rw [run_bind_ok (run_line_atLine 3), run_bind_ok hdrawn,
    run_bind_ok (run_memWrite_atLine (s := { xferTaken s with draws := (xferTaken s).draws + n.toNat }) hfits)]
  rfl

theorem exec_submitAsync {a t : Byte} (hlen : block.length = n.toNat) (hcap : n.toNat + 2 ≤ s.cfg.bufCap) :
    exec (.submitAsync a t n block) s = .next (asyncArmed s a t n block) := by
  refine setter_runs h (k := 7) (decide_eq_true hcap) ?_ rfl rfl
  have hatn : 0 + [a].length ≤ s.cfg.bufCap := by simp only [List.length_singleton]; omega
  have htalk : 1 + [t].length ≤ s.cfg.bufCap := by simp only [List.length_singleton]; omega
  have hpayload : 2 + block.length ≤ s.cfg.bufCap := by omega
  rw [run_bind_ok (run_memWrite_atLine hatn), run_bind_ok (run_line_atLine 3),
    run_bind_ok (run_memWrite_atLine (s := poked s 0 [a]) htalk), run_bind_ok (run_line_atLine 4),
    run_bind_ok (run_memWrite_atLine (s := poked (poked s 0 [a]) 1 [t]) hpayload)]
  rfl

end commands

/-! ### `COLLECT_READ` -/

/-- The request is over, and `f` is the answer (R211 lines 4 to 6). -/
def collectionDone (s : State) (f : List Byte) : State := { s with req := .idle, hout := s.hout ++ [f] }

theorem exec_collectRead {n : Byte} (hreq : s.req = .readDone) (hfits : min n.toNat s.len.toNat ≤ s.cfg.bufCap) :
    exec (.collectRead n) s = .next (collectionDone (xferTaken s) (if xferChoice s then
      BitVec.ofNat 8 (min n.toNat s.len.toNat) :: peekBytes s 0 (min n.toNat s.len.toNat) else [0x00])) := by
  refine answer_call_ok (k := if xferChoice s then 5 else 6) ?_ (xferTaken_pc s) (xferTaken_stack s)
  have hlen : (atLine s .collectRead 2).len = s.len := rfl
  have hcheck : requireHost (fun s => decide (s.req = .readDone)) (atLine s .collectRead 1) = .ok () (atLine s .collectRead 1) :=
    run_requireHost (decide_eq_true hreq)
  rw [run_bind_ok hcheck, run_bind_ok (run_line_atLine 1), run_bind_ok (run_get _), hlen, run_bind_ok (run_line_atLine 2),
    run_bind_ok (run_memRead_atLine (by omega)), writeBlock, run_bind_ok run_takeXfer_atLine]
  cases xferChoice s with
  | true => rfl
  | false => rfl

/-! ### `LOGICAL_POLL` and `SET_RELEASE` -/

/-- The poll byte shows the lines of the bus below RESET, and nothing else (R84, R221). -/
theorem getLsbD_pollByte (s : State) (k : Nat) :
    (pollByte s).getLsbD k = (decide (k < 3) && (s.out.getLsbD k || s.dev.getLsbD k)) := by
  rw [pollByte, State.busLevel, BitVec.getLsbD_setWidth, BitVec.getLsbD_extractLsb', BitVec.getLsbD_or, Nat.zero_add]
  by_cases hk : k < 3
  · simp [hk, Nat.lt_trans hk (by decide : 3 < 8)]
  · simp [hk]

theorem maskHighClear_eq_false_iff (m : Byte) : maskHighClear m = false ↔ 16 ≤ m.toNat := by
  revert m
  decide

/-- The operands that `SET_RELEASE` refuses (R91). -/
theorem setReleaseLegal_eq_false_iff (a r : Byte) : setReleaseLegal a r = false ↔ 16 ≤ a.toNat ∨ 16 ≤ r.toNat ∨ a &&& r ≠ 0 := by
  simp only [setReleaseLegal, Bool.and_eq_false_iff, maskHighClear_eq_false_iff, beq_eq_false_iff_ne, or_assoc]

theorem maskLines_eq_setWidth (m : Byte) : maskLines m = m.setWidth 4 := by
  revert m
  decide

end Sys2Proof.Machine
end

section
open Sys2Proof Sys2Proof.Machine

/-- Settles O12: a setter whose operand is the length. -/
theorem requestReadMeaning : Obligations.RequestReadMeaning := by
  intro s n
  refine ⟨rfl, setter_meaning (fun hbad => decide_eq_false ?_) fun hready hgood => ?_⟩
  · rintro ⟨hne, hle⟩
    exact hbad.elim hne (Nat.not_lt.mpr hle)
  · obtain ⟨hne, hle⟩ := not_or.mp hgood
    exact setter_runs hready (k := 4) (decide_eq_true ⟨hne, Nat.not_lt.mp hle⟩) rfl rfl rfl

/-- Settles O14: a setter whose block fills the buffer from index 0 on. -/
theorem submitWriteMeaning : Obligations.SubmitWriteMeaning := by
  intro s n block hwf
  have hlen : block.length = n.toNat := by simpa [Instr.wellFormed] using hwf
  refine ⟨rfl, setter_meaning (fun hlong => decide_eq_false (Nat.not_le.mpr hlong)) fun hready hfits hx => ?_⟩
  refine ⟨_, exec_submitWrite_succeeds hready hlen (Nat.not_lt.mp hfits) hx, ?_, ?_⟩
  · simp only [writeArmed, xferTaken_hout]
  · exact peek_poked (congrArg (pokeBytes · 0 block) (xferTaken_buf s)) (xferTaken_bufEpoch s) hlen

/-- Settles O15: the lost bytes fill the first `n` of the buffer, and the request state is one that dispatch leaves alone. -/
theorem submitWriteTransportFailure : Obligations.SubmitWriteTransportFailure := by
  intro s n block hready hcap hx
  have hlost := congrArg (pokeBytes · 0 (lostBytes (xferTaken s) n.toNat)) (xferTaken_buf s)
  obtain ⟨-, hrest⟩ := peek_poked (t := blockLost (xferTaken s) n) hlost (xferTaken_bufEpoch s) (n := n.toNat) (by simp [lostBytes])
  have hreq : (blockLost (xferTaken s) n).req = s.req := xferTaken_req s
  refine ⟨_, exec_submitWrite_fails hready hcap hx, ?_, hrest, ?_⟩
  · rw [blockLost, xferTaken_eq s]
  · rcases hready with hidle | ⟨hresult, -⟩
    · rw [hreq, hidle]
      rfl
    · rw [hreq, hresult]
      rfl

/-- Settles O16: a setter whose two flags and payload are one run of bytes from index 0 on. -/
theorem submitAsyncMeaning : Obligations.SubmitAsyncMeaning := by
  intro s a t n payload hcap hwf
  have hlen : payload.length = n.toNat := by simpa [Instr.wellFormed] using hwf
  have hroom : n.toNat + 2 ≤ s.cfg.bufCap ↔ ¬s.cfg.bufCap - 2 < n.toNat := by omega
  refine ⟨rfl, setter_meaning (fun hlong => decide_eq_false fun hfits => hroom.mp hfits hlong) fun hready hfits => ?_⟩
  obtain ⟨hstored, hrest⟩ := peek_poked (s := s) (t := asyncArmed s a t n payload) (n := n.toNat + 2) (bs := a :: t :: payload) rfl rfl
    (by simp only [List.length_cons, hlen])
  refine ⟨_, exec_submitAsync hready hlen (hroom.mpr hfits), rfl, hstored 0 (by simp), hstored 1 (by simp), fun k hk => ?_, hrest⟩
  have hbyte := hstored (2 + k) (by simp only [List.length_cons]; omega)
  simpa [Nat.add_comm 2 k] using hbyte

/-- Settles O17: what `QUERY_RESULT` leaves is stated by `queried`. -/
theorem queryResultMeaning : Obligations.QueryResultMeaning := ⟨rfl, exec_queryResult⟩

/-- Settles O13, by the state that a collection leaves. -/
theorem collectReadMeaning : Obligations.CollectReadMeaning := by
  intro s n hcap
  refine ⟨rfl, ?_⟩
  split
  case isTrue hreq => exact answer_call_error (run_bind_error (run_requireHost_fails (decide_eq_false hreq)) _)
  case isFalse hreq =>
    rw [exec_collectRead (not_not.mp hreq) (by omega), collectionDone, xferTaken_hout]

/-- Settles O21: no line is named, so line 1 refuses the selector. -/
theorem logicalWaitSelectorFault : Obligations.LogicalWaitSelectorFault := by
  intro s sel state hsel
  have hnone : selectedLine sel = none := by
    simp only [not_or] at hsel
    simp only [selectedLine, hsel, if_false]
  refine answer_call_error (e := .faulted) ?_
  rw [hnone]
  rfl

/-- Settles O23, by the bits of the poll byte. -/
theorem logicalPollMeaning : Obligations.LogicalPollMeaning := by
  refine ⟨rfl, fun s => ⟨pollByte s, rfl, getLsbD_pollByte s 0, getLsbD_pollByte s 1, getLsbD_pollByte s 2, fun k hk => ?_⟩⟩
  rw [getLsbD_pollByte, decide_eq_false (Nat.not_lt.mpr hk), Bool.false_and]

/-- Settles O24: line 1 refuses what is not legal, and line 2 is one line write. -/
theorem setReleaseMeaning : Obligations.SetReleaseMeaning := by
  intro s a r
  refine ⟨rfl, ?_⟩
  split
  case isTrue hbad =>
    exact answer_call_error (run_bind_error (run_requireOperand_fails ((setReleaseLegal_eq_false_iff a r).mpr hbad)) _)
  case isFalse hgood =>
    have hlegal : setReleaseLegal a r = true := by rwa [← setReleaseLegal_eq_false_iff, Bool.not_eq_false] at hgood
    refine answer_call_ok (k := 2) ?_ rfl rfl
    rw [run_bind_ok (run_requireOperand hlegal _), run_bind_ok (run_line_atLine 1), ← maskLines_eq_setWidth, ← maskLines_eq_setWidth]
    rfl
end

section
/-! PROOFS. `LOGICAL_WAIT` (R219, R220): a call of `WaitForever` on the line that the selector names. -/

namespace Sys2Proof.Machine

variable {s t : State} {c : State → Bool}

/-! ### `WaitForever` -/

/-- A condition that holds at the first sample is waited for in no time, however late it is (R113). -/
theorem run_waitForever_first (hc : BusOnly c) (h : c s = true) : waitForever c s = .ok () s := by
  have hfirst : c { s with pc := ⟨.waitForever, 2⟩, stack := s.pc :: s.stack } = true := by
    rw [← h]
    exact hc _ _ rfl rfl rfl
  simp only [waitForever, run_call, run_bind, run_get, foreverFuel, foreverLoop, run_line, hfirst, if_true, run_pure]

/-- A delay that returns has not outlasted the watchdog (R110, R258). -/
theorem ends_delay_in_time {B : State → Prop} {Q : Unit → State → Prop} {d : Nat}
    (h : ∀ n i k, n ≤ deadline s → Q () { s with now := n, irq := i, draws := k }) : Ends B Q (delay d s) := by
  have hends : Ends B (fun _ _ => True) (delay d s) := ends_delay fun _ _ _ _ => trivial
  refine ends_imp (ends_self hends) fun _ t hs => ?_
  obtain ⟨ht, hnow⟩ := delay_returns hs
  have hparts : t = { s with now := t.now, irq := t.irq, draws := t.draws } := by
    rw [ht, irqTaken]
    split <;> rfl
  rw [hparts]
  exact h _ _ _ hnow

theorem ends_foreverLoop_in_time {n last : Nat} (hlast : deadline s = last) (hd : s.now ≤ last) :
    Ends (fun _ => True) (fun _ t => t.now ≤ last) (foreverLoop c n s) := by
  induction n generalizing s with
  | zero => simp [foreverLoop]
  | succ n ih =>
    simp only [foreverLoop, ends_bind, run_line, ends_ok, run_get, ends_ite, run_pure]
    exact ⟨fun _ => hd, fun _ => ends_delay_in_time fun m _ _ hm => ih hlast (hm.trans_eq hlast)⟩

/-- A wait that returns has not outlasted the watchdog (R113, R258). -/
theorem waitForever_returns_in_time (h : waitForever c s = .ok () t) (hd : s.now ≤ deadline s) : t.now ≤ deadline s := by
  have hends : Ends (fun _ => True) (fun _ t => t.now ≤ deadline s) (waitForever c s) := by
    simp only [waitForever, ends_call, ends_bind, run_get, ends_ok]
    exact ends_foreverLoop_in_time rfl hd
  rwa [h, ends_ok] at hends

/-! ### The condition and the call -/

/-- The condition that `LOGICAL_WAIT` waits for (R219): the line asserted for a nonzero state, released for 0. -/
def waitsFor (l : Line) (state : Byte) : State → Bool := if byteIsTrue state then asserted l else released l

/-- The line of R219 at which it waits. -/
def waitLine (state : Byte) : Nat := if byteIsTrue state then 2 else 3

theorem waitsFor_eq_iff (l : Line) (state : Byte) (s : State) (b : Bool) :
    waitsFor l state s = b ↔ if state ≠ 0 then asserted l s = b else released l s = b := by
  by_cases hstate : state = 0
  · simp [waitsFor, byteIsTrue, hstate]
  · rw [waitsFor, byteIsTrue, if_pos (bne_iff_ne.mpr hstate), if_pos hstate]

theorem busOnly_waitsFor (l : Line) (state : Byte) : BusOnly (waitsFor l state) := by
  unfold waitsFor
  split
  · exact busOnly_asserted l
  · exact busOnly_released l

variable {l : Line} {sel state : Byte}

/-- The selectors and the lines they name (R81, R82). -/
def selectors : List (Byte × Line) := [(0x01, .data), (0x02, .clock), (0x04, .atn), (0x08, .reset)]

section
variable (hsel : (sel, l) ∈ selectors)
include hsel

theorem logicalWaitOp_eq_call :
    logicalWaitOp sel state = call .logicalWait (line (waitLine state) >>= fun _ => waitForever (waitsFor l state)) := by
  have hline : selectedLine sel = some l := by
    simp only [selectors, List.mem_cons, Prod.mk.injEq, List.not_mem_nil, or_false] at hsel
    rcases hsel with ⟨rfl, rfl⟩ | ⟨rfl, rfl⟩ | ⟨rfl, rfl⟩ | ⟨rfl, rfl⟩ <;> rfl
  rw [logicalWaitOp, hline, waitLine, waitsFor]
  cases byteIsTrue state with
  | true => rfl
  | false => rfl

/-- A `LOGICAL_WAIT` that finds its condition. -/
theorem logicalWaitOp_returns (h : logicalWaitOp sel state s = .ok () t) :
    waited s t ∧ waitsFor l state t = true ∧ (s.now ≤ deadline s → t.now ≤ deadline s) := by
  rw [logicalWaitOp_eq_call hsel] at h
  obtain ⟨u, hbody, rfl⟩ := call_returns_body h
  change waitForever _ (atLine s .logicalWait (waitLine state)) = _ at hbody
  obtain ⟨⟨hnow, hu⟩, hcond⟩ := waitForever_ends (busOnly_waitsFor l state) hbody
  have hback : waitsFor l state (backAt s u) = true := by
    rw [← hcond]
    exact busOnly_waitsFor l state _ _ rfl rfl rfl
  have hlast : s.now ≤ deadline s → u.now ≤ deadline s :=
    waitForever_returns_in_time (s := atLine s .logicalWait (waitLine state)) hbody
  refine ⟨⟨hnow, ?_⟩, hback, hlast⟩
  rw [hu]
  rfl

/-- A fault or an endless loop leaves the engine inside the `LOGICAL_WAIT` (R33, R219). -/
theorem logicalWaitOp_inside (s : State) : Ends (Inside s) (fun _ _ => True) (logicalWaitOp sel state s) := by
  rw [logicalWaitOp_eq_call hsel, ends_call, ends_bind, run_line, ends_ok]
  refine ends_waitForever_inside (fun t ht => ?_) fun _ _ _ _ => trivial
  rw [Inside, ht]
  exact Nat.lt_add_of_pos_right Nat.two_pos

/-- Where a poll takes time and the condition does not come true before the watchdog's deadline, the watchdog ends the wait (R220). -/
theorem logicalWaitOp_expires (hp : 1 ≤ s.cfg.tPoll) (hd : s.now ≤ deadline s)
    (hno : ∀ u, s.now ≤ u → u ≤ deadline s → waitsFor l state { s with now := u } = false) :
    ∃ t, logicalWaitOp sel state s = .error .watchdog t := by
  have hends : Ends (fun _ => False) (fun _ _ => True) (logicalWaitOp sel state s) := by
    rw [logicalWaitOp_eq_call hsel, ends_call, ends_bind, run_line, ends_ok]
    exact ends_waitForever (fun _ _ hnp => hnp hp) fun _ _ _ _ => trivial
  cases hs : logicalWaitOp sel state s with
  | ok _ t =>
    obtain ⟨⟨hnow, ht⟩, hcond, hlast⟩ := logicalWaitOp_returns hsel hs
    have hsame : waitsFor l state t = waitsFor l state { s with now := t.now } :=
      busOnly_waitsFor l state _ _ (by rw [ht]) (by rw [ht]) rfl
    rw [hsame, hno t.now hnow (hlast hd)] at hcond
    cases hcond
  | error e t =>
    rw [hs, ends_error, or_false] at hends
    exact ⟨t, by rw [hends]⟩

end

end Sys2Proof.Machine
end

section
open Sys2Proof Sys2Proof.Machine

/-- Settles O19: the wait ends at its first sample. -/
theorem logicalWaitEndsAtOnce : Obligations.LogicalWaitEndsAtOnce := by
  intro s l sel state hsel hcond
  have hhere : waitsFor l state (atLine s .logicalWait (waitLine state)) = true :=
    (waitsFor_eq_iff l state _ true).mpr hcond
  refine (answer_congr (congrFun (logicalWaitOp_eq_call hsel) s)).trans (answer_call_ok (k := waitLine state) ?_ rfl rfl)
  rw [run_bind_ok (run_line_atLine 1)]
  exact run_waitForever_first (busOnly_waitsFor l state) hhere

/-- Settles O20: a wait that is back at its caller has returned. -/
theorem logicalWaitReturnsOnItsCondition : Obligations.LogicalWaitReturnsOnItsCondition := by
  intro s t l sel state hsel h hret
  obtain ⟨_, hrun⟩ := ok_of_returned (frame_logicalWaitOp sel state) (logicalWaitOp_inside hsel s) h hret
  obtain ⟨⟨hnow, ht⟩, hcond, -⟩ := logicalWaitOp_returns hsel hrun
  exact ⟨(waitsFor_eq_iff l state t true).mp hcond, hnow, ht⟩

/-- Settles O22: a wait that does not return is ended by the watchdog, and until then it has changed nothing but time. -/
theorem logicalWaitOutlastsWatchdog : Obligations.LogicalWaitOutlastsWatchdog := by
  intro s l sel state hsel hp hno hd
  obtain ⟨t, hrun⟩ := logicalWaitOp_expires hsel hp hd fun u hnow hlast => (waitsFor_eq_iff l state _ false).mpr (hno u hnow hlast)
  have hlands := frame_logicalWaitOp sel state s
  rw [hrun] at hlands
  obtain ⟨u, hframe, rfl⟩ := hlands
  have htrace : u.trace = s.trace := hframe.2 .trace (by decide)
  refine ⟨_, (answer_eq_next ..).mpr (finalState_error hrun), ?_⟩
  simp [frame_resets hframe, frame_fault hframe, htrace]
end

section
/-! PROOFS. Nothing the engine does depends on the call stack (R33): it is pushed and popped, and a watchdog reset empties it. So `reset`
comes to the same whoever calls it (R224). -/

namespace Sys2Proof.Machine

variable {α β : Type} {s t : State}

/-- The state with another call stack. -/
def restacked (st : List Loc) (s : State) : State := { s with stack := st }

/-- The run `y` ends as the run `x`: alike but for the call stack where they return, and the same where the watchdog resets the engine.
Of the states that a fault or an endless loop leaves nothing is said. -/
def EndsAlike : EStateM.Result Stop State α → EStateM.Result Stop State α → Prop
  | .ok a t, y => ∃ st, y = .ok a (restacked st t)
  | .error .watchdog t, y => y = .error .watchdog t
  | .error _ _, _ => True

/-- The operation runs alike on every call stack. -/
def StackBlind (m : Op α) : Prop := ∀ st s, EndsAlike (m s) (m (restacked st s))

/-! ### Sequencing, choice, calls -/

theorem stackBlind_bind {m : Op α} {f : α → Op β} (hm : StackBlind m) (hf : ∀ a, StackBlind (f a)) : StackBlind (m >>= f) := by
  intro st s
  have hfirst := hm st s
  rw [run_bind, run_bind]
  cases hs : m s with
  | ok a t =>
    rw [hs] at hfirst
    obtain ⟨st', hrun⟩ := hfirst
    rw [hrun]
    exact hf a st' t
  | error e t =>
    rw [hs] at hfirst
    cases e with
    | watchdog =>
      rw [show m (restacked st s) = .error .watchdog t from hfirst]
      rfl
    | faulted => trivial
    | hung => trivial

theorem stackBlind_ite {p : Prop} [Decidable p] {m k : Op α} (hm : StackBlind m) (hk : StackBlind k) :
    StackBlind (if p then m else k) := by
  split <;> assumption

/-- A call keeps the stack for its return only. -/
theorem stackBlind_call {o : OpName} {m : Op α} (hm : StackBlind m) : StackBlind (call o m) := by
  intro st s
  have hbody := hm (s.pc :: st) (entered s o)
  have hentered : restacked (s.pc :: st) (entered s o) = entered (restacked st s) o := rfl
  rw [hentered] at hbody
  cases hs : m (entered s o) with
  | ok a t =>
    rw [hs] at hbody
    obtain ⟨st', hrun⟩ := hbody
    rw [call_ok hs, call_ok hrun]
    exact ⟨st, rfl⟩
  | error e t =>
    rw [hs] at hbody
    rw [call_error hs]
    cases e with
    | watchdog => exact call_error hbody
    | faulted => trivial
    | hung => trivial

/-! ### The operations of a bus reset -/

theorem stackBlind_of_ok {m : Op α} (h : ∀ s, ∃ a t, m s = .ok a t ∧ ∀ st, m (restacked st s) = .ok a (restacked st t)) :
    StackBlind m := by
  intro st s
  obtain ⟨a, t, hrun, hrestacked⟩ := h s
  rw [hrun, hrestacked st]
  exact ⟨st, rfl⟩

/-- What is read of the state must not be its stack. -/
theorem stackBlind_get {f : State → Op α} (hread : ∀ st s, f (restacked st s) = f s) (hf : ∀ s, StackBlind (f s)) :
    StackBlind (get >>= f) := by
  intro st s
  rw [run_bind_ok (run_get s), run_bind_ok (run_get _), hread]
  exact hf s st s

theorem stackBlind_pure (a : α) : StackBlind (pure a : Op α) := stackBlind_of_ok fun s => ⟨a, s, rfl, fun _ => rfl⟩
theorem stackBlind_hang : StackBlind (hang : Op α) := fun _ _ => trivial
theorem stackBlind_line (k : Nat) : StackBlind (line k) := stackBlind_of_ok fun _ => ⟨_, _, rfl, fun _ => rfl⟩
theorem stackBlind_assertLines (m : Lines) : StackBlind (assertLines m) := stackBlind_of_ok fun _ => ⟨_, _, rfl, fun _ => rfl⟩
theorem stackBlind_releaseLines (m : Lines) : StackBlind (releaseLines m) := stackBlind_of_ok fun _ => ⟨_, _, rfl, fun _ => rfl⟩
theorem stackBlind_log (e : Event) : StackBlind (log e) := stackBlind_of_ok fun _ => ⟨_, _, rfl, fun _ => rfl⟩
theorem stackBlind_kickWatchdog : StackBlind kickWatchdog := stackBlind_of_ok fun _ => ⟨_, _, rfl, fun _ => rfl⟩
theorem stackBlind_setT0 (n : Nat) : StackBlind (setT0 n) := stackBlind_of_ok fun _ => ⟨_, _, rfl, fun _ => rfl⟩

theorem stackBlind_readReg {g : State → Option α} (hread : ∀ st s, g (restacked st s) = g s) : StackBlind (readReg g) := by
  intro st s
  simp only [readReg, hread]
  cases g s with
  | some a => exact ⟨st, rfl⟩
  | none => trivial

theorem deliver_restacked (st : List Loc) (s : State) : deliver (restacked st s) = restacked st (deliver s) := by
  have key : ∀ (ms : List HostMove) (s : State), deliverMoves ms (restacked st s) = restacked st (deliverMoves ms s) := by
    intro ms
    induction ms with
    | nil => exact fun _ => rfl
    | cons m ms ih =>
      intro s
      have hact : hostAct m.act (restacked st s) = restacked st (hostAct m.act s) := by cases m.act <;> rfl
      have htime : (restacked st s).now = s.now := rfl
      simp only [deliverMoves, hact, ih, htime]
      split <;> rfl
  exact key s.host s

theorem watchdogReset_restacked (st : List Loc) (s : State) : watchdogReset (restacked st s) = watchdogReset s := by
  simp only [watchdogReset, deliver_restacked]
  rfl

theorem stackBlind_passTime (d : Nat) : StackBlind (passTime d) := by
  intro st s
  by_cases hd : s.wdtLast + s.cfg.tWdt < s.now + d
  · rw [run_passTime_expires d s hd, run_passTime_expires d (restacked st s) hd]
    exact congrArg _ (watchdogReset_restacked st { s with now := max s.now (s.wdtLast + s.cfg.tWdt + 1) })
  · rw [run_passTime d s (Nat.not_lt.mp hd), run_passTime d (restacked st s) (Nat.not_lt.mp hd)]
    exact ⟨st, rfl⟩

theorem stackBlind_takeIrq : StackBlind takeIrq := by
  refine stackBlind_of_ok fun s => ⟨_, _, run_takeIrq s, fun st => ?_⟩
  have htaken : irqTaken (restacked st s) = restacked st (irqTaken s) := by
    simp only [irqTaken, restacked]
    split <;> rfl
  rw [run_takeIrq, htaken]
  rfl

theorem stackBlind_delay (d : Nat) : StackBlind (delay d) :=
  stackBlind_bind stackBlind_takeIrq fun j st s => stackBlind_passTime (delayLength s d j) st s

theorem stackBlind_probeFree : StackBlind probeFree := by
  refine stackBlind_call <| stackBlind_bind (stackBlind_releaseLines _) fun _ => stackBlind_bind (stackBlind_line _) fun _ =>
    stackBlind_get (fun _ _ => rfl) fun _ => stackBlind_bind (stackBlind_delay _) fun _ => stackBlind_bind (stackBlind_line _) fun _ =>
    stackBlind_get (fun _ _ => rfl) fun _ => stackBlind_ite (stackBlind_pure _) ?_
  refine stackBlind_bind (stackBlind_line _) fun _ => stackBlind_bind (stackBlind_assertLines _) fun _ =>
    stackBlind_bind (stackBlind_line _) fun _ => stackBlind_get (fun _ _ => rfl) fun _ => stackBlind_bind (stackBlind_delay _) fun _ =>
    stackBlind_bind (stackBlind_line _) fun _ => stackBlind_get (fun _ _ => rfl) fun _ =>
    stackBlind_ite (stackBlind_bind (stackBlind_releaseLines _) fun _ => stackBlind_pure _) ?_
  exact stackBlind_bind (stackBlind_line _) fun _ => stackBlind_bind (stackBlind_releaseLines _) fun _ =>
    stackBlind_bind (stackBlind_line _) fun _ => stackBlind_get (fun _ _ => rfl) fun _ => stackBlind_bind (stackBlind_delay _) fun _ =>
    stackBlind_bind (stackBlind_line _) fun _ => stackBlind_get (fun _ _ => rfl) fun _ => stackBlind_pure _

theorem stackBlind_freeBusLoop (f : Nat) : StackBlind (freeBusLoop f) := by
  induction f with
  | zero => exact stackBlind_hang
  | succ f ih =>
    refine stackBlind_bind (stackBlind_line _) fun _ => stackBlind_bind stackBlind_kickWatchdog fun _ =>
      stackBlind_bind (stackBlind_line _) fun _ => stackBlind_bind stackBlind_probeFree fun _ => stackBlind_ite (stackBlind_pure _) ?_
    exact stackBlind_bind (stackBlind_line _) fun _ => stackBlind_get (fun _ _ => rfl) fun _ =>
      stackBlind_bind (stackBlind_readReg fun _ _ => rfl) fun _ => stackBlind_get (fun _ _ => rfl) fun _ =>
      stackBlind_ite (stackBlind_log _) <| stackBlind_bind (stackBlind_line _) fun _ => stackBlind_get (fun _ _ => rfl) fun _ =>
      stackBlind_bind (stackBlind_delay _) fun _ => ih

theorem stackBlind_waitFreeBus : StackBlind waitFreeBus :=
  stackBlind_call <| stackBlind_get (fun _ _ => rfl) fun _ => stackBlind_bind (stackBlind_setT0 _) fun _ =>
  stackBlind_get (fun _ _ => rfl) fun _ => stackBlind_freeBusLoop _

theorem stackBlind_resetPulse : StackBlind resetPulse :=
  stackBlind_bind (stackBlind_releaseLines _) fun _ => stackBlind_bind (stackBlind_line _) fun _ =>
  stackBlind_bind (stackBlind_assertLines _) fun _ => stackBlind_bind (stackBlind_line _) fun _ =>
  stackBlind_get (fun _ _ => rfl) fun _ => stackBlind_bind (stackBlind_delay _) fun _ => stackBlind_bind (stackBlind_line _) fun _ =>
  stackBlind_releaseLines _

/-! ### `BUS_RESET` -/

/-- Lines 1 to 6 of `reset` (R164). -/
def resetBody : Op Unit := do
  resetPulse
  line 5
  waitFreeBus
  line 6

theorem stackBlind_resetBody : StackBlind resetBody :=
  stackBlind_bind stackBlind_resetPulse fun _ => stackBlind_bind (stackBlind_line _) fun _ =>
  stackBlind_bind stackBlind_waitFreeBus fun _ => stackBlind_line _

/-- A call comes to the same from inside another operation called from `s` as from `s`. -/
theorem endsAlike_called {m : Op α} (hm : StackBlind m) (o p : OpName) (s : State) :
    EndsAlike (call o (call p m) s) (call p m s) := by
  have hbody := hm (s.pc :: s.stack) (entered (entered s o) p)
  have hentered : restacked (s.pc :: s.stack) (entered (entered s o) p) = entered s p := rfl
  rw [hentered] at hbody
  cases hs : m (entered (entered s o) p) with
  | ok a t =>
    rw [hs] at hbody
    obtain ⟨st, hrun⟩ := hbody
    rw [call_ok (call_ok hs), call_ok hrun]
    exact ⟨s.stack, rfl⟩
  | error e t =>
    rw [hs] at hbody
    rw [call_error (call_error hs)]
    cases e with
    | watchdog => exact call_error hbody
    | faulted => trivial
    | hung => trivial

theorem endsAlike_busReset (s : State) : EndsAlike (busResetCommandOp s) (busResetOp s) :=
  endsAlike_called stackBlind_resetBody .busReset .reset s

theorem busResetOp_of_busReset_ok (h : busResetCommandOp s = .ok () t) : busResetOp s = .ok () t := by
  have halike := endsAlike_busReset s
  rw [h] at halike
  obtain ⟨st, hrun⟩ := halike
  have hst : st = t.stack := (call_returns hrun).2.trans (call_returns h).2.symm
  rw [hst] at hrun
  exact hrun

theorem busResetOp_of_busReset_expires (h : busResetCommandOp s = .error .watchdog t) : busResetOp s = .error .watchdog t := by
  have halike := endsAlike_busReset s
  rw [h] at halike
  exact halike

/-- A fault or an endless loop leaves the engine inside the command (R33, R224). -/
theorem busResetCommandOp_inside (s : State) : Ends (Inside s) (fun _ _ => True) (busResetCommandOp s) := by
  rw [busResetCommandOp, ends_call_entered]
  exact ends_mono (ends_busResetOp_freed _) (fun _ hinside => (Nat.lt_succ_self _).trans hinside) fun _ _ _ => trivial

/-- Where the count of watchdog resets has changed, one has ended the operation. -/
theorem run_expires_of_resets_ne {may : List Part} {m : Op α} (hm : Within (Frame may) m) (h : answer m s = .next t)
    (hr : t.resets ≠ s.resets) : m s = .error .watchdog t := by
  have hlands := hm s
  cases hs : m s with
  | ok a u =>
    rw [answer_eq_next, finalState_ok hs] at h
    rw [hs] at hlands
    exact absurd (frame_resets (h ▸ hlands)) hr
  | error e u =>
    rw [answer_eq_next, finalState_error hs] at h
    subst h
    rw [hs] at hlands
    cases e with
    | watchdog => rfl
    | faulted =>
      obtain ⟨v, k, hv, rfl⟩ := hlands
      exact absurd (frame_resets hv) hr
    | hung => exact absurd (frame_resets hlands) hr

end Sys2Proof.Machine
end

section
open Sys2Proof Sys2Proof.Machine

/-- Settles O25: the call that `BUS_RESET` adds is seen on the call stack only, and that is as it was, or empty. -/
theorem busResetIsReset : Obligations.BusResetIsReset := by
  refine ⟨rfl, fun s t h hend => (answer_eq_next ..).mpr ?_⟩
  rcases hend with hret | hreset
  · obtain ⟨_, hrun⟩ := ok_of_returned (within_call frame_busResetOp) (busResetCommandOp_inside s) h hret
    exact finalState_ok (busResetOp_of_busReset_ok hrun)
  · exact finalState_error (busResetOp_of_busReset_expires (run_expires_of_resets_ne (within_call frame_busResetOp) h hreset))
end

section
/-! PROOFS. The trace (R37): wherever an operation ends, also where the watchdog ends it, it has only appended events. -/

namespace Sys2Proof.Machine

variable {α β : Type} {may : List Part}

/-- Wherever the operation ends, the trace has only grown. -/
def Appends (m : Op α) : Prop := ∀ s, s.trace <+: (finalState m s).trace

/-- Wherever the operation ends, the trace is as it was. -/
def Silent (m : Op α) : Prop := ∀ s, (finalState m s).trace = s.trace

theorem appends_of_silent {m : Op α} (h : Silent m) : Appends m := fun s => ⟨[], by rw [List.append_nil, h s]⟩

/-! ### Sequencing, choice, calls -/

theorem appends_bind {m : Op α} {f : α → Op β} (hm : Appends m) (hf : ∀ a, Appends (f a)) : Appends (m >>= f) := by
  intro s
  have hfirst := hm s
  cases hs : m s with
  | ok a t =>
    have hrest : finalState (m >>= f) s = finalState (f a) t := by simp only [finalState, run_bind_ok hs]
    rw [finalState_ok hs] at hfirst
    rw [hrest]
    exact hfirst.trans (hf a t)
  | error e t =>
    rw [finalState_error hs] at hfirst
    rwa [finalState_error (run_bind_error hs f)]

/-- What comes after an operation that does not touch the trace. -/
theorem appends_after {m : Op α} {f : α → Op β} (hm : Silent m) (hf : ∀ a, Appends (f a)) : Appends (m >>= f) :=
  appends_bind (appends_of_silent hm) hf

/-- What comes after an operation that is plainly one change of the state outside the trace. -/
theorem appends_next {m : Op α} {f : α → Op β} (hf : ∀ a, Appends (f a)) (hm : Silent m := by exact fun _ => rfl) :
    Appends (m >>= f) := appends_after hm hf

theorem appends_ite {p : Prop} [Decidable p] {m k : Op α} (hm : Appends m) (hk : Appends k) : Appends (if p then m else k) := by
  split <;> assumption

theorem appends_call {o : OpName} {m : Op α} (hm : Appends m) : Appends (call o m) := by
  intro s
  have hbody := hm (entered s o)
  cases hs : m (entered s o) with
  | ok a t =>
    rw [finalState_ok hs] at hbody
    rwa [finalState_ok (call_ok hs)]
  | error e t =>
    rw [finalState_error hs] at hbody
    rwa [finalState_error (call_error hs)]

/-! ### The primitives -/

theorem silent_of_frame {m : Op α} (hm : Within (Frame may) m) (h : Part.trace ∉ may) : Silent m := by
  intro s
  have hlands := hm s
  cases hs : m s with
  | ok a t =>
    rw [hs] at hlands
    rw [finalState_ok hs]
    exact hlands.2 .trace h
  | error e t =>
    rw [hs] at hlands
    rw [finalState_error hs]
    cases e with
    | hung => exact hlands.2 .trace h
    | faulted =>
      obtain ⟨u, k, hu, rfl⟩ := hlands
      exact hu.2 .trace h
    | watchdog =>
      obtain ⟨u, hu, rfl⟩ := hlands
      exact (watchdogReset_trace u).trans (hu.2 .trace h)

theorem silent_readReg (g : State → Option α) : Silent (readReg g) := silent_of_frame (may := []) (frame_readReg g) (by decide)
theorem silent_delay (d : Nat) : Silent (delay d) := silent_of_frame (may := waitParts) (frame_delay d (by decide)) (by decide)
theorem silent_waitUntil (c : State → Bool) (T : Nat) : Silent (waitUntil c T) := silent_of_frame (frame_waitUntil c T) (by decide)
theorem silent_waitForever (c : State → Bool) : Silent (waitForever c) := silent_of_frame (frame_waitForever c) (by decide)
theorem silent_memReadByte (i : Nat) : Silent (memReadByte i) := silent_of_frame (may := []) (frame_memReadByte i) (by decide)
theorem silent_memWrite (i : Nat) (bs : List Byte) : Silent (memWrite i bs) :=
  silent_of_frame (may := [.buf]) (frame_memWrite i bs (by decide)) (by decide)

theorem appends_pure (a : α) : Appends (pure a : Op α) := appends_of_silent fun _ => rfl
theorem appends_hang : Appends (hang : Op α) := appends_of_silent fun _ => rfl
theorem appends_log (e : Event) : Appends (log e) := fun _ => ⟨[e], rfl⟩
theorem appends_kickWatchdog : Appends kickWatchdog := fun _ => ⟨[Event.kick], rfl⟩
theorem appends_line (k : Nat) : Appends (line k) := appends_of_silent fun _ => rfl
theorem appends_releaseLines (m : Lines) : Appends (releaseLines m) := appends_of_silent fun _ => rfl
theorem appends_readReg (g : State → Option α) : Appends (readReg g) := appends_of_silent (silent_readReg g)
theorem appends_waitForever (c : State → Bool) : Appends (waitForever c) := appends_of_silent (silent_waitForever c)

/-! ### The transactions -/

theorem appends_pollLoop (c : State → Bool) (n : Nat) : Appends (pollLoop true c n) := by
  induction n with
  | zero => exact appends_next fun _ => appends_pure _
  | succ n ih =>
    exact appends_next fun _ => appends_bind appends_kickWatchdog fun _ => appends_next fun _ => appends_ite (appends_pure _) <|
      appends_next fun _ => appends_next fun _ => appends_after (silent_delay _) fun _ => ih

theorem appends_waitUntilKick (c : State → Bool) (T : Nat) : Appends (waitUntilKick c T) :=
  appends_call <| appends_next fun _ => appends_pollLoop c _

theorem appends_returnCount (c : Nat) : Appends (returnCount c) := appends_of_silent fun _ => rfl

theorem appends_deviceAbsent : Appends deviceAbsent :=
  appends_next fun _ => appends_bind (appends_log _) fun _ => appends_returnCount 0

theorem appends_handOff (talk : Bool) : Appends (handOff talk) :=
  appends_ite (appends_next fun _ => appends_next fun _ => appends_next fun _ => appends_waitForever _)
    (appends_next fun _ => appends_releaseLines _)

theorem appends_finishWrite (n : Nat) (talk : Bool) : Appends (finishWrite n talk) :=
  appends_next fun _ => appends_bind (appends_handOff talk) fun _ => appends_next fun _ => appends_returnCount n

theorem appends_eoiHandshake (n : Nat) (atn : Bool) : Appends (eoiHandshake n atn) :=
  appends_next fun _ => appends_after (silent_readReg _) fun _ => appends_ite
    (appends_next fun _ => appends_after (silent_waitForever _) fun _ => appends_next fun _ => appends_waitForever _)
    (appends_pure ())

theorem appends_writeBytes (base n : Nat) (atn talk : Bool) (k i : Nat) : Appends (writeBytes base n atn talk k i) := by
  induction k generalizing i with
  | zero => exact appends_next fun _ => appends_finishWrite n talk
  | succ k ih =>
    refine appends_next fun _ => appends_next fun _ => appends_next fun _ => appends_next fun _ =>
      appends_after (silent_delay _) fun _ => appends_next fun _ => appends_next fun _ => appends_ite appends_deviceAbsent ?_
    refine appends_next fun _ => appends_next fun _ => appends_next fun _ => appends_after (silent_waitForever _) fun _ =>
      appends_bind (appends_eoiHandshake n atn) fun _ => appends_next fun _ => appends_next fun _ => appends_next fun _ => ?_
    refine appends_after (silent_readReg _) fun _ => appends_after (silent_memReadByte _) fun _ =>
      appends_after (silent_of_frame (frame_sendByte _) (by decide)) fun _ => appends_ite ?_ ?_
    · exact appends_next fun _ => appends_bind (appends_log _) fun _ => ih (i + 1)
    · exact appends_next fun _ => appends_returnCount 0

theorem appends_writeOp (base n : Nat) (atn talk : Bool) : Appends (writeOp base n atn talk) :=
  appends_call <| appends_next fun _ => appends_next fun _ => appends_next fun _ => appends_next fun _ => appends_next fun _ =>
  appends_next fun _ => appends_next fun _ => appends_after (silent_waitUntil _ _) fun _ => appends_next fun _ =>
  appends_next fun _ => appends_after (silent_readReg _) fun _ => appends_ite (appends_writeBytes base n atn talk n 0) appends_deviceAbsent

theorem appends_detectEoi (clockTaken : Bool) : Appends (detectEoi clockTaken) :=
  appends_ite (appends_pure ()) <| appends_next fun _ => appends_next fun _ => appends_next fun _ => appends_next fun _ =>
  appends_next fun _ => appends_after (silent_delay _) fun _ => appends_releaseLines _

theorem appends_storeByte (b : Byte) : Appends (storeByte b) :=
  appends_next fun _ => appends_after (silent_readReg _) fun _ => appends_next fun _ => appends_after (silent_readReg _) fun _ =>
  appends_after (silent_memWrite _ _) fun _ => appends_after (silent_readReg _) fun _ => appends_next fun _ =>
  appends_next fun _ => appends_next fun _ => appends_next fun _ => appends_log _

theorem appends_readLoop (maxLen f : Nat) : Appends (readLoop maxLen f) := by
  induction f with
  | zero => exact appends_hang
  | succ f ih =>
    refine appends_next fun _ => appends_next fun _ => appends_bind (appends_waitUntilKick _ _) fun _ => appends_next fun _ =>
      appends_next fun _ => appends_next fun _ => appends_ite (appends_readReg _) ?_
    refine appends_next fun _ => appends_after (silent_readReg _) fun _ => appends_ite ?_ (appends_readReg _)
    refine appends_next fun _ => appends_next fun _ => appends_next fun _ => appends_next fun _ =>
      appends_after (silent_waitUntil _ _) fun _ => appends_next fun _ => appends_next fun _ =>
      appends_after (silent_readReg _) fun _ => appends_bind (appends_detectEoi _) fun _ => appends_next fun _ =>
      appends_after (silent_of_frame frame_receiveByte (by decide)) fun r => ?_
    cases r with
    | none => exact appends_next fun _ => appends_readReg _
    | some b =>
      exact appends_bind (appends_storeByte b) fun _ => appends_next fun _ => appends_after (silent_readReg _) fun _ =>
        appends_next fun _ => appends_ite (appends_readReg _) ih

theorem appends_readOp (maxLen : Nat) : Appends (readOp maxLen) :=
  appends_call <| appends_next fun _ => appends_next fun _ => appends_readLoop maxLen _

theorem appends_probeFree : Appends probeFree :=
  appends_call <| appends_next fun _ => appends_next fun _ => appends_next fun _ => appends_after (silent_delay _) fun _ =>
  appends_next fun _ => appends_next fun _ => appends_ite (appends_pure _) <|
  appends_next fun _ => appends_next fun _ => appends_next fun _ => appends_next fun _ => appends_after (silent_delay _) fun _ =>
  appends_next fun _ => appends_next fun _ => appends_ite (appends_next fun _ => appends_pure _) <|
  appends_next fun _ => appends_next fun _ => appends_next fun _ => appends_next fun _ => appends_after (silent_delay _) fun _ =>
  appends_next fun _ => appends_next fun _ => appends_pure _

theorem appends_freeBusLoop (f : Nat) : Appends (freeBusLoop f) := by
  induction f with
  | zero => exact appends_hang
  | succ f ih =>
    refine appends_next fun _ => appends_bind appends_kickWatchdog fun _ => appends_next fun _ =>
      appends_bind appends_probeFree fun _ => appends_ite (appends_pure ()) ?_
    exact appends_next fun _ => appends_next fun _ => appends_after (silent_readReg _) fun _ => appends_next fun _ =>
      appends_ite (appends_log _) <| appends_next fun _ => appends_next fun _ => appends_after (silent_delay _) fun _ => ih

theorem appends_resetPulse : Appends resetPulse :=
  appends_next fun _ => appends_next fun _ => appends_next fun _ => appends_next fun _ => appends_next fun _ =>
  appends_after (silent_delay _) fun _ => appends_next fun _ => appends_releaseLines _

theorem appends_busResetOp : Appends busResetOp :=
  appends_call <| appends_bind appends_resetPulse fun _ => appends_next fun _ =>
  appends_bind (appends_call <| appends_next fun _ => appends_next fun _ => appends_next fun _ => appends_freeBusLoop _) fun _ =>
  appends_line 6

/-! ### The dispatches -/

theorem appends_whenReq {r : ReqState} {m : Op Unit} (hm : Appends m) : Appends (whenReq r m) := by
  intro s
  by_cases hreq : s.req = r
  · have hrun : finalState (whenReq r m) s = finalState m s := by simp only [finalState, whenReq, hreq, if_true]
    exact hrun ▸ hm s
  · have hrun : whenReq r m s = .ok () s := by simp only [whenReq, hreq, if_false]
    rw [finalState_ok hrun]

theorem appends_storeResult (c : Nat) : Appends (storeResult c) := appends_of_silent fun _ => rfl

theorem appends_dispatchWriteOp : Appends dispatchWriteOp :=
  appends_whenReq <| appends_call <| appends_next fun _ => appends_bind (appends_writeOp _ _ _ _) appends_storeResult

theorem appends_dispatchAsyncOp : Appends dispatchAsyncOp :=
  appends_whenReq <| appends_call <| appends_after (silent_memReadByte 0) fun _ => appends_after (silent_memReadByte 1) fun _ =>
  appends_next fun _ => appends_bind (appends_writeOp _ _ _ _) appends_storeResult

theorem appends_dispatchReadOp : Appends dispatchReadOp :=
  appends_whenReq <| appends_call <| appends_next fun _ => appends_bind (appends_readOp _) fun _ => appends_of_silent fun _ => rfl

/-! ### Every instruction -/

theorem trace_of_appends {m : Op α} (hm : Appends m) {s t : State} (h : answer m s = .next t) : s.trace <+: t.trace := by
  cases (answer_eq_next m s t).mp h
  exact hm s

/-- No instruction takes an event out of the trace (R37). -/
theorem exec_appends {i : Instr} {s t : State} (h : exec i s = .next t) : s.trace <+: t.trace := by
  by_cases htrace : Part.trace ∈ mayChange i
  · cases i with
    | write base n atn talk => exact trace_of_appends (appends_writeOp base n.toNat atn talk) h
    | read n => exact trace_of_appends (appends_readOp _) h
    | reset => exact trace_of_appends appends_busResetOp h
    | busReset => exact trace_of_appends (appends_call (o := .busReset) appends_busResetOp) h
    | dispatchWrite => exact trace_of_appends appends_dispatchWriteOp h
    | dispatchAsync => exact trace_of_appends appends_dispatchAsyncOp h
    | dispatchRead => exact trace_of_appends appends_dispatchReadOp h
    | _ => simp [mayChange, commandParts, sendParts, receiveParts] at htrace
  · obtain ⟨α, m, hm, hexec⟩ := exec_within i
    exact trace_of_appends (appends_of_silent (silent_of_frame hm htrace)) ((hexec s).symm.trans h)

end Sys2Proof.Machine
end

section
/-! PROOFS. A watchdog reset (R258, R260, R280), at the start of a step, inside an instruction, or in an idle pass. -/

namespace Sys2Proof.Machine

variable {s t u : State}

/-- What a run from `s` that no watchdog reset and no fault has ended keeps at `u`: the reset count, `FAULT`, the world and the trace
so far; and time has not gone back. -/
def RunsOn (s u : State) : Prop :=
  u.resets = s.resets ∧ u.fault = s.fault ∧ sameWorld s u ∧ s.now ≤ u.now ∧ s.trace <+: u.trace

theorem runsOn_of_frame {may : List Part} (h : Frame may s u) (htrace : s.trace <+: u.trace) : RunsOn s u :=
  have ⟨hworld, hnow⟩ := worldKept_of_frame h
  ⟨frame_resets h, frame_fault h, hworld, hnow, htrace⟩

theorem runsOn_of_polled (h : Polled s u) : RunsOn s u := by
  rcases h with ⟨-, rfl⟩ | ⟨-, rfl⟩ <;> simp [RunsOn, sameWorld]

/-- The reset sequence gives the values of R280, and keeps what R258 and R260 say. -/
theorem resetBetween_watchdogReset (s : State) : resetBetween s (watchdogReset s) := by
  simp [resetBetween, resetValues, mainAt, sameWorld]

/-- A watchdog reset later in the run. -/
theorem resetBetween_of_runsOn (h : RunsOn s u) (ht : resetBetween u t) : resetBetween s t := by
  obtain ⟨hresets, hfault, ⟨hcfg, hbus⟩, hnow, before, hbefore⟩ := h
  obtain ⟨hvalues, hresets', hfault', ⟨hcfg', hbus'⟩, hnow', after, hafter⟩ := ht
  refine ⟨hvalues, by rw [hresets', hresets], hfault'.trans hfault, ⟨hcfg'.trans hcfg, hbus'.trans hbus⟩, hnow.trans hnow',
    before ++ after, ?_⟩
  rw [hafter, ← hbefore, List.append_assoc]

/-- Wherever the watchdog resets the engine inside an instruction, it is at the reset values (R259, R280). -/
theorem exec_resetBetween {i : Instr} (h : exec i s = .next t) (hr : t.resets ≠ s.resets) : resetBetween s t := by
  have htrace := exec_appends h
  obtain ⟨u, hu, rfl | ⟨k, rfl⟩ | rfl⟩ := exec_cases h
  · exact absurd (frame_resets hu) hr
  · exact absurd (frame_resets hu) hr
  · rw [watchdogReset_trace] at htrace
    exact resetBetween_of_runsOn (runsOn_of_frame hu htrace) (resetBetween_watchdogReset u)

@[simp] theorem resume_resets (j k : Nat) (t : State) : (resume j k t).resets = t.resets := by
  unfold resume
  split <;> rfl

/-- The main loop does not go on from an engine that has been reset (R261). -/
theorem resetBetween_resume {j k : Nat} (hj : j ≠ 1) (h : resetBetween s t) : resetBetween s (resume j k t) := by
  have ⟨⟨_, _, _, _, _, _, _, _, _, _, _, _, _, _, hpc, _⟩, _⟩ := h
  rwa [resume_of_ne (.inr fun hback => hj (congrArg Loc.line (hpc.symm.trans hback)).symm)]

/-- While the main loop idles the watchdog can only expire inside the poll interval (R197 line 2, R258). -/
theorem resetBetween_idlePass (hr : (idlePass s).resets ≠ s.resets) : resetBetween s (idlePass s) := by
  rw [idlePass, resume_resets] at hr
  refine resetBetween_resume (by decide) ?_
  have hends : Ends (fun t => t.resets = s.resets) (fun _ t => t.resets = s.resets) (delay s.cfg.tPoll { s with pc := mainAt 2 }) :=
    ends_delay fun _ _ _ _ => rfl
  rcases final_of_ends (may := waitParts) (frame_delay s.cfg.tPoll (by decide)) hends with hsame | ⟨u, hu, hfinal⟩
  · exact absurd hsame hr
  · have htrace : u.trace = s.trace := hu.2 .trace (by decide)
    have hrun : RunsOn s u := runsOn_of_frame (may := waitParts) hu ⟨[], by rw [List.append_nil, htrace]⟩
    rw [hfinal]
    exact resetBetween_of_runsOn hrun (resetBetween_watchdogReset u)

/-- An expired watchdog is what the next step answers (R255, R258). -/
theorem step_expired (hf : s.fault = none) (hw : wdtExpired s = true) : step s = .next (watchdogReset s) := by
  simp only [step, stepOnce, hf, hw, if_true]

/-- A step with a watchdog reset in it, wherever it comes. -/
theorem step_resetBetween (h : step s = .next t) (hr : t.resets ≠ s.resets) : resetBetween s t := by
  obtain ⟨-, hcase⟩ := step_cases h
  cases hcase with
  | watchdog _ ht => exact ht ▸ resetBetween_watchdogReset s
  | idle u hu ht =>
    have hrun := runsOn_of_polled hu
    have ⟨hresets, _⟩ := hrun
    rw [ht, ← hresets] at hr
    exact ht ▸ resetBetween_of_runsOn hrun (resetBetween_idlePass hr)
  | reserved u hu ht =>
    have ⟨hresets, _⟩ := runsOn_of_polled hu
    exact absurd ((congrArg State.resets ht).trans hresets) hr
  | command u v i rest hu _ hexec ht =>
    have hrun := runsOn_of_polled hu
    have ⟨hresets, _⟩ := hrun
    rw [ht, resume_resets, ← hresets] at hr
    have hreset : resetBetween u v := exec_resetBetween (s := { u with hin := rest, pc := mainAt 4 }) hexec hr
    exact ht ▸ resetBetween_resume (by decide) (resetBetween_of_runsOn hrun hreset)
  | dispatch v _ hexec ht =>
    rw [ht, resume_resets] at hr
    exact ht ▸ resetBetween_resume (by decide) (exec_resetBetween hexec hr)
  | again _ ht => exact absurd (congrArg State.resets ht) hr

end Sys2Proof.Machine
end

section
open Sys2Proof Sys2Proof.Machine

/-- Settles O10: an expired watchdog is the next step, and elsewhere every run up to the reset has kept what the reset keeps. -/
theorem watchdogResetState : Obligations.WatchdogResetState := by
  refine ⟨fun s hf hw => ?_, fun _ _ _ h hr => exec_resetBetween h hr, fun _ _ h hr => step_resetBetween h hr⟩
  have hexpired : wdtExpired s = true := decide_eq_true (by omega)
  exact ⟨watchdogReset s, step_expired hf hexpired, resetBetween_watchdogReset s, watchdogReset_now s, watchdogReset_trace s⟩

/-- Settles O53, by the frame of each instruction: of those whose frame has `WDT_LAST` all are reads or bus resets. -/
theorem onlyReadsAndResetsKick : Obligations.OnlyReadsAndResetsKick := by
  intro i s t h hr hkick
  obtain ⟨-, -, hparts⟩ := exec_keeps_parts h hr
  have hmay : Part.wdtLast ∈ mayChange i := by
    by_contra hno
    exact hkick (hparts .wdtLast hno)
  cases i with
  | read n => exact .inl ⟨n, rfl⟩
  | dispatchRead => exact .inr (.inl rfl)
  | reset => exact .inr (.inr (.inl rfl))
  | busReset => exact .inr (.inr (.inr rfl))
  | _ => simp [mayChange, commandParts, sendParts, receiveParts, writeParts, dispatchWriteParts] at hmay
end

section
/-! PROOFS. Of the host commands only `SET_RELEASE` and `BUS_RESET` write a line (R222, R224): the others leave `OUT` as it was, wherever
they end. -/

namespace Sys2Proof.Machine

variable {α : Type} {may : List Part} {s t : State}

/-- A run that leaves `OUT` as it was, also where a fault or an endless loop stops it. -/
abbrev KeepsOut (s : State) : EStateM.Result Stop State α → Prop := Ends (fun t => t.out = s.out) (fun _ t => t.out = s.out)

theorem keepsOut_requestReadOp (n : Byte) : KeepsOut s (requestReadOp n s) := by
  simp only [requestReadOp, setLen, setReq, ends_call, ends_bind, ends_requireHost, run_line, ends_ok, implies_true, and_self]

theorem keepsOut_collectReadOp (n : Byte) : KeepsOut s (collectReadOp n s) := by
  simp only [collectReadOp, writeBlock, ends_call, ends_bind, ends_requireHost, run_line, ends_ok, run_get, ends_memRead]
  refine ⟨fun _ => ⟨fun _ => ends_takeXfer fun _ _ _ => ?_, fun _ => trivial⟩, fun _ => trivial⟩
  simp only [setReq, ends_ok, ends_ite, ends_bind, run_line, run_respond, implies_true, and_self]

theorem keepsOut_submitWriteOp (n : Byte) (block : List Byte) : KeepsOut s (submitWriteOp n block s) := by
  simp only [submitWriteOp, readBlock, ends_call, ends_bind, ends_requireHost, run_line, ends_ok]
  refine ⟨fun _ => ⟨fun _ => ends_takeXfer fun delivered _ _ => ?_, fun _ => trivial⟩, fun _ => trivial⟩
  cases delivered with
  | false =>
    simp only [freeBytes, Bool.false_eq_true, if_false, run_pure, run_line, ends_ok, ends_bind, ends_memWrite, run_respond,
      implies_true, and_self]
  | true =>
    simp only [setLen, setReq, if_true, run_pure, run_line, ends_ok, ends_bind, ends_memWrite, run_respond, implies_true, and_self]

theorem keepsOut_submitAsyncOp (a k n : Byte) (payload : List Byte) : KeepsOut s (submitAsyncOp a k n payload s) := by
  simp only [submitAsyncOp, setLen, setReq, ends_call, ends_bind, ends_requireHost, run_line, ends_ok, ends_memWrite, implies_true,
    and_self]

theorem queried_out (s : State) : (queried s).out = s.out := by
  unfold queried
  split <;> rfl

theorem keepsOut_queryResultOp : KeepsOut s (queryResultOp s) := by
  simp only [run_queryResultOp, ends_ok, queried_out]

/-- What keeps each of the four lines keeps `OUT` (R21). -/
theorem out_of_frame (h : Frame may s t) (hno : ∀ p ∈ [Part.outData, .outClock, .outAtn, .outReset], p ∉ may) : t.out = s.out :=
  lines_eq_of_bits (h.2 .outData (hno _ (by decide))) (h.2 .outClock (hno _ (by decide))) (h.2 .outAtn (hno _ (by decide)))
    (h.2 .outReset (hno _ (by decide)))

/-- A wait samples the bus and does not write it (R113). -/
theorem keepsOut_waitForever (c : State → Bool) (h : t.out = s.out) : KeepsOut s (waitForever c t) :=
  ends_waitForever (fun _ hf _ => (out_of_frame hf (by decide)).trans h) fun _ _ _ _ => h

theorem keepsOut_logicalWaitOp (sel state : Byte) : KeepsOut s (logicalWaitOp sel state s) := by
  simp only [logicalWaitOp, ends_call]
  cases selectedLine sel with
  | none =>
    simp only [run_raise, ends_error]
    exact .inr trivial
  | some l =>
    simp only [ends_ite, ends_bind, run_line, ends_ok]
    exact ⟨fun _ => keepsOut_waitForever _ rfl, fun _ => keepsOut_waitForever _ rfl⟩

theorem keepsOut_logicalPollOp : KeepsOut s (logicalPollOp s) := by
  simp only [logicalPollOp, ends_call, ends_bind, run_get, run_respond, ends_ok]

/-- The `OUT` that an operation which keeps it leaves, where no watchdog reset has happened. -/
theorem out_of_keepsOut {m : Op α} (hm : Within (Frame may) m) (h : KeepsOut s (m s)) (ht : answer m s = .next t)
    (hr : t.resets = s.resets) : t.out = s.out := by
  cases (answer_eq_next m s t).mp ht
  rcases final_of_ends hm h with hout | ⟨u, hu, e⟩
  · exact hout
  · rw [e, watchdogReset_resets, frame_resets hu] at hr
    omega

/-- An instruction that no watchdog reset ends keeps the RESET line: it is outside its frame, or the whole of `OUT` is kept; or it is
one of the three that write that line (R223, R292). -/
theorem exec_keeps_resetLine {i : Instr} (h : exec i s = .next t) (hr : t.resets = s.resets) :
    sameLine s t .reset ∨ (∃ a r, i = .setRelease a r) ∨ i = .reset ∨ i = .busReset := by
  by_cases hmay : Part.outReset ∈ mayChange i
  · have hout (e : t.out = s.out) : sameLine s t .reset := congrArg (· &&& lineMask .reset) e
    cases i with
    | requestRead n => exact .inl (hout (out_of_keepsOut (frame_requestReadOp n) (keepsOut_requestReadOp n) h hr))
    | collectRead n => exact .inl (hout (out_of_keepsOut (frame_collectReadOp n) (keepsOut_collectReadOp n) h hr))
    | submitWrite n block =>
      exact .inl (hout (out_of_keepsOut (frame_submitWriteOp n block) (keepsOut_submitWriteOp n block) h hr))
    | submitAsync a k n payload =>
      exact .inl (hout (out_of_keepsOut (frame_submitAsyncOp a k n payload) (keepsOut_submitAsyncOp a k n payload) h hr))
    | queryResult => exact .inl (hout (out_of_keepsOut frame_queryResultOp keepsOut_queryResultOp h hr))
    | logicalWait sel state =>
      exact .inl (hout (out_of_keepsOut (frame_logicalWaitOp sel state) (keepsOut_logicalWaitOp sel state) h hr))
    | logicalPoll => exact .inl (hout (out_of_keepsOut frame_logicalPollOp keepsOut_logicalPollOp h hr))
    | setRelease a r => exact .inr (.inl ⟨a, r, rfl⟩)
    | reset => exact .inr (.inr (.inl rfl))
    | busReset => exact .inr (.inr (.inr rfl))
    | _ => simp [mayChange, sendParts, receiveParts, writeParts, readParts, dispatchWriteParts, dispatchReadParts] at hmay
  · obtain ⟨-, -, hparts⟩ := exec_keeps_parts h hr
    exact .inl (sameLine_of_bit (l := .reset) (hparts .outReset hmay))

end Sys2Proof.Machine
end

section
/-! PROOFS. The state after power-on (R280, R281). -/

namespace Sys2Proof.Machine

/-- The open values of the parameters at power-on are within their constraints (R7, R8). -/
theorem legalParams_initial : legalParams Config.initial := by
  have hcap : Config.bufCapAbove.val + 3 ≤ 255 := Nat.add_le_add_right (Nat.le_of_lt_succ Config.bufCapAbove.isLt) 3
  exact ⟨Nat.le_add_left 3 _, hcap, by decide, by decide, physMap_distinct⟩

/-- After power-on nothing is stored yet, and `LEN` is 0 (R25, R26). -/
theorem stored_reset : Stored State.reset := ⟨⟨wf_reset, nofun⟩, Nat.zero_le _⟩

theorem readyAt_reset : ReadyAt 1 State.reset := ⟨legalParams_initial, stored_reset, Nat.le_refl _, rfl, rfl, rfl, rfl⟩

end Sys2Proof.Machine
end

section
open Sys2Proof Sys2Proof.Machine

/-- Settles O56: of the instructions whose frame has the RESET line, all but the three named leave the whole of `OUT`. -/
theorem resetLineChangers : Obligations.ResetLineChangers := fun _ _ _ h hr hdiff =>
  (exec_keeps_resetLine h hr).resolve_left hdiff

/-- Settles O11: each of the values stands in the definition of the power-on state. -/
theorem powerOnState : Obligations.PowerOnState :=
  ⟨rfl, rfl, rfl, rfl, rfl, rfl, rfl, rfl, rfl, rfl, rfl, rfl, rfl, rfl, rfl, rfl, rfl, rfl, rfl⟩

/-- Settles O58: the engine stands at line 1 of the main loop with no request armed and meets what the invariant asks there. -/
theorem powerOnMeetsTheInvariant : Obligations.PowerOnMeetsTheInvariant :=
  machineInvariant_of_readyAt readyAt_reset (.inr ⟨rfl, rfl⟩)
end
